-- ==== Sys2Proof/Word.lean ====
section
/-!
DEFINITION. The values the matrix core passes around: bytes, intensities, channels, button events, frames
and poll responses. All values are unsigned (00_scope.md R10, R11).
-/

namespace Sys2Proof

abbrev Byte := BitVec 8

/-- The channel set, in the source's declared order (00_scope.md R7, 20_memory.md R61). -/
inductive Channel
  | red
  | green
  | blue
deriving DecidableEq, Repr

/-- `chIndex` of 20_memory.md R61: RED = 0, GREEN = 1, BLUE = 2. -/
def Channel.index : Channel → Nat
  | .red => 0
  | .green => 1
  | .blue => 2

/-- The channels in declared order. -/
def Channel.all : List Channel := [.red, .green, .blue]

/-- Three 4-bit intensities, what `ColorTable` maps an index to (00_scope.md R9). -/
structure Rgb where
  red   : BitVec 4
  green : BitVec 4
  blue  : BitVec 4
deriving DecidableEq, Repr, Inhabited

/-- The intensity of one channel. -/
def Rgb.channel (v : Rgb) : Channel → BitVec 4
  | .red => v.red
  | .green => v.green
  | .blue => v.blue

/-- All channels off, the colour of a color-off command (43_color.md R202). -/
def Rgb.off : Rgb := ⟨0, 0, 0⟩

/-- An `Event`, the source's ButtonEvent: column 0..9, row 0..5, isPressed (10_state.md R32). -/
structure ButtonEvent where
  column    : Fin 10
  row       : Fin 6
  isPressed : Bool
deriving DecidableEq, Repr, Inhabited

/-- The 3-byte poll response (30_encoding.md R85). -/
structure Response where
  b0 : Byte
  b1 : Byte
  b2 : Byte
deriving DecidableEq, Repr, Inhabited

/-- The 5-byte shift-register frame, its bytes in wire order (30_encoding.md R88). -/
structure Frame where
  red   : Byte
  blue  : Byte
  green : Byte
  selHi : Byte
  selLo : Byte
deriving DecidableEq, Repr, Inhabited

/-- The bytes of a frame as they are sent. -/
def Frame.bytes (f : Frame) : List Byte := [f.red, f.blue, f.green, f.selHi, f.selLo]

/-- The byte of one channel. -/
def Frame.channel (f : Frame) : Channel → Byte
  | .red => f.red
  | .green => f.green
  | .blue => f.blue

/-- The 16-bit column-select word, high byte first on the wire (20_memory.md R63). -/
def Frame.select (f : Frame) : BitVec 16 := f.selHi ++ f.selLo

end Sys2Proof
end

