-- ==== Sys2Proof/Config.lean ====
section
/-!
DEFINITION. The parameters the source leaves open (00_scope.md R8) as one record, their legal values, the
spec's defaults, and the free values: constants with no body, of which nothing can be proved.
-/

namespace Sys2Proof

/-- The three readings of the debounce commit test (41_debounce.md R143). -/
inductive CommitRule
  | checkAfterIncrement
  | onIncrementOnly
  | elseBranch
deriving DecidableEq, Repr

/-- What a failed event write at commit does (00_scope.md R8). -/
inductive OverflowPolicy
  | halt
  | dropOldest
deriving DecidableEq, Repr

/-- The parameters of 00_scope.md R8. `capLog` is `k` of `C = 2^k`, `base` is `BASE`, `widthT` is `W_T`. -/
structure Config where
  capLog         : Nat
  base           : Nat
  widthT         : Nat
  colsel         : Vector (BitVec 16) 10
  commitRule     : CommitRule
  overflowPolicy : OverflowPolicy
  tear           : Bool
  staleView      : Bool
  colorTable     : Vector Rgb 256
deriving DecidableEq, Repr

/-- `C`, the queue's capacity in slots (42_event_queue.md R180). -/
def Config.capacity (c : Config) : Nat := 2 ^ c.capLog

/-- `ColorTable(idx)`, a total function of an 8-bit index (00_scope.md R9). -/
def Config.lookup (c : Config) (idx : Byte) : Rgb := c.colorTable[idx.toNat]'idx.isLt

/-- Exactly one bit of the word is 1. -/
abbrev OneHot (v : BitVec 16) : Prop := ∃ i : Fin 16, v = 1#16 <<< i.val

/-- The legal values of the parameters: 00_scope.md R8, 30_encoding.md R90 (`COLSEL` one-hot and injective)
and 42_event_queue.md R175 (`dropOldest` with stale views is no configuration of the block). -/
abbrev Config.Wf (c : Config) : Prop :=
  1 ≤ c.capLog ∧ 1 ≤ c.base ∧ c.base * 8 < 2 ^ c.widthT ∧ 4 ≤ c.widthT ∧
  (∀ i : Fin 10, OneHot c.colsel[i]) ∧
  (∀ i j : Fin 10, c.colsel[i] = c.colsel[j] → i = j) ∧
  ¬ (c.overflowPolicy = .dropOldest ∧ c.staleView = true)

/-- The default of `COLSEL`: column `c` is bit `c` (30_encoding.md R90). -/
def Config.defaultColsel : Vector (BitVec 16) 10 := Vector.ofFn fun c : Fin 10 => 1#16 <<< c.val

/-- FREE. `BASE - 1`: the spec gives `BASE` no value (D5, OPEN); log entry 2. -/
opaque Config.openBasePred : Nat

/-- FREE. How many bits `W_T` has beyond the fewest that hold `8·BASE`: the spec gives `W_T` no value (D5, OPEN);
log entry 2. -/
opaque Config.openWidthExtra : Nat

/-- FREE. The contents of `ColorTable` (D18, OPEN); log entry 2. -/
opaque Config.openColorTable : Vector Rgb 256

/-- FREE. The three bytes a poll gets while the block is halted (44_poll.md R233), by draw; log entry 7. -/
opaque Config.haltedResponse : Nat → Response

/-- FREE. What the queue slots hold after a reset (70_reset_and_hazards.md R280 "unspecified"), by draw and slot;
log entry 6. -/
opaque Config.slotAfterReset : Nat → Nat → ButtonEvent

/-- FREE. How far the producer's stale view moves at its `n`-th full test (42_event_queue.md R179); log entry 8. -/
opaque Config.rvDraw : Nat → Nat

/-- FREE. How far the consumer's stale view moves at its `n`-th empty test (42_event_queue.md R179); log entry 8. -/
opaque Config.wvDraw : Nat → Nat

/-- FREE. How many tests after the `n`-th full test the producer's stale view may still stay behind a read cursor that
does not move: some finite number (42_event_queue.md R179, fairness); log entry 8. -/
opaque Config.rvPatience : Nat → Nat

/-- FREE. The same for the consumer's stale view, the write cursor and the `n`-th empty test; log entry 8. -/
opaque Config.wvPatience : Nat → Nat

/-- Some legal `BASE`: every `BASE ≥ 1` is one of these. -/
def Config.openBase : Nat := Config.openBasePred + 1

/-- Some legal `W_T` for that `BASE`: every width with `8·BASE < 2^W_T` is one of these. -/
def Config.openWidth : Nat := Nat.log2 (Config.openBase * 8) + 1 + Config.openWidthExtra

/-- The spec's defaults (00_scope.md R8), with the OPEN parameters left free. -/
def Config.default : Config where
  capLog := 4
  base := Config.openBase
  widthT := Config.openWidth
  colsel := Config.defaultColsel
  commitRule := .checkAfterIncrement
  overflowPolicy := .halt
  tear := false
  staleView := false
  colorTable := Config.openColorTable

/-- The reset contents of the `C` slots of the queue, at the `n`-th draw: free values. -/
def Config.freeSlots (c : Config) (n : Nat) : List ButtonEvent :=
  (List.range c.capacity).map (Config.slotAfterReset n)

end Sys2Proof
end

