-- ==== Sys2Proof/Syntax.lean ====
section
/-!
DEFINITION. The operations of the block (one constructor per row of opcode_table.json), the events of its input
ports, and the turns the environment gives.
-/

namespace Sys2Proof

/-- One constructor per row of opcode_table.json. The first six are started by a port event
(30_encoding.md R81), the rest are internal micro-operations with no encoding (00_scope.md R2). -/
inductive Instr
  /-- `SET_COLOR(b0, b1, b2, b3)`, 43_color.md R202. -/
  | setColor (b0 b1 b2 b3 : Byte)
  /-- `RX_IGNORED`, 43_color.md R204: the bytes of a receive transaction of a length other than 4. -/
  | rxIgnored (bytes : List Byte)
  /-- `POLL`, 44_poll.md R230. -/
  | poll
  /-- `TICK`, 40_sequencer.md R110, with the `dataIn` the chain returns. -/
  | tick (dataIn : Byte)
  /-- `SET_RGB(row, col, red, green, blue)`, 43_color.md R201. -/
  | setRgb (row col : Byte) (red green blue : BitVec 4)
  /-- `RESET`, 70_reset_and_hazards.md R280. -/
  | reset
  /-- `ADVANCE`, 40_sequencer.md R111. -/
  | advance
  /-- `EMIT_FRAME(s, c)`, 40_sequencer.md R116, with the `dataIn` the chain returns. -/
  | emitFrame (s : BitVec 2) (c : Fin 10) (dataIn : Byte)
  /-- `DEBOUNCE_STEP(k, d)`, 41_debounce.md R140. -/
  | debounceStep (k : Fin 10) (d : Byte)
  /-- `CONFIRM(k, d)`, 41_debounce.md R143. -/
  | confirm (k : Fin 10) (d : Byte)
  /-- `COMMIT(k, d)`, 41_debounce.md R144. -/
  | commit (k : Fin 10) (d : Byte)
  /-- `QUEUE_WRITE(e)`, 42_event_queue.md R171. -/
  | queueWrite (e : ButtonEvent)
  /-- `QUEUE_READ`, 42_event_queue.md R173. -/
  | queueRead
  /-- `QUEUE_WRITE_DROP(e)`, 42_event_queue.md R175. -/
  | queueWriteDrop (e : ButtonEvent)
  /-- `BAM_ENCODE(row, col, red, green, blue)`, 43_color.md R200. -/
  | bamEncode (row : Fin 6) (col : Fin 10) (red green blue : BitVec 4)
deriving DecidableEq, Repr

/-- An event of an input port (30_encoding.md R80). The tick event carries the byte the shift-register chain
returns in its transaction, an answer of the environment (10_state.md R42). -/
inductive PortEvent
  | tick (dataIn : Byte)
  | rx (bytes : List Byte)
  | pollReq
  | setRgb (row col : Byte) (red green blue : BitVec 4)
  | reset
deriving DecidableEq, Repr

/-- The sources that start operations (60_exceptions.md R257). -/
inductive Agent
  | timer
  | hostBus
  | rawPort
  | reset
deriving DecidableEq, Repr

/-- Whose event it is (60_exceptions.md R257). -/
def PortEvent.agent : PortEvent → Agent
  | .tick _ => .timer
  | .rx _ => .hostBus
  | .pollReq => .hostBus
  | .setRgb .. => .rawPort
  | .reset => .reset

/-- One turn of the total order of 20_memory.md R71: an event of a port, or, under `TEAR = true`, one sub-step of
the colour update in progress (20_memory.md R70). -/
inductive Turn
  | event (e : PortEvent)
  | colorSubStep
deriving DecidableEq, Repr

end Sys2Proof
end

