-- ==== Sys2Proof/Machine/State.lean ====
section
/-!
DEFINITION. Everything the spec gives the block to remember (10_state.md R20, 42_event_queue.md R179,
20_memory.md R70), beside the model's own fields: the parameters, the turns to come, what was sent, and the
counters of the free values. Plain data throughout.
-/

namespace Sys2Proof.Machine

/-- Byte storage: rising addresses, and only cells that differ from what an unlisted address reads as. -/
abbrev Memory := List Host.Cell

/-- What an unlisted Frame Buffer cell reads as: its reset contents (10_state.md R24). -/
def Memory.unlisted : Byte := 0

/-- Every address of the list is below `bound` and above `low`, addresses rise, no listed cell holds the unlisted
value. -/
def Memory.wfFrom (bound : Nat) : Nat → Memory → Bool
  | _, [] => true
  | low, (a, v) :: rest =>
    decide (low ≤ a) && decide (a < bound) && (v != Memory.unlisted) && Memory.wfFrom bound (a + 1) rest

/-- The number of Frame Buffer cells (10_state.md R24). -/
def fbCells : Nat := 120

/-- The canonical form of the Frame Buffer. -/
def Memory.wf (m : Memory) : Bool := Memory.wfFrom fbCells 0 m

/-- The debounce registers of one column (10_state.md R27 to R29). -/
structure Debounce where
  last : Byte
  pend : Byte
  cnt  : BitVec 2
deriving DecidableEq, Repr

/-- The event queue: its slots and the write and read cursors (10_state.md R32, R33). -/
structure Queue where
  slots : List ButtonEvent
  w     : Nat
  r     : Nat
deriving DecidableEq, Repr

/-- One write of one row bit in one Frame Buffer cell: a sub-step of a colour update (20_memory.md R70). -/
structure SubStep where
  stage : BitVec 2
  col   : Fin 10
  ch    : Channel
  row   : Fin 6
  on    : Bool
deriving DecidableEq, Repr

/-- A colour update in progress under `TEAR = true`: who started it and the sub-steps still to do. -/
structure ColorUpdate where
  agent : Agent
  steps : List SubStep
deriving DecidableEq, Repr

/-- What the block sends on an output port (30_encoding.md R80): a frame on `srOut`, a response on `pollResp`, an
index on `ctIdx`. -/
inductive PortOut
  | frame (f : Frame)
  | pollResp (r : Response)
  | ctIdx (idx : Byte)
deriving DecidableEq, Repr

/-- What an internal micro-operation run as an instruction returned (10_state.md R39: a result of one operation,
not stored by the block; the model shows it here). -/
inductive MicroResult
  | none
  | dataIn (d : Byte)
  | wrote (ok : Bool)
  | read (e : Option ButtonEvent)
deriving DecidableEq, Repr

/-- The next draw of each kind of free value. -/
structure FreeCounters where
  slots : Nat
  polls : Nat
  rv    : Nat
  wv    : Nat
deriving DecidableEq, Repr

/-- What makes a side's stale view fair (42_event_queue.md R179): the other side's cursor as it was at the side's last
test, and for how many more tests the view may stay behind it while it does not move. -/
structure Watch where
  cursor : Nat
  left   : Nat
deriving DecidableEq, Repr

/-- The state of the machine. The first block of fields is the parameters; the second is the spec's record
(10_state.md R20) with the cursor views of 42_event_queue.md R179 and the update in progress of 20_memory.md R70;
the third is the model's own. -/
structure State where
  cfg        : Config
  column     : BitVec 4
  bamStage   : BitVec 2
  tickPeriod : Nat
  fb         : Memory
  deb        : Vector Debounce 10
  q          : Queue
  rv         : Nat
  wv         : Nat
  halted     : Bool
  srFrame    : Option Frame
  update     : Option ColorUpdate
  inputs     : List Turn
  out        : List PortOut
  ret        : MicroResult
  free       : FreeCounters
  rvWatch    : Watch
  wvWatch    : Watch
deriving DecidableEq, Repr

/-- Why the machine stops with a fault. -/
inductive Fault
  /-- A queue cursor names no slot of the array. Raised by QUEUE_WRITE, QUEUE_READ and QUEUE_WRITE_DROP, so by COMMIT,
  CONFIRM, DEBOUNCE_STEP, TICK and POLL too, in states that the spec never reaches (20_memory.md R62 "no access
  leaves the array"). Safe: the machine stops where the spec gives no behaviour. -/
  | noSuchSlot
deriving DecidableEq, Repr

/-- Why an operation is refused. -/
inductive Refusal
  /-- The operation has no meaning yet; raised by the arms of exec alone. Safe. -/
  | notModelled (mnemonic : String)
  /-- `column` holds 10..15: "refuse a state that holds them" (93_implementation_defined.md I10). Raised by TICK and
  ADVANCE. Safe. -/
  | illegalColumn
  /-- `OVERFLOW_POLICY = dropOldest` with `STALE_VIEW = true`: "has no meaning in this spec; a model refuses it"
  (42_event_queue.md R175). Raised by QUEUE_WRITE_DROP, so by COMMIT, CONFIRM, DEBOUNCE_STEP and TICK too. Safe. -/
  | dropOldestWithStaleView
deriving DecidableEq, Repr

/-- The debounce registers after reset (70_reset_and_hazards.md R280). -/
def Debounce.reset : Debounce := ⟨0, 0, 0⟩

/-- The machine right after reset (70_reset_and_hazards.md R280), at the spec's default parameters, with no turn
pending and nothing sent. -/
def State.reset : State where
  cfg := Config.default
  column := 0
  bamStage := 0
  tickPeriod := Config.default.base
  fb := []
  deb := Vector.replicate 10 Debounce.reset
  q := ⟨Config.default.freeSlots 0, 0, 0⟩
  rv := 0
  wv := 0
  halted := false
  srFrame := none
  update := none
  inputs := []
  out := []
  ret := .none
  free := ⟨1, 0, 0, 0⟩
  rvWatch := ⟨0, 0⟩
  wvWatch := ⟨0, 0⟩

end Sys2Proof.Machine
end

