-- ==== Sys2Proof/Machine/Ops.lean ====
section
/-!
DEFINITION. The named operations over State that every meaning is built from: sequencing, field updates, Frame
Buffer and slot access, cursor arithmetic, output ports, the overflow halt and reset.
-/

namespace Sys2Proof.Machine

/-- The outcome of an operation of this machine with a result of type `α`. -/
abbrev Result (α : Type) := Host.Outcome α Fault Refusal

/-- Go on with `f` after a next outcome; a stop stays a stop. -/
def andThen {α β : Type} (x : Result α) (f : α → Result β) : Result β :=
  match x with
  | .next a => f a
  | .fault r => .fault r
  | .refused r => .refused r

/-! ## Field updates -/

/-- Write the sequencing registers (10_state.md R38). -/
def State.withCursor (s : State) (column : BitVec 4) (stage : BitVec 2) (period : Nat) : State :=
  { s with column := column, bamStage := stage, tickPeriod := period }

def State.withFb (s : State) (m : Memory) : State := { s with fb := m }

/-- Write the debounce registers of column `k` and of no other (41_debounce.md R155). -/
def State.withDeb (s : State) (k : Fin 10) (d : Debounce) : State := { s with deb := s.deb.set k d }

def State.withQueue (s : State) (q : Queue) : State := { s with q := q }

/-- Write the producer's view and its watch, and go on to its next draw. -/
def State.withRv (s : State) (v : Nat) (w : Watch) : State :=
  { s with rv := v, rvWatch := w, free := { s.free with rv := s.free.rv + 1 } }

/-- Write the consumer's view and its watch, and go on to its next draw. -/
def State.withWv (s : State) (v : Nat) (w : Watch) : State :=
  { s with wv := v, wvWatch := w, free := { s.free with wv := s.free.wv + 1 } }

def State.withUpdate (s : State) (u : Option ColorUpdate) : State := { s with update := u }

def State.withInputs (s : State) (l : List Turn) : State := { s with inputs := l }

def State.withRet (s : State) (r : MicroResult) : State := { s with ret := r }

/-- Send something on an output port. -/
def State.send (s : State) (o : PortOut) : State := { s with out := o :: s.out }

/-- Send a frame to the shift-register chain: it is the last frame sent (40_sequencer.md R116). -/
def State.sendFrame (s : State) (f : Frame) : State :=
  { s with srFrame := some f, out := .frame f :: s.out }

/-- Draw the response to a poll while halted: any three bytes (44_poll.md R233). -/
def State.sendFreeResponse (s : State) : State :=
  { s with out := .pollResp (Config.haltedResponse s.free.polls) :: s.out,
           free := { s.free with polls := s.free.polls + 1 } }

/-! ## Byte storage -/

/-- The byte at an address. -/
def Memory.read : Memory → Nat → Byte
  | [], _ => Memory.unlisted
  | (a, v) :: rest, x => if a = x then v else Memory.read rest x

/-- Write one byte, keeping the canonical form: the unlisted value takes the cell out of the list. -/
def Memory.write : Memory → Nat → Byte → Memory
  | [], x, b => if b = Memory.unlisted then [] else [(x, b)]
  | (a, v) :: rest, x, b =>
    if x < a then (if b = Memory.unlisted then (a, v) :: rest else (x, b) :: (a, v) :: rest)
    else if x = a then (if b = Memory.unlisted then rest else (a, b) :: rest)
    else (a, v) :: Memory.write rest x b

/-- The linear address of a Frame Buffer cell (20_memory.md R61). -/
def fbAddr (s : BitVec 2) (c : Fin 10) (ch : Channel) : Nat := (s.toNat * 10 + c.val) * 3 + ch.index

/-- `FbRead(s, c, ch)` (00_scope.md R12). -/
def fbRead (st : State) (s : BitVec 2) (c : Fin 10) (ch : Channel) : Byte :=
  Memory.read st.fb (fbAddr s c ch)

/-- `FbWrite(s, c, ch, v)` (00_scope.md R12). -/
def fbWrite (st : State) (s : BitVec 2) (c : Fin 10) (ch : Channel) (v : Byte) : State :=
  st.withFb (Memory.write st.fb (fbAddr s c ch) v)

/-- The mask of one row's bit (00_scope.md R10). -/
def rowBit (row : Fin 6) : Byte := 1#8 <<< row.val

/-- Clear a row's bit and, when `on`, set it (43_color.md R200). -/
def putRowBit (x : Byte) (row : Fin 6) (on : Bool) : Byte :=
  (x &&& ~~~(rowBit row)) ||| (if on then rowBit row else 0)

/-- One sub-step of a colour update (20_memory.md R70). -/
def applySubStep (st : State) (p : SubStep) : State :=
  fbWrite st p.stage p.col p.ch (putRowBit (fbRead st p.stage p.col p.ch) p.row p.on)

/-- Sub-steps in their order. -/
def applySubSteps (st : State) (ps : List SubStep) : State := ps.foldl applySubStep st

/-! ## The queue's array and cursors -/

/-- `(i + 1) mod C` (42_event_queue.md R171). -/
def nextIndex (c i : Nat) : Nat := (i + 1) % c

/-- How far `a` is behind `b` on the cycle of `c` indices: `(b − a) mod c`. -/
def gapTo (c a b : Nat) : Nat := (b + c - a % c) % c

/-- The number of unread events `N = (q.w − q.r) mod C` (42_event_queue.md R174). -/
def occupancy (s : State) : Nat := gapTo s.cfg.capacity s.q.r s.q.w

/-- `n` slots from index `i`, going round (42_event_queue.md R174); an index outside the array gives nothing. -/
def slotsFrom (slots : List ButtonEvent) (c : Nat) : Nat → Nat → List ButtonEvent
  | 0, _ => []
  | n + 1, i => (slots[i]?).toList ++ slotsFrom slots c n (nextIndex c i)

/-- The unread events, oldest first (42_event_queue.md R174). -/
def unread (s : State) : List ButtonEvent := slotsFrom s.q.slots s.cfg.capacity (occupancy s) s.q.r

/-- A view moved toward the real cursor by a draw: `(view + j) mod C` with `0 ≤ j ≤ (cursor − view) mod C`
(42_event_queue.md R179). -/
def moveView (c draw view cursor : Nat) : Nat := (view + min draw (gapTo c view cursor)) % c

/-- A side's watch at its next test: one test fewer while the cursor rests, the drawn patience when it has moved. Between
two tests of a side the other's cursor moves by fewer than `C` places, so a move shows in the index. -/
def watchAfter (patience cursor : Nat) (w : Watch) : Watch :=
  if w.cursor = cursor then ⟨cursor, w.left - 1⟩ else ⟨cursor, patience⟩

/-- The draw of a test: with no test left the whole way, which is less than `c` (42_event_queue.md R179, fairness). -/
def fairDraw (c draw : Nat) (w : Watch) : Nat := if w.left = 0 then c else draw

/-- `SlotWrite(q.w, e)` and then the advance of the write cursor (42_event_queue.md R171, 20_memory.md R72). -/
def pushSlot (e : ButtonEvent) (s : State) : Result State :=
  if s.q.w < s.q.slots.length then
    .next (s.withQueue { s.q with slots := s.q.slots.set s.q.w e, w := nextIndex s.cfg.capacity s.q.w })
  else .fault .noSuchSlot

/-- `SlotRead(q.r)` and then the advance of the read cursor (42_event_queue.md R173, 20_memory.md R72). -/
def popSlot (s : State) : Result (ButtonEvent × State) :=
  match s.q.slots[s.q.r]? with
  | some e => .next (e, s.withQueue { s.q with r := nextIndex s.cfg.capacity s.q.r })
  | none => .fault .noSuchSlot

/-- The oldest unread event is lost (42_event_queue.md R175). -/
def dropOldest (s : State) : State :=
  s.withQueue { s.q with r := nextIndex s.cfg.capacity s.q.r }

/-! ## Gray-coded publication of the cursors (42_event_queue.md R178) -/

/-- `gray(b) = b ^ (b >> 1)`. -/
def gray (b : Nat) : Nat := b ^^^ (b >>> 1)

/-- The receiving side's decoding of a code of `k` bits: bit `i` of the index is the XOR of the code's bits from `i`
up to `k − 1`. -/
def ungray : Nat → Nat → Nat
  | 0, _ => 0
  | k + 1, g => g ^^^ ungray k (g >>> 1)

/-- The write cursor as it is published to the consumer. -/
def publishedW (s : State) : Nat := gray s.q.w

/-- The read cursor as it is published to the producer. -/
def publishedR (s : State) : Nat := gray s.q.r

/-! ## The overflow halt and the way back -/

/-- `raise QueueOverflow()`: "does exactly this: `st.halted <- true`" (60_exceptions.md R251). -/
def raiseQueueOverflow (s : State) : State := { s with halted := true }

/-- `RESET` (70_reset_and_hazards.md R280), the only way out of the halt (60_exceptions.md R252). The slots take free
values; an update in progress is dropped (log entry 9); the parameters, the turns to come, what was sent and the
draws go on. -/
def resetBlock (s : State) : State :=
  { s with
    column := 0, bamStage := 0, tickPeriod := s.cfg.base
    fb := []
    deb := Vector.replicate 10 Debounce.reset
    q := ⟨s.cfg.freeSlots s.free.slots, 0, 0⟩
    rv := 0, wv := 0, rvWatch := ⟨0, 0⟩, wvWatch := ⟨0, 0⟩
    halted := false
    srFrame := none
    update := none
    free := { s.free with slots := s.free.slots + 1 } }

end Sys2Proof.Machine
end

