-- ==== Sys2Proof/Machine/Operands.lean ====
section
/-!
DEFINITION. How operand values are read: message fields, bounds checks, the cursor as a column, and the bytes of a
response.
-/

namespace Sys2Proof.Machine

/-- `isOn <- (b2 != 0x00)` (30_encoding.md R84). -/
def isOnByte (b : Byte) : Bool := b != 0

/-- The row a byte names, if it is below `ROWS = 6` (43_color.md R207). -/
def rowOfByte (b : Byte) : Option (Fin 6) := if h : b.toNat < 6 then some ⟨b.toNat, h⟩ else none

/-- The column a byte names, if it is below `COLUMNS = 10` (43_color.md R207). -/
def columnOfByte (b : Byte) : Option (Fin 10) := if h : b.toNat < 10 then some ⟨b.toNat, h⟩ else none

/-- The column the cursor register holds, if it is legal (10_state.md R21). -/
def cursorColumn (s : State) : Option (Fin 10) :=
  if h : s.column.toNat < 10 then some ⟨s.column.toNat, h⟩ else none

/-- The column as the 4-bit register holds it. -/
def columnReg (c : Fin 10) : BitVec 4 := BitVec.ofNat 4 c.val

/-- `(c + 1) mod 10` (40_sequencer.md R111). -/
def columnAfter (c : Fin 10) : Fin 10 := ⟨(c.val + 1) % 10, Nat.mod_lt _ (by decide)⟩

/-- `(c + 9) mod 10`, the column of the previous frame at a stage-0 tick (40_sequencer.md R117). -/
def columnBefore (c : Fin 10) : Fin 10 := ⟨(c.val + 9) % 10, Nat.mod_lt _ (by decide)⟩

/-- `bool_byte` (30_encoding.md R86). -/
def boolByte (b : Bool) : Byte := if b then 0x01 else 0x00

/-- An event as the three bytes of a response (44_poll.md R231). -/
def responseOf (e : ButtonEvent) : Response :=
  ⟨BitVec.ofNat 8 e.column.val, BitVec.ofNat 8 e.row.val, boolByte e.isPressed⟩

/-- The sentinel: no event available (30_encoding.md R85). -/
def sentinel : Response := ⟨0xFF, 0xFF, 0xFF⟩

/-- The column-select word of a column, the parameter `COLSEL` (30_encoding.md R90). -/
def colsel (s : State) (c : Fin 10) : BitVec 16 := s.cfg.colsel[c]

/-- The frame of stage `st` and column `c` (30_encoding.md R88, 40_sequencer.md R115). -/
def frameOf (s : State) (st : BitVec 2) (c : Fin 10) : Frame where
  red := ~~~(fbRead s st c .red)
  blue := ~~~(fbRead s st c .blue)
  green := ~~~(fbRead s st c .green)
  selHi := (colsel s c).extractLsb' 8 8
  selLo := (colsel s c).extractLsb' 0 8

/-- The rows, ascending (41_debounce.md R148). -/
def allRows : List (Fin 6) := [0, 1, 2, 3, 4, 5]

/-- The event `COMMIT` makes for row `r` of column `k` (41_debounce.md R146). -/
def eventFor (s : State) (k : Fin 10) (r : Fin 6) : ButtonEvent where
  column := k
  row := r
  isPressed := !(s.deb[k].last.getLsbD r.val)

/-- The stages, ascending (43_color.md R200). -/
def allStages : List (BitVec 2) := [0, 1, 2, 3]

/-- The twelve cells of a colour write, each bit cleared and set in one write (43_color.md R200). -/
def bamCells (row : Fin 6) (col : Fin 10) (v : Rgb) : List SubStep :=
  allStages.flatMap fun i => Channel.all.map fun ch => ⟨i, col, ch, row, (v.channel ch).getLsbD i.toNat⟩

/-- The sub-steps of a torn colour write: at each stage the three clears, then a set for each channel whose
intensity has the stage's bit set (20_memory.md R70). -/
def tornSteps (row : Fin 6) (col : Fin 10) (v : Rgb) : List SubStep :=
  allStages.flatMap fun i =>
    (Channel.all.map fun ch => ⟨i, col, ch, row, false⟩) ++
    ((Channel.all.filter fun ch => (v.channel ch).getLsbD i.toNat).map fun ch => ⟨i, col, ch, row, true⟩)

/-- The intensity the Frame Buffer holds for one LED and channel, stage 0 its least significant bit
(10_state.md R26). -/
def intensity (s : State) (row : Fin 6) (col : Fin 10) (ch : Channel) : BitVec 4 :=
  let bit (i : BitVec 2) : BitVec 1 := BitVec.ofBool ((fbRead s i col ch).getLsbD row.val)
  bit 3 ++ bit 2 ++ bit 1 ++ bit 0

end Sys2Proof.Machine
end

