-- ==== Sys2Proof/Machine/Flags.lean ====
section
/-!
DEFINITION. The conditions the block tests. It has no condition codes and no status flag but `halted`
(10_state.md R39); the conditions are the queue's full and empty tests (42_event_queue.md R170, R172).
-/

namespace Sys2Proof.Machine

/-- The producer looks at the read cursor: under `STALE_VIEW = true` its view moves by the next draw, and all the way when
its patience is at its end (42_event_queue.md R179). -/
def lookProducer (s : State) : State :=
  if s.cfg.staleView then
    let w := watchAfter (Config.rvPatience s.free.rv) s.q.r s.rvWatch
    s.withRv (moveView s.cfg.capacity (fairDraw s.cfg.capacity (Config.rvDraw s.free.rv) w) s.rv s.q.r) w
  else s

/-- The consumer looks at the write cursor, the same way. -/
def lookConsumer (s : State) : State :=
  if s.cfg.staleView then
    let w := watchAfter (Config.wvPatience s.free.wv) s.q.w s.wvWatch
    s.withWv (moveView s.cfg.capacity (fairDraw s.cfg.capacity (Config.wvDraw s.free.wv) w) s.wv s.q.w) w
  else s

/-- The read cursor as the producer sees it (42_event_queue.md R170). -/
def seenR (s : State) : Nat := if s.cfg.staleView then s.rv else s.q.r

/-- The write cursor as the consumer sees it (42_event_queue.md R172). -/
def seenW (s : State) : Nat := if s.cfg.staleView then s.wv else s.q.w

/-- Full: `(q.w + 1) mod C == rv` (42_event_queue.md R170). -/
def queueFull (s : State) : Bool := nextIndex s.cfg.capacity s.q.w == seenR s

/-- Empty: `wv == q.r` (42_event_queue.md R172). -/
def queueEmpty (s : State) : Bool := seenW s == s.q.r

/-- The operating modes (60_exceptions.md R261). -/
inductive Mode
  | run
  | halted
deriving DecidableEq, Repr

/-- The mode the block is in (60_exceptions.md R261). -/
def mode (s : State) : Mode := if s.halted then .halted else .run

end Sys2Proof.Machine
end

