-- ==== Sys2Proof/Machine/Color.lean ====
section
/-!
DEFINITION. The colour commands: BAM_ENCODE, SET_RGB, SET_COLOR and RX_IGNORED (43_color.md), and the sub-steps of a
torn update (20_memory.md R70).
-/

namespace Sys2Proof.Machine

/-- Do what is left of the colour update in progress: two updates never overlap (20_memory.md R71). While halted
nothing changes (log entry 9). -/
def finishUpdate (s : State) : State :=
  match s.update with
  | none => s
  | some u => if s.halted then s else (applySubSteps s u.steps).withUpdate none

/-- One sub-step of the colour update in progress (20_memory.md R70). While halted nothing changes (log entry 9). -/
def colorSubStep (s : State) : State :=
  if s.halted then s
  else
    match s.update with
    | none => s
    | some ⟨_, []⟩ => s.withUpdate none
    | some ⟨_, [p]⟩ => (applySubStep s p).withUpdate none
    | some ⟨a, p :: ps⟩ => (applySubStep s p).withUpdate (some ⟨a, ps⟩)

/-- `BAM_ENCODE` (43_color.md R200): atomic with `TEAR = false`; with `TEAR = true` the start of the sub-step sequence
of 20_memory.md R70. -/
def bamEncode (agent : Agent) (row : Fin 6) (col : Fin 10) (v : Rgb) (s : State) : State :=
  if s.cfg.tear then (finishUpdate s).withUpdate (some ⟨agent, tornSteps row col v⟩)
  else applySubSteps s (bamCells row col v)

/-- `SET_RGB` (43_color.md R201): nothing while halted (R209) or out of range (R207). -/
def setRgb (agent : Agent) (row col : Byte) (v : Rgb) (s : State) : State :=
  if s.halted then s
  else
    match rowOfByte row, columnOfByte col with
    | some r, some c => bamEncode agent r c v s
    | _, _ => s

/-- BAM_ENCODE as an instruction. -/
def execBamEncode (row : Fin 6) (col : Fin 10) (red green blue : BitVec 4) (s : State) : Result State :=
  .next (bamEncode .rawPort row col ⟨red, green, blue⟩ s)

/-- SET_RGB as an instruction, from the raw-colour port. -/
def execSetRgb (row col : Byte) (red green blue : BitVec 4) (s : State) : Result State :=
  .next (setRgb .rawPort row col ⟨red, green, blue⟩ s)

/-- `SET_COLOR` (43_color.md R202): off writes (0, 0, 0) and consults no table; on looks the index up, which shows on
the `ctIdx` port once (R210). -/
def setColor (b0 b1 b2 b3 : Byte) (s : State) : State :=
  if s.halted then s
  else
    match rowOfByte b0, columnOfByte b1 with
    | some _, some _ =>
      if isOnByte b2 then setRgb .hostBus b0 b1 (s.cfg.lookup b3) (s.send (.ctIdx b3))
      else setRgb .hostBus b0 b1 Rgb.off s
    | _, _ => s

/-- SET_COLOR as an instruction, from the host bus. -/
def execSetColor (b0 b1 b2 b3 : Byte) (s : State) : Result State := .next (setColor b0 b1 b2 b3 s)

/-- RX_IGNORED as an instruction: no state, no response, its bytes not examined (43_color.md R204). -/
def execRxIgnored (_bytes : List Byte) (s : State) : Result State := .next s

end Sys2Proof.Machine
end

