-- ==== Sys2Proof/Machine/Queue.lean ====
section
/-!
DEFINITION. The event queue: QUEUE_WRITE, QUEUE_READ and QUEUE_WRITE_DROP (42_event_queue.md).
-/

namespace Sys2Proof.Machine

/-- `QUEUE_WRITE(e) -> bool` (42_event_queue.md R171): false and nothing written when full. -/
def queueWrite (e : ButtonEvent) (s : State) : Result (Bool × State) :=
  let s := lookProducer s
  if queueFull s then .next (false, s)
  else andThen (pushSlot e s) fun t => .next (true, t)

/-- `QUEUE_READ -> (bool, Event)` (42_event_queue.md R173): no event and nothing written when empty. -/
def queueRead (s : State) : Result (Option ButtonEvent × State) :=
  let s := lookConsumer s
  if queueEmpty s then .next (none, s)
  else andThen (popSlot s) fun (e, t) => .next (some e, t)

/-- `QUEUE_WRITE_DROP(e)` (42_event_queue.md R175): when full, the oldest unread event makes room. Refused with stale
views. -/
def queueWriteDrop (e : ButtonEvent) (s : State) : Result State :=
  if s.cfg.staleView then .refused .dropOldestWithStaleView
  else pushSlot e (if nextIndex s.cfg.capacity s.q.w = s.q.r then dropOldest s else s)

/-- QUEUE_WRITE as an instruction. -/
def execQueueWrite (e : ButtonEvent) (s : State) : Result State :=
  andThen (queueWrite e s) fun (ok, t) => .next (t.withRet (.wrote ok))

/-- QUEUE_READ as an instruction. -/
def execQueueRead (s : State) : Result State :=
  andThen (queueRead s) fun (e, t) => .next (t.withRet (.read e))

/-- QUEUE_WRITE_DROP as an instruction. -/
def execQueueWriteDrop (e : ButtonEvent) (s : State) : Result State := queueWriteDrop e s

end Sys2Proof.Machine
end

