-- ==== Sys2Proof/Machine/Poll.lean ====
section
/-!
DEFINITION. The host's poll (44_poll.md).
-/

namespace Sys2Proof.Machine

/-- `POLL` (44_poll.md R230): exactly one read and one response (R234); while halted any three bytes and no read
(R233). -/
def execPoll (s : State) : Result State :=
  if s.halted then .next s.sendFreeResponse
  else
    andThen (queueRead s) fun (e, t) =>
      match e with
      | some e => .next (t.send (.pollResp (responseOf e)))
      | none => .next (t.send (.pollResp sentinel))

end Sys2Proof.Machine
end

