-- ==== Sys2Proof/Machine/Reset.lean ====
section
/-!
DEFINITION. The reset operation (70_reset_and_hazards.md).
-/

namespace Sys2Proof.Machine

/-- `RESET` (70_reset_and_hazards.md R280). -/
def execReset (s : State) : Result State := .next (resetBlock s)

end Sys2Proof.Machine
end

