-- ==== Sys2Proof/Machine/Debounce.lean ====
section
/-!
DEFINITION. The debounce state machine: DEBOUNCE_STEP, CONFIRM and COMMIT (41_debounce.md).
-/

namespace Sys2Proof.Machine

/-- `THRESHOLD = 2` (00_scope.md R7). -/
def threshold : BitVec 2 := 2

/-- One row of the loop of COMMIT (41_debounce.md R144): the row's event, if the row is in `pend`, goes into the queue.
Answers whether the commit goes on; a failed write under `halt` raises QueueOverflow and ends it (R149). -/
def commitRow (k : Fin 10) (r : Fin 6) (s : State) : Result (Bool × State) :=
  if s.deb[k].pend.getLsbD r.val then
    match s.cfg.overflowPolicy with
    | .halt =>
      andThen (queueWrite (eventFor s k r) s) fun (ok, t) =>
        .next (if ok then (true, t) else (false, raiseQueueOverflow t))
    | .dropOldest => andThen (queueWriteDrop (eventFor s k r) s) fun t => .next (true, t)
  else .next (true, s)

/-- The loop of COMMIT over the rows. -/
def commitRows (k : Fin 10) : List (Fin 6) → State → Result (Bool × State)
  | [], s => .next (true, s)
  | r :: rest, s =>
    andThen (commitRow k r s) fun (go, t) => if go then commitRows k rest t else .next (false, t)

/-- `COMMIT(k, d)` (41_debounce.md R144): `last` is written only when every event went in (R149). -/
def commit (k : Fin 10) (d : Byte) (s : State) : Result State :=
  andThen (commitRows k allRows s) fun (done, t) =>
    .next (if done then t.withDeb k { t.deb[k] with last := d } else t)

/-- The increment of CONFIRM, below `THRESHOLD` (41_debounce.md R142). -/
def bumpCounter (k : Fin 10) (s : State) : State :=
  if s.deb[k].cnt < threshold then s.withDeb k { s.deb[k] with cnt := s.deb[k].cnt + 1 } else s

/-- `CONFIRM(k, d)` under each reading of the commit test (41_debounce.md R143). -/
def confirm (k : Fin 10) (d : Byte) (s : State) : Result State :=
  match s.cfg.commitRule with
  | .checkAfterIncrement =>
    let t := bumpCounter k s
    if t.deb[k].cnt = threshold then commit k d t else .next t
  | .onIncrementOnly =>
    if s.deb[k].cnt < threshold then
      let t := bumpCounter k s
      if t.deb[k].cnt = threshold then commit k d t else .next t
    else .next s
  | .elseBranch =>
    if s.deb[k].cnt < threshold then .next (bumpCounter k s) else commit k d s

/-- `DEBOUNCE_STEP(k, d)` (41_debounce.md R140, R141). -/
def debounceStep (k : Fin 10) (d : Byte) (s : State) : Result State :=
  let regs := s.deb[k]
  if d = regs.last then .next (s.withDeb k { regs with cnt := 0 })
  else if d ^^^ regs.last ≠ regs.pend then
    .next (s.withDeb k { regs with cnt := 0, pend := d ^^^ regs.last })
  else confirm k d s

/-- COMMIT as an instruction. -/
def execCommit (k : Fin 10) (d : Byte) (s : State) : Result State := commit k d s

/-- CONFIRM as an instruction. -/
def execConfirm (k : Fin 10) (d : Byte) (s : State) : Result State := confirm k d s

/-- DEBOUNCE_STEP as an instruction. -/
def execDebounceStep (k : Fin 10) (d : Byte) (s : State) : Result State := debounceStep k d s

end Sys2Proof.Machine
end

