-- ==== Sys2Proof/Machine/Sequencer.lean ====
section
/-!
DEFINITION. The Multiplex Scheduler: ADVANCE, EMIT_FRAME and TICK (40_sequencer.md).
-/

namespace Sys2Proof.Machine

/-- The column after a tick from column `c` (40_sequencer.md R111). -/
def newColumn (c : Fin 10) (s : State) : Fin 10 := if s.bamStage = 3 then columnAfter c else c

/-- The stage after a tick (40_sequencer.md R111). -/
def newStage (s : State) : BitVec 2 := if s.bamStage = 3 then 0 else s.bamStage + 1

/-- The tick period after a tick: `BASE`, or the old one doubled within `W_T` bits (40_sequencer.md R111, R113). -/
def newPeriod (s : State) : Nat :=
  if s.bamStage = 3 then s.cfg.base else (s.tickPeriod <<< 1) % 2 ^ s.cfg.widthT

/-- `ADVANCE` from column `c` (40_sequencer.md R111). -/
def advance (c : Fin 10) (s : State) : State :=
  s.withCursor (columnReg (newColumn c s)) (newStage s) (newPeriod s)

/-- `EMIT_FRAME(s, c)` (40_sequencer.md R116): the frame goes out and is the last frame sent. -/
def emitFrame (st : BitVec 2) (c : Fin 10) (s : State) : State := s.sendFrame (frameOf s st c)

/-- The body of a tick from column `c` (40_sequencer.md R110): advance, send the new cursor's frame, and at stage 0
debounce the column before the new one with the byte that came back (R117). -/
def tickFrom (c : Fin 10) (dataIn : Byte) (s : State) : Result State :=
  let c' := newColumn c s
  let st' := newStage s
  let t := emitFrame st' c' (advance c s)
  if st' = 0 then debounceStep (columnBefore c') dataIn t else .next t

/-- ADVANCE as an instruction. -/
def execAdvance (s : State) : Result State :=
  match cursorColumn s with
  | some c => .next (advance c s)
  | none => .refused .illegalColumn

/-- EMIT_FRAME as an instruction, returning `dataIn`. -/
def execEmitFrame (st : BitVec 2) (c : Fin 10) (dataIn : Byte) (s : State) : Result State :=
  .next ((emitFrame st c s).withRet (.dataIn dataIn))

/-- `TICK` (40_sequencer.md R110): nothing while halted (R118). -/
def execTick (dataIn : Byte) (s : State) : Result State :=
  if s.halted then .next s
  else
    match cursorColumn s with
    | some c => tickFrom c dataIn s
    | none => .refused .illegalColumn

end Sys2Proof.Machine
end

