-- ==== Sys2Proof/Machine/Dispatch.lean ====
section
/-!
DEFINITION. One arm per operation, each a call of its meaning.
-/

namespace Sys2Proof.Machine

def exec (i : Instr) (s : State) : Host.Outcome State Fault Refusal :=
  match i with
  | .setColor b0 b1 b2 b3 => Sys2Proof.Machine.execSetColor b0 b1 b2 b3 s
  | .rxIgnored bytes => Sys2Proof.Machine.execRxIgnored bytes s
  | .poll => Sys2Proof.Machine.execPoll s
  | .tick dataIn => Sys2Proof.Machine.execTick dataIn s
  | .setRgb row col red green blue => Sys2Proof.Machine.execSetRgb row col red green blue s
  | .reset => Sys2Proof.Machine.execReset s
  | .advance => Sys2Proof.Machine.execAdvance s
  | .emitFrame st c dataIn => Sys2Proof.Machine.execEmitFrame st c dataIn s
  | .debounceStep k d => Sys2Proof.Machine.execDebounceStep k d s
  | .confirm k d => Sys2Proof.Machine.execConfirm k d s
  | .commit k d => Sys2Proof.Machine.execCommit k d s
  | .queueWrite e => Sys2Proof.Machine.execQueueWrite e s
  | .queueRead => Sys2Proof.Machine.execQueueRead s
  | .queueWriteDrop e => Sys2Proof.Machine.execQueueWriteDrop e s
  | .bamEncode row col red green blue => Sys2Proof.Machine.execBamEncode row col red green blue s

end Sys2Proof.Machine
end

