-- ==== Sys2Proof/WellFormed.lean ====
section
/-!
DEFINITION. Which terms of Instr are operations of the block, and which of them a port can start. The ranges of
columns, rows, stages and intensities are in the operands' types, so one check is left: the length of an ignored
receive transaction.
-/

namespace Sys2Proof

/-- A receive transaction is `RX_IGNORED` only at a length other than 4 (30_encoding.md R81). -/
def Instr.wf : Instr → Bool
  | .rxIgnored bytes => bytes.length != 4
  | .setColor .. => true
  | .poll => true
  | .tick _ => true
  | .setRgb .. => true
  | .reset => true
  | .advance => true
  | .emitFrame .. => true
  | .debounceStep .. => true
  | .confirm .. => true
  | .commit .. => true
  | .queueWrite _ => true
  | .queueRead => true
  | .queueWriteDrop _ => true
  | .bamEncode .. => true

/-- Whether a port event can start the operation, or it is an internal micro-operation (00_scope.md R2). -/
def Instr.fromPort : Instr → Bool
  | .setColor .. => true
  | .rxIgnored _ => true
  | .poll => true
  | .tick _ => true
  | .setRgb .. => true
  | .reset => true
  | .advance => false
  | .emitFrame .. => false
  | .debounceStep .. => false
  | .confirm .. => false
  | .commit .. => false
  | .queueWrite _ => false
  | .queueRead => false
  | .queueWriteDrop _ => false
  | .bamEncode .. => false

end Sys2Proof
end

