-- ==== Sys2Proof/Decode.lean ====
section
/-!
DEFINITION. The decoder from port events to operations (30_encoding.md R81), total: no event is rejected, since the
block has no illegal encoding (R93). After it the encoder. A receive transaction is also read as one number whose
high byte is the first byte received (R92).
-/

namespace Sys2Proof

/-- A host receive transaction: its length alone selects the operation (30_encoding.md R81, R82). -/
def decodeRx : List Byte → Instr
  | [b0, b1, b2, b3] => .setColor b0 b1 b2 b3
  | bytes => .rxIgnored bytes

/-- Every event decodes to exactly one operation (30_encoding.md R81). -/
def decodeEvent : PortEvent → Instr
  | .tick d => .tick d
  | .rx bytes => decodeRx bytes
  | .pollReq => .poll
  | .setRgb row col r g b => .setRgb row col r g b
  | .reset => .reset

/-- The `n` bytes of a received word, the first byte received in the highest position (30_encoding.md R92). -/
def bytesOfWord : Nat → Nat → List Byte
  | 0, _ => []
  | n + 1, w => BitVec.ofNat 8 (w >>> (8 * n)) :: bytesOfWord n w

/-- What the decoder reads from a receive transaction of `nbits` bits (30_encoding.md R92). Half a byte is no
transaction (log entry 17). -/
def decodeTableWord (nbits w : Nat) : Option Instr :=
  if nbits % 8 = 0 then some (decodeEvent (.rx (bytesOfWord (nbits / 8) w))) else none

/-- The event that starts an operation; none for an internal micro-operation, which "is not reachable from a port"
(opcode_table.json). -/
def encode : Instr → Option PortEvent
  | .setColor b0 b1 b2 b3 => some (.rx [b0, b1, b2, b3])
  | .rxIgnored bytes => some (.rx bytes)
  | .poll => some .pollReq
  | .tick d => some (.tick d)
  | .setRgb row col r g b => some (.setRgb row col r g b)
  | .reset => some .reset
  | .advance => none
  | .emitFrame .. => none
  | .debounceStep .. => none
  | .confirm .. => none
  | .commit .. => none
  | .queueWrite _ => none
  | .queueRead => none
  | .queueWriteDrop _ => none
  | .bamEncode .. => none

/-- The word of a receive transaction, its first byte highest (30_encoding.md R92). -/
def wordOfBytes : List Byte → Nat
  | [] => 0
  | b :: rest => b.toNat <<< (8 * rest.length) + wordOfBytes rest

/-- The word of an operation that a receive transaction starts: its width in bits and its value. -/
def encodeWord (i : Instr) : Option (Nat × Nat) :=
  match encode i with
  | some (.rx bytes) => some (8 * bytes.length, wordOfBytes bytes)
  | _ => none

end Sys2Proof
end

