-- ==== Sys2Proof/Machine/Inputs.lean ====
section
/-!
DEFINITION. How the block takes its turns (20_memory.md R71): the next turn of the list, and what the arrival of an
event means for a colour update in progress. Also the notation of 30_encoding.md R94 for sequences of events.
-/

namespace Sys2Proof.Machine

/-- Two operations of one agent never overlap (20_memory.md R71): when an agent's next event is taken, the colour
update it started is finished first. Only under `TEAR = true` is there one. -/
def settle (e : PortEvent) (s : State) : State :=
  match s.update with
  | none => s
  | some u => if u.agent = e.agent then finishUpdate s else s

/-- The state in which the operation of the event at the head of the turns runs: the event is taken, the same agent's
earlier update is complete. -/
def arrive (e : PortEvent) (rest : List Turn) (s : State) : State := settle e (s.withInputs rest)

/-- The state with a receive transaction of `nbits` bits as the next turn (log entry 4), and no update under way that
its arrival would finish. -/
def placeWord (s : State) (nbits w : Nat) : State :=
  (s.withUpdate none).withInputs (.event (.rx (bytesOfWord (nbits / 8) w)) :: s.inputs)

/-- `SETC row, col, idx` (30_encoding.md R94). -/
def setc (row col idx : Byte) : PortEvent := .rx [row, col, 0x01, idx]

/-- `OFF row, col` (30_encoding.md R94). -/
def offCell (row col : Byte) : PortEvent := .rx [row, col, 0x00, 0x00]

/-- The place of the cursor in the scan of 40 ticks. -/
def scanPlace (s : State) : Nat := s.column.toNat * 4 + s.bamStage.toNat

/-- How many ticks `SCAN k, d` takes: up to the next one whose new cursor is `(stage 0, column (k + 1) mod 10)`. -/
def scanLength (s : State) (k : Fin 10) : Nat :=
  (((k.val + 1) % 10) * 4 + 40 - scanPlace s - 1) % 40 + 1

/-- The byte the `i`-th tick of `SCAN` returns before its last: the `last` of the column it debounces, if its new stage
is 0. -/
def scanByte (s : State) (i : Nat) : Byte :=
  let p := (scanPlace s + i) % 40
  if p % 4 = 0 then s.deb[(⟨(p / 4 + 9) % 10, Nat.mod_lt _ (by decide)⟩ : Fin 10)].last else 0

/-- `SCAN k, d` (30_encoding.md R94), from the state it starts in. -/
def scan (s : State) (k : Fin 10) (d : Byte) : List PortEvent :=
  ((List.range (scanLength s k - 1)).map fun i => PortEvent.tick (scanByte s (i + 1))) ++ [.tick d]

end Sys2Proof.Machine
end

