-- ==== Sys2Proof/Machine/Step.lean ====
section
/-!
DEFINITION. One step: the next turn. With no turn left the block is idle (60_exceptions.md R262), but for a colour
update still in progress, which goes on.
-/

namespace Sys2Proof.Machine

def step (s : State) : Host.Outcome State Fault Refusal :=
  match s.inputs with
  | [] => .next (colorSubStep s)
  | .colorSubStep :: rest => .next (colorSubStep (s.withInputs rest))
  | .event e :: rest => exec (decodeEvent e) (arrive e rest s)

/-- The state whose next step runs the operation a received word decodes to. -/
def State.withFetchWord (s : State) (nbits w : Nat) : State := placeWord s nbits w

end Sys2Proof.Machine
end

