-- ==== Sys2Proof/Machine/Display.lean ====
section
/-!
DEFINITION. The level outputs (30_encoding.md R80) and what the LEDs show (40_sequencer.md R121).
-/

namespace Sys2Proof.Machine

/-- The `tickPeriod` output. -/
def tickPeriodOut (s : State) : Nat := s.tickPeriod

/-- The `halted` output (10_state.md R35). -/
def haltedOut (s : State) : Bool := s.halted

/-- Whether an LED is on, from the last latched frame: its column is the selected one and its bit of the channel byte
is 0 (40_sequencer.md R121, 30_encoding.md R89). Before the first frame the spec says nothing (10_state.md R36). -/
def ledOn (s : State) (row : Fin 6) (col : Fin 10) (ch : Channel) : Option Bool :=
  s.srFrame.map fun f => f.select == colsel s col && !((f.channel ch).getLsbD row.val)

end Sys2Proof.Machine
end

