-- ==== Sys2Proof/Safety.lean ====
section
/-!
DEFINITION. The invariant of the block's states and the terms the statements are written in.
-/

namespace Sys2Proof.Machine

/-- Bits 6 and 7 of every Frame Buffer cell are 0 (10_state.md R25): an unlisted cell reads 0. -/
abbrev FbRowsOnly (m : Memory) : Prop := ∀ p ∈ m, p.2.toNat < 64

/-- A frame the block can send: bits 6 and 7 of its channel bytes are 1 (30_encoding.md R89) and its last two bytes
select one column (R90). -/
abbrev FrameLegal (s : State) (f : Frame) : Prop :=
  (∀ ch : Channel, (f.channel ch).getLsbD 6 = true ∧ (f.channel ch).getLsbD 7 = true) ∧
  ∃ c : Fin 10, f.select = colsel s c

/-- Where the stale views of 42_event_queue.md R179 can be: indices of the queue; the producer's view has not passed
`q.r` and is not overtaken by `q.w`; the consumer's view lies between `q.r` and `q.w`. -/
abbrev ViewsLegal (s : State) : Prop :=
  s.rv < s.cfg.capacity ∧ s.wv < s.cfg.capacity ∧
  gapTo s.cfg.capacity s.rv s.q.r + occupancy s < s.cfg.capacity ∧
  gapTo s.cfg.capacity s.wv s.q.w ≤ occupancy s

/-- The invariant of the block: legal parameters, legal cursor (10_state.md R21), the tick period of the stage (R23),
the Frame Buffer in canonical form with rows 0..5 only (R25), counters of 0..THRESHOLD (R29), a queue of `C` slots
with cursors inside it (R33), legal views, a legal last frame, and no update in progress without `TEAR`. -/
structure BlockInv (s : State) : Prop where
  cfgWf      : s.cfg.Wf
  column     : s.column.toNat < 10
  period     : s.tickPeriod = s.cfg.base <<< s.bamStage.toNat
  fbWf       : Memory.wf s.fb = true
  fbRows     : FbRowsOnly s.fb
  counters   : ∀ k : Fin 10, s.deb[k].cnt.toNat ≤ 2
  slotCount  : s.q.slots.length = s.cfg.capacity
  writeIndex : s.q.w < s.cfg.capacity
  readIndex  : s.q.r < s.cfg.capacity
  views      : s.cfg.staleView = true → ViewsLegal s
  frame      : ∀ f, s.srFrame = some f → FrameLegal s f
  noUpdate   : s.cfg.tear = false → s.update = none

/-- The events a commit makes for column `k`, in the order it writes them (41_debounce.md R144, R148). -/
def commitEvents (s : State) (k : Fin 10) : List ButtonEvent :=
  (allRows.filter fun r => s.deb[k].pend.getLsbD r.val).map (eventFor s k)

/-- How many more events the queue takes (42_event_queue.md R174). -/
def room (s : State) : Nat := s.cfg.capacity - 1 - occupancy s

/-- One LED was written and nothing else in the machine (43_color.md R200, R205, R208): bit `row` of the twelve cells of
column `col` holds, stage by stage, the bits of the intensities, and every other bit of every cell is as before. -/
def LedWritten (s t : State) (row : Fin 6) (col : Fin 10) (v : Rgb) : Prop :=
  t = { s with fb := t.fb } ∧
  (∀ ch, intensity t row col ch = v.channel ch) ∧
  ∀ (st : BitVec 2) (c : Fin 10) (ch : Channel) (j : Nat), ¬ (c = col ∧ j = row.val) →
    (fbRead t st c ch).getLsbD j = (fbRead s st c ch).getLsbD j

/-- The Frame Buffer once the colour update under way, if there is one, is brought to its end (20_memory.md R70). -/
def settledFb (s : State) : Memory :=
  match s.update with
  | none => s.fb
  | some u => (applySubSteps s u.steps).fb

/-- The operations of a list, one after the other. -/
def execAll : List Instr → State → Result State
  | [], s => .next s
  | i :: rest, s => andThen (exec i s) (execAll rest)

/-- The operations of a list, with what each returned. -/
def execResults : List Instr → State → Result (List MicroResult × State)
  | [], s => .next ([], s)
  | i :: rest, s =>
    andThen (exec i s) fun t => andThen (execResults rest t) fun (rs, u) => .next (t.ret :: rs, u)

/-- The turns of a list of tick events. -/
def tickTurns (dins : List Byte) : List Turn := dins.map fun d => .event (.tick d)

end Sys2Proof.Machine
end

