-- ==== Sys2Proof/Certificates/Slice0/Obligations.lean ====
section
/-!
DEFINITION. The statements about the model, in the terms of the spec's rules. A premise `BlockInv s` is the invariant of
Sys2Proof/Safety.lean, itself stated to be kept. Free values (Config.haltedResponse, Config.slotAfterReset, Config.rvDraw,
Config.wvDraw, Config.rvPatience, Config.wvPatience) stand in statements only as themselves: nothing rests on what they are.
-/

open Sys2Proof Sys2Proof.Machine

/-! ## The invariant, completion and the parameters -/

/-- The reset state meets the invariant (10_state.md R20 to R33, the reset column). -/
def Obligations.ResetSatisfiesInvariant : Prop := BlockInv State.reset

/-- Every operation, the internal ones too, keeps the invariant: legal cursor (10_state.md R21), tick period of the
stage (R23), canonical Frame Buffer with rows 0..5 only (R25), counters within THRESHOLD (R29), cursors in the queue
(R33), legal views (42_event_queue.md R179), legal frame (30_encoding.md R89, R90). -/
def Obligations.OperationKeepsInvariant : Prop :=
  ∀ (i : Instr) (s t : State), BlockInv s → exec i s = .next t → BlockInv t

/-- Every step keeps the invariant, sub-steps of torn updates included. -/
def Obligations.StepKeepsInvariant : Prop := ∀ s t : State, BlockInv s → step s = .next t → BlockInv t

/-- From the invariant every operation answers a next state, but QUEUE_WRITE_DROP with stale views, which the spec has a
model refuse (42_event_queue.md R175). -/
def Obligations.EveryOperationCompletes : Prop :=
  ∀ (i : Instr) (s : State), BlockInv s → (∀ e, i = .queueWriteDrop e → s.cfg.staleView = false) →
    ∃ t, exec i s = .next t

/-- From the invariant no step stops: whatever turn comes next, there is a next state, and again one from there
(60_exceptions.md R255, R256). -/
def Obligations.NoTurnStopsTheBlock : Prop :=
  ∀ s : State, BlockInv s → ∀ n : Nat, ∃ t, Host.Core.run Sys2Proof.core n s = .next t ∧ BlockInv t

/-- No step changes a parameter (10_state.md R40). -/
def Obligations.StepKeepsParameters : Prop := ∀ s t : State, step s = .next t → t.cfg = s.cfg

/-! ## Encoding -/

/-- The word of a receive transaction fits its bits and decodes to the operation it was made from, for every byte
string of every length (30_encoding.md R92). -/
def Obligations.WordDecodesToEncodedOperation : Prop :=
  ∀ (i : Instr) (nbits w : Nat), i.wf = true → encodeWord i = some (nbits, w) →
    w < 2 ^ nbits ∧ decodeTableWord nbits w = some i

/-- An operation is encoded exactly if a port can start it, its event decodes to it, and the event of what an event
decodes to is that event (30_encoding.md R81: every event decodes to exactly one operation). -/
def Obligations.EventsAndPortOperationsAgree : Prop :=
  (∀ i : Instr, i.wf = true → i.fromPort = true → ∃ e, encode i = some e ∧ decodeEvent e = i) ∧
  (∀ i : Instr, i.fromPort = false → encode i = none) ∧
  ∀ e : PortEvent, (decodeEvent e).wf = true ∧ encode (decodeEvent e) = some e

/-- The decoder's map of input events to operations (30_encoding.md R81). -/
def Obligations.DecoderMapsEveryEvent : Prop :=
  (∀ d, decodeEvent (.tick d) = .tick d) ∧
  (∀ b0 b1 b2 b3, decodeEvent (.rx [b0, b1, b2, b3]) = .setColor b0 b1 b2 b3) ∧
  (∀ bytes : List Byte, bytes.length ≠ 4 → decodeEvent (.rx bytes) = .rxIgnored bytes) ∧
  decodeEvent .pollReq = .poll ∧
  (∀ row col r g b, decodeEvent (.setRgb row col r g b) = .setRgb row col r g b) ∧
  decodeEvent .reset = .reset

/-- The fields of a 4-byte message read as a word: byte 0 in bits 31:24 down to byte 3 in bits 7:0
(30_encoding.md R83, R92). -/
def Obligations.FourByteWordFields : Prop :=
  ∀ w : BitVec 32, decodeTableWord 32 w.toNat =
    some (.setColor (w.extractLsb' 24 8) (w.extractLsb' 16 8) (w.extractLsb' 8 8) (w.extractLsb' 0 8))

/-- Words written out from the spec's examples (43_color.md R203, R204; 95_test_vectors.md P1). -/
def Obligations.SpecWordsDecode : Prop :=
  decodeTableWord 32 0x01020103 = some (.setColor 0x01 0x02 0x01 0x03) ∧
  decodeTableWord 32 0x00000107 = some (.setColor 0x00 0x00 0x01 0x07) ∧
  decodeTableWord 24 0x000001 = some (.rxIgnored [0x00, 0x00, 0x01]) ∧
  decodeTableWord 40 0x0000010700 = some (.rxIgnored [0x00, 0x00, 0x01, 0x07, 0x00]) ∧
  decodeTableWord 0 0 = some (.rxIgnored [])

/-! ## Steps -/

/-- A step whose next turn is an event runs the operation it decodes to. The turn is taken; a colour update in progress
of another agent is left alone; one of the same agent is finished first, unless the block is halted (20_memory.md R71;
the clauses about an update under way are the model's choice, log entry 9). -/
def Obligations.StepRunsDecodedOperation : Prop :=
  ∀ (s : State) (e : PortEvent) (rest : List Turn), s.inputs = .event e :: rest →
    (s.update = none → step s = exec (decodeEvent e) { s with inputs := rest }) ∧
    (∀ u, s.update = some u → u.agent ≠ e.agent ∨ s.halted = true →
      step s = exec (decodeEvent e) { s with inputs := rest }) ∧
    (∀ u, s.update = some u → u.agent = e.agent → s.halted = false →
      step s = exec (decodeEvent e)
        { s with inputs := rest, fb := (applySubSteps s u.steps).fb, update := none })

/-- With no turn left and no update in progress a step changes nothing (60_exceptions.md R262). -/
def Obligations.IdleStepKeepsState : Prop :=
  ∀ s : State, s.inputs = [] → s.update = none → step s = .next s

/-- A sub-step turn does exactly the first sub-step left, clearing or setting one row's bit of one cell
(20_memory.md R70); while halted it does nothing (the model's choice, log entry 9). -/
def Obligations.SubStepTurnWritesOneBit : Prop :=
  ∀ (s : State) (rest : List Turn) (a : Agent) (p : SubStep) (ps : List SubStep),
    s.inputs = .colorSubStep :: rest → s.update = some ⟨a, p :: ps⟩ →
    (s.halted = true → step s = .next { s with inputs := rest }) ∧
    (s.halted = false → Memory.wf s.fb = true →
      ∃ t, step s = .next t ∧
        t = { s with inputs := rest, fb := t.fb, update := if ps = [] then none else some ⟨a, ps⟩ } ∧
        ∀ st c ch j, (fbRead t st c ch).getLsbD j =
          if p.stage = st ∧ p.col = c ∧ p.ch = ch ∧ p.row.val = j then p.on else (fbRead s st c ch).getLsbD j)

/-! ## The sequencer -/

/-- ADVANCE (40_sequencer.md R111): within a column the stage goes on and the period doubles in `W_T` bits; past stage 3
the next column starts at stage 0 with `BASE`, column 9 going to column 0. Nothing else changes. -/
def Obligations.AdvanceMovesCursor : Prop :=
  ∀ s : State, s.column.toNat < 10 →
    (s.bamStage ≠ 3 → exec .advance s =
      .next { s with bamStage := s.bamStage + 1, tickPeriod := (2 * s.tickPeriod) % 2 ^ s.cfg.widthT }) ∧
    (s.bamStage = 3 → exec .advance s =
      .next { s with
        column := if s.column = 9 then 0 else s.column + 1, bamStage := 0, tickPeriod := s.cfg.base })

/-- EMIT_FRAME (40_sequencer.md R115, R116): the five bytes go out in the order RED, BLUE, GREEN, select high, select low,
each channel byte inverted; they are the last frame sent; the byte that came back is returned. -/
def Obligations.EmitFrameSendsFrame : Prop :=
  ∀ (s : State) (st : BitVec 2) (c : Fin 10) (d : Byte),
    ∃ f : Frame, exec (.emitFrame st c d) s =
        .next { s with srFrame := some f, out := .frame f :: s.out, ret := .dataIn d } ∧
      f.bytes = [fbRead s st c .red ^^^ 0xFF, fbRead s st c .blue ^^^ 0xFF, fbRead s st c .green ^^^ 0xFF,
        (s.cfg.colsel[c] >>> 8).setWidth 8, s.cfg.colsel[c].setWidth 8]

/-- A tick while halted changes nothing and sends nothing; the LEDs keep the last latched frame (40_sequencer.md R118,
decision D12). -/
def Obligations.HaltedTickDoesNothing : Prop :=
  ∀ (d : Byte) (s : State), s.halted = true → exec (.tick d) s = .next s

/-- A tick within a column (40_sequencer.md R110, R111, R115): the stage goes on, the period doubles, the new stage's frame
goes out, and the byte that came back is discarded whatever it is. -/
def Obligations.TickWithinColumn : Prop :=
  ∀ (d : Byte) (s : State) (c : Fin 10), s.halted = false → s.column.toNat = c.val → s.bamStage ≠ 3 →
    ∃ f : Frame, exec (.tick d) s =
        .next { s with
          bamStage := s.bamStage + 1, tickPeriod := (2 * s.tickPeriod) % 2 ^ s.cfg.widthT,
          srFrame := some f, out := .frame f :: s.out } ∧
      f.bytes = [fbRead s (s.bamStage + 1) c .red ^^^ 0xFF, fbRead s (s.bamStage + 1) c .blue ^^^ 0xFF,
        fbRead s (s.bamStage + 1) c .green ^^^ 0xFF, (s.cfg.colsel[c] >>> 8).setWidth 8, s.cfg.colsel[c].setWidth 8]

/-- A tick past stage 3 (40_sequencer.md R110, R117): the next column's stage-0 frame goes out and the byte that came back
is a debounce sample of the column before, `(c + 9) mod 10` for the new column `c`. -/
def Obligations.TickToNextColumn : Prop :=
  ∀ (d : Byte) (s : State) (c k : Fin 10), s.halted = false → s.bamStage = 3 →
    c.val = (s.column.toNat + 1) % 10 → k.val = (c.val + 9) % 10 → s.column.toNat < 10 →
    ∃ f : Frame, exec (.tick d) s =
        exec (.debounceStep k d) { s with
          column := BitVec.ofNat 4 c.val, bamStage := 0, tickPeriod := s.cfg.base,
          srFrame := some f, out := .frame f :: s.out } ∧
      f.bytes = [fbRead s 0 c .red ^^^ 0xFF, fbRead s 0 c .blue ^^^ 0xFF, fbRead s 0 c .green ^^^ 0xFF,
        (s.cfg.colsel[c] >>> 8).setWidth 8, s.cfg.colsel[c].setWidth 8]

/-- After a tick whose new stage is `s` the period is `BASE << s` (40_sequencer.md R113). -/
def Obligations.TickPeriodIsBaseShiftedByStage : Prop :=
  ∀ (d : Byte) (s t : State), BlockInv s → s.halted = false → exec (.tick d) s = .next t →
    t.tickPeriod = s.cfg.base * 2 ^ t.bamStage.toNat ∧
    t.bamStage.toNat = (s.bamStage.toNat + 1) % 4

/-- The cursor after `n` ticks with no halt, from any place of the scan (40_sequencer.md R112): `n` places on, round the
scan of 40; from reset that is `bamStage = n mod 4` and `column = (n div 4) mod 10`. -/
def Obligations.CursorAfterTicks : Prop :=
  (∀ (s t : State) (dins : List Byte), BlockInv s → s.inputs = tickTurns dins →
    Host.Core.run Sys2Proof.core dins.length s = .next t → t.halted = false →
    scanPlace t = (scanPlace s + dins.length) % 40 ∧
    t.tickPeriod = s.cfg.base <<< t.bamStage.toNat) ∧
  (∀ (t : State) (dins : List Byte),
    Host.Core.run Sys2Proof.core dins.length { State.reset with inputs := tickTurns dins } = .next t →
    t.halted = false →
    t.bamStage.toNat = dins.length % 4 ∧ t.column.toNat = (dins.length / 4) % 10 ∧
    t.tickPeriod = State.reset.cfg.base <<< (dins.length % 4))

/-- The frame of TICK (40_sequencer.md R110, R114; 41_debounce.md R155): it never writes the Frame Buffer, the parameters,
the consumer's side of the queue under `halt`, an update in progress, the turns to come or a micro-operation's
result; it sends one frame or, halted, nothing; debounce registers, queue and `halted` change only when it leaves
stage 3, and then only the registers of the column it leaves. -/
def Obligations.TickFrame : Prop :=
  ∀ (d : Byte) (s t : State), exec (.tick d) s = .next t →
    t.fb = s.fb ∧ t.cfg = s.cfg ∧ t.wv = s.wv ∧ t.wvWatch = s.wvWatch ∧ t.update = s.update ∧ t.inputs = s.inputs ∧
    t.ret = s.ret ∧
    (s.cfg.overflowPolicy = .halt → t.q.r = s.q.r) ∧
    t.free.slots = s.free.slots ∧ t.free.polls = s.free.polls ∧ t.free.wv = s.free.wv ∧
    (s.halted = false → ∃ f, t.srFrame = some f ∧ t.out = .frame f :: s.out) ∧
    (s.halted = true → t = s) ∧
    (s.bamStage ≠ 3 → t.deb = s.deb ∧ t.q = s.q ∧ t.halted = s.halted ∧ t.rv = s.rv ∧ t.rvWatch = s.rvWatch ∧
      t.free = s.free) ∧
    ∀ j : Fin 10, j.val ≠ s.column.toNat → t.deb[j] = s.deb[j]

/-- What the LEDs show between two ticks (40_sequencer.md R121): the LED of a channel at a row of the new column is on
exactly when the cell the tick read has its bit, and every LED of every other column is off. -/
def Obligations.LedsShowTheNewColumn : Prop :=
  ∀ (d : Byte) (s t : State) (row : Fin 6) (col : Fin 10) (ch : Channel),
    BlockInv s → s.halted = false → exec (.tick d) s = .next t →
    ledOn t row col ch =
      some (decide (t.column.toNat = col.val) && (fbRead s t.bamStage col ch).getLsbD row.val)

/-! ## Debounce -/

/-- The three cases of a sample (41_debounce.md R140, R141): equal to `last`, only the counter is cleared and `pend` stays;
a new candidate is recorded and clears the counter; the same candidate goes to CONFIRM. -/
def Obligations.SampleHasThreeCases : Prop :=
  ∀ (k : Fin 10) (d : Byte) (s : State),
    (d = s.deb[k].last → exec (.debounceStep k d) s =
      .next { s with deb := s.deb.set k ⟨s.deb[k].last, s.deb[k].pend, 0⟩ }) ∧
    (d ≠ s.deb[k].last → s.deb[k].last ^^^ d ≠ s.deb[k].pend → exec (.debounceStep k d) s =
      .next { s with deb := s.deb.set k ⟨s.deb[k].last, s.deb[k].last ^^^ d, 0⟩ }) ∧
    (d ≠ s.deb[k].last → s.deb[k].last ^^^ d = s.deb[k].pend →
      exec (.debounceStep k d) s = exec (.confirm k d) s)

/-- CONFIRM under each reading of the commit test (41_debounce.md R142, R143), for every value of the counter. -/
def Obligations.ConfirmFollowsCommitRule : Prop :=
  ∀ (k : Fin 10) (d : Byte) (s : State),
    (s.deb[k].cnt = 0 → exec (.confirm k d) s =
      .next { s with deb := s.deb.set k ⟨s.deb[k].last, s.deb[k].pend, 1⟩ }) ∧
    (s.deb[k].cnt = 1 → s.cfg.commitRule = .elseBranch → exec (.confirm k d) s =
      .next { s with deb := s.deb.set k ⟨s.deb[k].last, s.deb[k].pend, 2⟩ }) ∧
    (s.deb[k].cnt = 1 → s.cfg.commitRule ≠ .elseBranch → exec (.confirm k d) s =
      exec (.commit k d) { s with deb := s.deb.set k ⟨s.deb[k].last, s.deb[k].pend, 2⟩ }) ∧
    (s.deb[k].cnt = 2 → s.cfg.commitRule ≠ .onIncrementOnly → exec (.confirm k d) s = exec (.commit k d) s) ∧
    (s.deb[k].cnt = 2 → s.cfg.commitRule = .onIncrementOnly → exec (.confirm k d) s = .next s) ∧
    (s.deb[k].cnt = 3 → s.cfg.commitRule = .elseBranch → exec (.confirm k d) s = exec (.commit k d) s) ∧
    (s.deb[k].cnt = 3 → s.cfg.commitRule ≠ .elseBranch → exec (.confirm k d) s = .next s)

/-- A commit with room in the queue (41_debounce.md R144 to R148), under `halt` with exact views: one event per changed row
of 0..5, ascending, with the column debounced and the direction of the change, goes to the back of the queue, then
`last` is the reading; slots it does not fill, `pend`, the counter and everything else stay. -/
def Obligations.CommitQueuesEveryChangedRow : Prop :=
  ∀ (k : Fin 10) (d : Byte) (s : State), BlockInv s → s.cfg.overflowPolicy = .halt → s.cfg.staleView = false →
    (commitEvents s k).length ≤ room s →
    ∃ q : Queue, exec (.commit k d) s =
        .next { s with q := q, deb := s.deb.set k ⟨d, s.deb[k].pend, s.deb[k].cnt⟩ } ∧
      unread { s with q := q } = unread s ++ commitEvents s k ∧ q.r = s.q.r ∧
      (∀ i, (commitEvents s k).length ≤ gapTo s.cfg.capacity s.q.w i → i < s.cfg.capacity →
        q.slots[i]? = s.q.slots[i]?) ∧
      (∀ e ∈ commitEvents s k, e.column = k ∧ e.isPressed = !(s.deb[k].last.getLsbD e.row.val)) ∧
      (commitEvents s k).Pairwise fun e e' => e.row < e'.row

/-- A commit without room (41_debounce.md R149, 60_exceptions.md R251), under `halt` with exact views: the events that fit
stay in the queue, the rest are lost, `halted` is set, and `last` and everything else stay. -/
def Obligations.CommitWithoutRoomHalts : Prop :=
  ∀ (k : Fin 10) (d : Byte) (s : State), BlockInv s → s.cfg.overflowPolicy = .halt → s.cfg.staleView = false →
    room s < (commitEvents s k).length →
    ∃ q : Queue, exec (.commit k d) s = .next { s with q := q, halted := true } ∧
      unread { s with q := q } = unread s ++ (commitEvents s k).take (room s) ∧ q.r = s.q.r

/-- A commit under `dropOldest` (42_event_queue.md R175): every event goes in, the newest `C − 1` of the old and new events
stay, nothing halts, and `last` is the reading. -/
def Obligations.CommitDropsOldestEvents : Prop :=
  ∀ (k : Fin 10) (d : Byte) (s : State), BlockInv s → s.cfg.overflowPolicy = .dropOldest →
    ∃ q : Queue, exec (.commit k d) s =
        .next { s with q := q, deb := s.deb.set k ⟨d, s.deb[k].pend, s.deb[k].cnt⟩ } ∧
      unread { s with q := q } =
        (unread s ++ commitEvents s k).drop
          ((unread s ++ commitEvents s k).length - (s.cfg.capacity - 1))

/-- A commit under `halt`, whatever the producer's view (70_reset_and_hazards.md R291): a first part of its events goes
in; either that is all of them and `last` is written, or the block halts and the debounce registers stay. -/
def Obligations.CommitUnderAnyViewQueuesFirstPart : Prop :=
  ∀ (k : Fin 10) (d : Byte) (s : State), BlockInv s → s.cfg.overflowPolicy = .halt →
    ∃ (t : State) (n : Nat), exec (.commit k d) s = .next t ∧ n ≤ (commitEvents s k).length ∧
      unread t = unread s ++ (commitEvents s k).take n ∧
      ((n = (commitEvents s k).length ∧ t.halted = s.halted ∧
          t.deb = s.deb.set k ⟨d, s.deb[k].pend, s.deb[k].cnt⟩) ∨
       (n < (commitEvents s k).length ∧ t.halted = true ∧ t.deb = s.deb))

/-- A sample of column `k` leaves the debounce registers of every other column, and of the rest of the machine all but
the queue, the producer's view with its draw and watch, and `halted` (41_debounce.md R155). CONFIRM and COMMIT likewise. -/
def Obligations.SampleTouchesOneColumn : Prop :=
  ∀ (i : Instr) (k : Fin 10) (d : Byte) (s t : State),
    i = .debounceStep k d ∨ i = .confirm k d ∨ i = .commit k d → exec i s = .next t →
    (∀ j : Fin 10, j ≠ k → t.deb[j] = s.deb[j]) ∧
    t = { s with
      deb := t.deb, q := t.q, rv := t.rv, rvWatch := t.rvWatch, halted := t.halted,
      free := { s.free with rv := t.free.rv } } ∧
    (s.cfg.overflowPolicy = .halt → t.q.r = s.q.r)

/-- A sample of column `k` does not read another column's registers (41_debounce.md R155): changing them changes nothing
else in what it does. -/
def Obligations.SampleReadsOneColumn : Prop :=
  ∀ (k j : Fin 10) (d : Byte) (x : Debounce) (s t : State), j ≠ k → exec (.debounceStep k d) s = .next t →
    exec (.debounceStep k d) { s with deb := s.deb.set j x } = .next { t with deb := t.deb.set j x }

/-- A change whose set is not in `pend`, held for consecutive samples (41_debounce.md R150): the third sample commits, the
fourth under `elseBranch`, with `pend` the change set and the counter at THRESHOLD. -/
def Obligations.FreshChangeSamplesToCommit : Prop :=
  ∀ (k : Fin 10) (d : Byte) (s : State), d ≠ s.deb[k].last → s.deb[k].pend ≠ d ^^^ s.deb[k].last →
    execAll (List.replicate (if s.cfg.commitRule = .elseBranch then 4 else 3) (.debounceStep k d)) s =
      exec (.commit k d) { s with deb := s.deb.set k ⟨s.deb[k].last, d ^^^ s.deb[k].last, 2⟩ }

/-- A change whose set is already in `pend`, from a cleared counter (41_debounce.md R156): one sample fewer. -/
def Obligations.PendingChangeSamplesToCommit : Prop :=
  ∀ (k : Fin 10) (d : Byte) (s : State), d ≠ s.deb[k].last → s.deb[k].pend = d ^^^ s.deb[k].last →
    s.deb[k].cnt = 0 →
    execAll (List.replicate (if s.cfg.commitRule = .elseBranch then 3 else 2) (.debounceStep k d)) s =
      exec (.commit k d) { s with deb := s.deb.set k ⟨s.deb[k].last, s.deb[k].pend, 2⟩ }

/-- The first sample after a complete commit from `L` to `d`, if it is `L` again (41_debounce.md R151): it commits at once,
or under `onIncrementOnly` nothing happens, then and at every further sample of `L`. -/
def Obligations.QuickReversalAfterCommit : Prop :=
  ∀ (k : Fin 10) (old d : Byte) (s : State), d ≠ old → s.deb[k] = ⟨d, d ^^^ old, 2⟩ →
    (s.cfg.commitRule ≠ .onIncrementOnly → exec (.debounceStep k old) s = exec (.commit k old) s) ∧
    (s.cfg.commitRule = .onIncrementOnly →
      ∀ n : Nat, execAll (List.replicate n (.debounceStep k old)) s = .next s)

/-! ## The event queue -/

/-- QUEUE_WRITE with exact views (42_event_queue.md R171): the slot at the write cursor, then the cursor, wrapping; or,
when the slot after the write cursor is the read cursor, false and no write. -/
def Obligations.QueueWriteStoresOrRefuses : Prop :=
  ∀ (e : ButtonEvent) (s : State), s.cfg.staleView = false → s.q.w < s.q.slots.length →
    ((s.q.w + 1) % s.cfg.capacity = s.q.r →
      exec (.queueWrite e) s = .next { s with ret := .wrote false }) ∧
    ((s.q.w + 1) % s.cfg.capacity ≠ s.q.r →
      exec (.queueWrite e) s = .next { s with
        q := ⟨s.q.slots.set s.q.w e, (s.q.w + 1) % s.cfg.capacity, s.q.r⟩, ret := .wrote true })

/-- QUEUE_READ with exact views (42_event_queue.md R173): the event at the read cursor, then the cursor, wrapping, the slot
keeping its contents; or, when the cursors are equal, no event and no write. -/
def Obligations.QueueReadTakesOrRefuses : Prop :=
  ∀ (e : ButtonEvent) (s : State), s.cfg.staleView = false → s.q.slots[s.q.r]? = some e →
    (s.q.w = s.q.r → exec .queueRead s = .next { s with ret := .read none }) ∧
    (s.q.w ≠ s.q.r → exec .queueRead s = .next { s with
      q := ⟨s.q.slots, s.q.w, (s.q.r + 1) % s.cfg.capacity⟩, ret := .read (some e) })

/-- QUEUE_WRITE_DROP (42_event_queue.md R175): a full queue loses its oldest event first; the write never fails; with stale
views it is refused. -/
def Obligations.QueueWriteDropMakesRoom : Prop :=
  ∀ (e : ButtonEvent) (s : State),
    (s.cfg.staleView = true → exec (.queueWriteDrop e) s = .refused .dropOldestWithStaleView) ∧
    (s.cfg.staleView = false → s.q.w < s.q.slots.length → (s.q.w + 1) % s.cfg.capacity ≠ s.q.r →
      exec (.queueWriteDrop e) s = .next { s with
        q := ⟨s.q.slots.set s.q.w e, (s.q.w + 1) % s.cfg.capacity, s.q.r⟩ }) ∧
    (s.cfg.staleView = false → s.q.w < s.q.slots.length → (s.q.w + 1) % s.cfg.capacity = s.q.r →
      exec (.queueWriteDrop e) s = .next { s with
        q := ⟨s.q.slots.set s.q.w e, (s.q.w + 1) % s.cfg.capacity, (s.q.r + 1) % s.cfg.capacity⟩ })

/-- Where an operation stops: a column cursor of 10..15 (93_implementation_defined.md I10 "refuse a state that holds
them") and a queue cursor outside the slot array (20_memory.md R62 "no access leaves the array"; the fault is the
model's choice, log entries 10 and 11). -/
def Obligations.StatesTheSpecNeverReachesStop : Prop :=
  ∀ (d : Byte) (e : ButtonEvent) (s : State),
    (10 ≤ s.column.toNat → exec .advance s = .refused .illegalColumn ∧
      (s.halted = false → exec (.tick d) s = .refused .illegalColumn)) ∧
    (s.cfg.staleView = false → s.q.slots.length ≤ s.q.w → (s.q.w + 1) % s.cfg.capacity ≠ s.q.r →
      exec (.queueWrite e) s = .fault .noSuchSlot ∧ exec (.queueWriteDrop e) s = .fault .noSuchSlot) ∧
    (s.cfg.staleView = false → s.q.slots.length ≤ s.q.r → s.q.w ≠ s.q.r →
      exec .queueRead s = .fault .noSuchSlot)

/-- First in, first out (42_event_queue.md R176), whatever the views: a write that succeeds puts its event behind the unread
ones, one that fails leaves them; a read takes the oldest, or none and leaves them. -/
def Obligations.QueueIsFirstInFirstOut : Prop :=
  ∀ (s : State), BlockInv s →
    (∀ e, ∃ t, exec (.queueWrite e) s = .next t ∧
      ((t.ret = .wrote true ∧ unread t = unread s ++ [e]) ∨ (t.ret = .wrote false ∧ unread t = unread s))) ∧
    ∃ t, exec .queueRead s = .next t ∧
      ((∃ e, t.ret = .read (some e) ∧ unread s = e :: unread t) ∨ (t.ret = .read none ∧ unread t = unread s))

/-- The capacity law (42_event_queue.md R177): from the empty queue `C − 1` writes succeed, the next fails and leaves the
readable contents, and `C − 1` reads give the events in the order they were written. -/
def Obligations.QueueCapacityLaw : Prop :=
  ∀ (s : State) (es : List ButtonEvent), BlockInv s → s.cfg.staleView = false → s.q.w = s.q.r →
    es.length = s.cfg.capacity - 1 →
    ∃ t v : State,
      execResults (es.map .queueWrite) s = .next (es.map fun _ => .wrote true, t) ∧
      (∀ e, exec (.queueWrite e) t = .next { t with ret := .wrote false }) ∧
      execResults (es.map fun _ => .queueRead) t = .next (es.map fun e => .read (some e), v) ∧
      v.q.w = v.q.r

/-- Stale views (42_event_queue.md R179): at each test the side's view moves some way toward the real cursor, never past it,
and the test is made with the moved view. Fairness: while the real cursor does not move, each test leaves one fewer, and
with none left the view has reached it; so a queue that is not full takes one of finitely many writes in a row, and the
oldest unread event comes with one of finitely many reads in a row. How far a view moves at a test, and how many tests it
may stay behind, are free values; the watch that counts them is the model's (log entry 8). -/
def Obligations.StaleTestUsesMovedView : Prop :=
  ∀ (s : State), BlockInv s → s.cfg.staleView = true →
    (∀ e t, exec (.queueWrite e) s = .next t →
      (∃ j, j ≤ gapTo s.cfg.capacity s.rv s.q.r ∧ t.rv = (s.rv + j) % s.cfg.capacity ∧
        gapTo s.cfg.capacity t.rv s.q.r = gapTo s.cfg.capacity s.rv s.q.r - j) ∧
      (t.ret = .wrote false ↔ (s.q.w + 1) % s.cfg.capacity = t.rv) ∧
      t.rvWatch.cursor = s.q.r ∧ (s.rvWatch.cursor = s.q.r → t.rvWatch.left = s.rvWatch.left - 1) ∧
      (t.rvWatch.left = 0 → t.rv = s.q.r)) ∧
    (∀ t, exec .queueRead s = .next t →
      (∃ j, j ≤ gapTo s.cfg.capacity s.wv s.q.w ∧ t.wv = (s.wv + j) % s.cfg.capacity ∧
        gapTo s.cfg.capacity t.wv s.q.w = gapTo s.cfg.capacity s.wv s.q.w - j) ∧
      (t.ret = .read none ↔ t.wv = s.q.r) ∧
      t.wvWatch.cursor = s.q.w ∧ (s.wvWatch.cursor = s.q.w → t.wvWatch.left = s.wvWatch.left - 1) ∧
      (t.wvWatch.left = 0 → t.wv = s.q.w)) ∧
    (∀ e, occupancy s ≠ s.cfg.capacity - 1 →
      ∃ n t, execResults (List.replicate (n + 1) (.queueWrite e)) s =
        .next (List.replicate n (.wrote false) ++ [.wrote true], t)) ∧
    ∀ e rest, unread s = e :: rest →
      ∃ n t, execResults (List.replicate (n + 1) .queueRead) s =
        .next (List.replicate n (.read none) ++ [.read (some e)], t) ∧ unread t = rest

/-- Gray publication of a cursor of `k` bits (42_event_queue.md R178): the code has `k` bits, the receiving side gets the
index back, and the codes of an index and of the next, the wrap included, differ in exactly one bit. -/
def Obligations.GrayCodeOfCursors : Prop :=
  ∀ k b : Nat, 1 ≤ k → b < 2 ^ k →
    gray b < 2 ^ k ∧ ungray k (gray b) = b ∧
    ∃ i, i < k ∧ gray b ^^^ gray ((b + 1) % 2 ^ k) = 2 ^ i

/-! ## Colour commands -/

/-- SET_RGB with `TEAR = false` (43_color.md R200, R201, R205, R208): the LED reads back the intensities exactly, and every
other bit of the Frame Buffer and the rest of the machine stay. -/
def Obligations.SetRgbWritesOneLed : Prop :=
  ∀ (row col : Byte) (r g b : BitVec 4) (s : State) (rw : Fin 6) (cl : Fin 10), Memory.wf s.fb = true →
    s.cfg.tear = false → s.halted = false → row.toNat = rw.val → col.toNat = cl.val →
    ∃ t, exec (.setRgb row col r g b) s = .next t ∧ LedWritten s t rw cl ⟨r, g, b⟩

/-- BAM_ENCODE with `TEAR = false` (43_color.md R200). -/
def Obligations.BamEncodeWritesOneLed : Prop :=
  ∀ (row : Fin 6) (col : Fin 10) (r g b : BitVec 4) (s : State), Memory.wf s.fb = true → s.cfg.tear = false →
    ∃ t, exec (.bamEncode row col r g b) s = .next t ∧ LedWritten s t row col ⟨r, g, b⟩

/-- SET_COLOR with `isOn` not 0 and `TEAR = false` (43_color.md R202, R210): the index is looked up once and the LED takes the
table's intensities. -/
def Obligations.SetColorOnWritesTableColor : Prop :=
  ∀ (b0 b1 b2 b3 : Byte) (s : State) (rw : Fin 6) (cl : Fin 10), Memory.wf s.fb = true →
    s.cfg.tear = false → s.halted = false → b0.toNat = rw.val → b1.toNat = cl.val → b2 ≠ 0 →
    ∃ t, exec (.setColor b0 b1 b2 b3) s = .next t ∧
      LedWritten { s with out := .ctIdx b3 :: s.out } t rw cl s.cfg.colorTable[b3.toNat]

/-- SET_COLOR with `isOn` 0 and `TEAR = false` (43_color.md R202, R206, R210): the LED is off whatever the index, and nothing
is looked up. -/
def Obligations.SetColorOffClearsLed : Prop :=
  ∀ (b0 b1 b3 : Byte) (s : State) (rw : Fin 6) (cl : Fin 10), Memory.wf s.fb = true →
    s.cfg.tear = false → s.halted = false → b0.toNat = rw.val → b1.toNat = cl.val →
    ∃ t, exec (.setColor b0 b1 0 b3) s = .next t ∧ LedWritten s t rw cl ⟨0, 0, 0⟩

/-- Colour commands with row 6 or above or column 10 or above change nothing (43_color.md R207). -/
def Obligations.OutOfRangeColorDoesNothing : Prop :=
  ∀ (row col x y : Byte) (r g b : BitVec 4) (s : State), 6 ≤ row.toNat ∨ 10 ≤ col.toNat →
    exec (.setColor row col x y) s = .next s ∧ exec (.setRgb row col r g b) s = .next s

/-- A receive transaction of another length changes nothing and sends nothing, whatever its bytes (43_color.md R204). -/
def Obligations.RxIgnoredDoesNothing : Prop :=
  ∀ (bytes : List Byte) (s : State), exec (.rxIgnored bytes) s = .next s

/-- A colour command given twice leaves the same Frame Buffer as once (20_memory.md R68). -/
def Obligations.ColorCommandsAreIdempotent : Prop :=
  ∀ (i : Instr) (s t u : State), Memory.wf s.fb = true → s.cfg.tear = false →
    (∃ b0 b1 b2 b3, i = .setColor b0 b1 b2 b3) ∨ (∃ row col r g b, i = .setRgb row col r g b) →
    exec i s = .next t → exec i t = .next u → u.fb = t.fb

/-- SET_RGB, SET_COLOR and BAM_ENCODE with `TEAR = true` (20_memory.md R70): the command starts its sequence of sub-steps and
writes none of its bits yet. An update still under way is first brought to its end: two updates never overlap
(20_memory.md R71), and finishing it here is the model's choice (log entry 9). -/
def Obligations.TornColorStartsSubSteps : Prop :=
  ∀ (row col x y : Byte) (r g b : BitVec 4) (s : State) (rw : Fin 6) (cl : Fin 10), s.cfg.tear = true →
    s.halted = false → row.toNat = rw.val → col.toNat = cl.val →
    exec (.setRgb row col r g b) s =
      .next { s with fb := settledFb s, update := some ⟨.rawPort, tornSteps rw cl ⟨r, g, b⟩⟩ } ∧
    exec (.bamEncode rw cl r g b) s =
      .next { s with fb := settledFb s, update := some ⟨.rawPort, tornSteps rw cl ⟨r, g, b⟩⟩ } ∧
    exec (.setColor row col 0 y) s =
      .next { s with fb := settledFb s, update := some ⟨.hostBus, tornSteps rw cl ⟨0, 0, 0⟩⟩ } ∧
    (x ≠ 0 → exec (.setColor row col x y) s =
      .next { s with fb := settledFb s, out := .ctIdx y :: s.out,
                     update := some ⟨.hostBus, tornSteps rw cl s.cfg.colorTable[y.toNat]⟩ })

/-- The sub-steps of a torn colour write, all taken, end in the Frame Buffer of the atomic one (43_color.md R211), after at
most 24 sub-step turns, nothing else changed. -/
def Obligations.TornUpdateEndsLikeAtomicOne : Prop :=
  ∀ (row col : Byte) (r g b : BitVec 4) (s t u : State), Memory.wf s.fb = true → s.cfg.tear = true →
    s.halted = false → s.update = none → row.toNat < 6 → col.toNat < 10 →
    exec (.setRgb row col r g b) s = .next t →
    exec (.setRgb row col r g b) { s with cfg := { s.cfg with tear := false } } = .next u →
    ∃ n, n ≤ 24 ∧
      Host.Core.run Sys2Proof.core n { t with inputs := List.replicate n .colorSubStep } =
        .next { s with fb := u.fb, inputs := [] }

/-! ## Poll -/

/-- A poll with an event unread (44_poll.md R230, R231), exact views: the oldest event's column, row and isPressed byte
(0x01 or 0x00) go out in that order, and the read cursor moves past it. -/
def Obligations.PollReturnsOldestEvent : Prop :=
  ∀ (s : State) (e : ButtonEvent) (rest : List ButtonEvent), BlockInv s → s.cfg.staleView = false → s.halted = false →
    unread s = e :: rest →
    ∃ t, exec .poll s = .next t ∧
      t = { s with
        q := { s.q with r := (s.q.r + 1) % s.cfg.capacity },
        out := .pollResp ⟨BitVec.ofNat 8 e.column.val, BitVec.ofNat 8 e.row.val,
          if e.isPressed then 0x01 else 0x00⟩ :: s.out } ∧
      unread t = rest

/-- A poll of an empty queue returns FF FF FF and does not alter the queue (44_poll.md R232): with exact views nothing
else changes either, with any views the cursors and the slots stay. -/
def Obligations.EmptyPollReturnsSentinel : Prop :=
  ∀ s : State, s.halted = false → s.q.w = s.q.r →
    (s.cfg.staleView = false →
      exec .poll s = .next { s with out := .pollResp ⟨0xFF, 0xFF, 0xFF⟩ :: s.out }) ∧
    (BlockInv s → ∃ t, exec .poll s = .next t ∧ t.out = .pollResp ⟨0xFF, 0xFF, 0xFF⟩ :: s.out ∧ t.q = s.q)

/-- A poll with any views (44_poll.md R235): the oldest unread event, or the sentinel with every event still unread. A poll
that hides an event leaves one test fewer until the view reaches a write cursor that rests, so a later poll returns the
event: after finitely many sentinels in a row the oldest unread event (the watch is the model's, log entry 8). -/
def Obligations.StalePollNeverLosesEvents : Prop :=
  ∀ s : State, BlockInv s → s.halted = false →
    (∃ t, exec .poll s = .next t ∧
      ((∃ e, unread s = e :: unread t ∧ t.out = .pollResp (responseOf e) :: s.out) ∨
       (unread t = unread s ∧ t.q = s.q ∧ t.out = .pollResp ⟨0xFF, 0xFF, 0xFF⟩ :: s.out ∧
        (unread s ≠ [] → t.wvWatch.cursor = s.q.w ∧
          (s.wvWatch.cursor = s.q.w → t.wvWatch.left < s.wvWatch.left)))) ∧
      t = { s with
        q := t.q, wv := t.wv, wvWatch := t.wvWatch, out := t.out, free := { s.free with wv := t.free.wv } }) ∧
    ∀ e rest, unread s = e :: rest →
      ∃ n t, execAll (List.replicate (n + 1) .poll) s = .next t ∧
        t.out = .pollResp (responseOf e) :: (List.replicate n (.pollResp ⟨0xFF, 0xFF, 0xFF⟩) ++ s.out) ∧
        unread t = rest

/-- The sentinel cannot be mistaken for an event (30_encoding.md R87): every response made of an event has a first byte of
0..9 and a second of 0..5, and two events with one response are one event. -/
def Obligations.SentinelIsNoEvent : Prop :=
  (∀ e : ButtonEvent, (responseOf e).b0.toNat ≤ 9 ∧ (responseOf e).b1.toNat ≤ 5 ∧ responseOf e ≠ sentinel) ∧
  ∀ e e' : ButtonEvent, responseOf e = responseOf e' → e = e'

/-! ## The halt and reset -/

/-- RESET from any state, the halted one included (70_reset_and_hazards.md R280). The parameters, the turns to come, what
was sent and the other draws stay; the slots take free values. -/
def Obligations.ResetFromAnyState : Prop :=
  ∀ s : State, exec .reset s = .next { s with
    column := 0, bamStage := 0, tickPeriod := s.cfg.base, fb := [],
    deb := Vector.replicate 10 ⟨0, 0, 0⟩,
    q := ⟨(List.range (2 ^ s.cfg.capLog)).map (Config.slotAfterReset s.free.slots), 0, 0⟩,
    rv := 0, wv := 0, rvWatch := ⟨0, 0⟩, wvWatch := ⟨0, 0⟩, halted := false, srFrame := none, update := none,
    free := { s.free with slots := s.free.slots + 1 } }

/-- While halted every port operation but RESET completes and changes no state of the block; only a poll sends
something, three unspecified bytes, the free value of the next draw (60_exceptions.md R253, 44_poll.md R233, decision
D12). -/
def Obligations.HaltedPortOperationsChangeNothing : Prop :=
  ∀ (i : Instr) (s : State), s.halted = true → i.fromPort = true → i ≠ .reset →
    (i ≠ .poll → exec i s = .next s) ∧
    (i = .poll → exec i s = .next { s with
      out := .pollResp (Config.haltedResponse s.free.polls) :: s.out,
      free := { s.free with polls := s.free.polls + 1 } })

/-- The halt is permanent (60_exceptions.md R252, R253): a step whose turn is no reset event keeps `halted` and every field
of the spec's record, and sends nothing but, to a poll, a response. That it keeps a colour update under way as it is, whether
its turn is a sub-step, none, or an event of the update's agent, is the model's choice, not R252's or R253's (log entry 9,
DESIGN CHOICE). -/
def Obligations.HaltLastsUntilReset : Prop :=
  ∀ s t : State, s.halted = true → step s = .next t →
    (∀ rest, s.inputs ≠ .event .reset :: rest) →
    t = { s with inputs := s.inputs.tail, out := t.out, free := { s.free with polls := t.free.polls } } ∧
    (t.out = s.out ∨ (∃ rest r, s.inputs = .event .pollReq :: rest ∧ t.out = .pollResp r :: s.out))

/-- The only way into the halt among the port operations (60_exceptions.md R250): a TICK that leaves stage 3 under
`OVERFLOW_POLICY = halt`, whose commit found the queue, as the producer sees it, full; with exact views the queue then
holds `C − 1` events. -/
def Obligations.OnlyTickOverflowHalts : Prop :=
  ∀ (i : Instr) (s t : State), BlockInv s → i.fromPort = true → s.halted = false → exec i s = .next t →
    t.halted = true →
    (∃ d, i = .tick d) ∧ s.bamStage = 3 ∧ s.cfg.overflowPolicy = .halt ∧
    (s.cfg.staleView = false → occupancy t = s.cfg.capacity - 1)

/-- One writer per field among the port operations (10_state.md R41): who can change the Frame Buffer, the sequencing
registers and the last frame, the debounce registers, the slots and the write cursor, the read cursor, `halted`. -/
def Obligations.OneWriterPerField : Prop :=
  ∀ (i : Instr) (s t : State), i.fromPort = true → exec i s = .next t →
    (t.fb ≠ s.fb → i = .reset ∨ (∃ b0 b1 b2 b3, i = .setColor b0 b1 b2 b3) ∨
      ∃ row col r g b, i = .setRgb row col r g b) ∧
    (t.column ≠ s.column ∨ t.bamStage ≠ s.bamStage ∨ t.tickPeriod ≠ s.tickPeriod ∨ t.srFrame ≠ s.srFrame →
      i = .reset ∨ ∃ d, i = .tick d) ∧
    (t.deb ≠ s.deb → i = .reset ∨ ∃ d, i = .tick d) ∧
    (t.q.slots ≠ s.q.slots ∨ t.q.w ≠ s.q.w → i = .reset ∨ ∃ d, i = .tick d) ∧
    (t.q.r ≠ s.q.r → i = .reset ∨ i = .poll ∨ ((∃ d, i = .tick d) ∧ s.cfg.overflowPolicy = .dropOldest)) ∧
    (t.halted ≠ s.halted → i = .reset ∨ ∃ d, i = .tick d)
end

