-- ==== Sys2Proof/Laws/State.lean ====
section
/-!
SUPPORT. One lemma per field per update of State.
-/

namespace Sys2Proof.Machine

variable (s : State)

@[simp] theorem State.withCursor_cfg (c : BitVec 4) (g : BitVec 2) (p : Nat) : (s.withCursor c g p).cfg = s.cfg := rfl
@[simp] theorem State.withCursor_column (c : BitVec 4) (g : BitVec 2) (p : Nat) : (s.withCursor c g p).column = c := rfl
@[simp] theorem State.withCursor_bamStage (c : BitVec 4) (g : BitVec 2) (p : Nat) : (s.withCursor c g p).bamStage = g := rfl
@[simp] theorem State.withCursor_tickPeriod (c : BitVec 4) (g : BitVec 2) (p : Nat) : (s.withCursor c g p).tickPeriod = p := rfl
@[simp] theorem State.withCursor_fb (c : BitVec 4) (g : BitVec 2) (p : Nat) : (s.withCursor c g p).fb = s.fb := rfl
@[simp] theorem State.withCursor_deb (c : BitVec 4) (g : BitVec 2) (p : Nat) : (s.withCursor c g p).deb = s.deb := rfl
@[simp] theorem State.withCursor_q (c : BitVec 4) (g : BitVec 2) (p : Nat) : (s.withCursor c g p).q = s.q := rfl
@[simp] theorem State.withCursor_rv (c : BitVec 4) (g : BitVec 2) (p : Nat) : (s.withCursor c g p).rv = s.rv := rfl
@[simp] theorem State.withCursor_wv (c : BitVec 4) (g : BitVec 2) (p : Nat) : (s.withCursor c g p).wv = s.wv := rfl
@[simp] theorem State.withCursor_halted (c : BitVec 4) (g : BitVec 2) (p : Nat) : (s.withCursor c g p).halted = s.halted := rfl
@[simp] theorem State.withCursor_srFrame (c : BitVec 4) (g : BitVec 2) (p : Nat) : (s.withCursor c g p).srFrame = s.srFrame := rfl
@[simp] theorem State.withCursor_update (c : BitVec 4) (g : BitVec 2) (p : Nat) : (s.withCursor c g p).update = s.update := rfl
@[simp] theorem State.withCursor_inputs (c : BitVec 4) (g : BitVec 2) (p : Nat) : (s.withCursor c g p).inputs = s.inputs := rfl
@[simp] theorem State.withCursor_out (c : BitVec 4) (g : BitVec 2) (p : Nat) : (s.withCursor c g p).out = s.out := rfl
@[simp] theorem State.withCursor_ret (c : BitVec 4) (g : BitVec 2) (p : Nat) : (s.withCursor c g p).ret = s.ret := rfl
@[simp] theorem State.withCursor_free (c : BitVec 4) (g : BitVec 2) (p : Nat) : (s.withCursor c g p).free = s.free := rfl
@[simp] theorem State.withCursor_rvWatch (c : BitVec 4) (g : BitVec 2) (p : Nat) : (s.withCursor c g p).rvWatch = s.rvWatch := rfl
@[simp] theorem State.withCursor_wvWatch (c : BitVec 4) (g : BitVec 2) (p : Nat) : (s.withCursor c g p).wvWatch = s.wvWatch := rfl

@[simp] theorem State.withFb_cfg (m : Memory) : (s.withFb m).cfg = s.cfg := rfl
@[simp] theorem State.withFb_column (m : Memory) : (s.withFb m).column = s.column := rfl
@[simp] theorem State.withFb_bamStage (m : Memory) : (s.withFb m).bamStage = s.bamStage := rfl
@[simp] theorem State.withFb_tickPeriod (m : Memory) : (s.withFb m).tickPeriod = s.tickPeriod := rfl
@[simp] theorem State.withFb_fb (m : Memory) : (s.withFb m).fb = m := rfl
@[simp] theorem State.withFb_deb (m : Memory) : (s.withFb m).deb = s.deb := rfl
@[simp] theorem State.withFb_q (m : Memory) : (s.withFb m).q = s.q := rfl
@[simp] theorem State.withFb_rv (m : Memory) : (s.withFb m).rv = s.rv := rfl
@[simp] theorem State.withFb_wv (m : Memory) : (s.withFb m).wv = s.wv := rfl
@[simp] theorem State.withFb_halted (m : Memory) : (s.withFb m).halted = s.halted := rfl
@[simp] theorem State.withFb_srFrame (m : Memory) : (s.withFb m).srFrame = s.srFrame := rfl
@[simp] theorem State.withFb_update (m : Memory) : (s.withFb m).update = s.update := rfl
@[simp] theorem State.withFb_inputs (m : Memory) : (s.withFb m).inputs = s.inputs := rfl
@[simp] theorem State.withFb_out (m : Memory) : (s.withFb m).out = s.out := rfl
@[simp] theorem State.withFb_ret (m : Memory) : (s.withFb m).ret = s.ret := rfl
@[simp] theorem State.withFb_free (m : Memory) : (s.withFb m).free = s.free := rfl
@[simp] theorem State.withFb_rvWatch (m : Memory) : (s.withFb m).rvWatch = s.rvWatch := rfl
@[simp] theorem State.withFb_wvWatch (m : Memory) : (s.withFb m).wvWatch = s.wvWatch := rfl

@[simp] theorem State.withDeb_cfg (k : Fin 10) (d : Debounce) : (s.withDeb k d).cfg = s.cfg := rfl
@[simp] theorem State.withDeb_column (k : Fin 10) (d : Debounce) : (s.withDeb k d).column = s.column := rfl
@[simp] theorem State.withDeb_bamStage (k : Fin 10) (d : Debounce) : (s.withDeb k d).bamStage = s.bamStage := rfl
@[simp] theorem State.withDeb_tickPeriod (k : Fin 10) (d : Debounce) : (s.withDeb k d).tickPeriod = s.tickPeriod := rfl
@[simp] theorem State.withDeb_fb (k : Fin 10) (d : Debounce) : (s.withDeb k d).fb = s.fb := rfl
@[simp] theorem State.withDeb_deb (k : Fin 10) (d : Debounce) : (s.withDeb k d).deb = s.deb.set k d := rfl
@[simp] theorem State.withDeb_q (k : Fin 10) (d : Debounce) : (s.withDeb k d).q = s.q := rfl
@[simp] theorem State.withDeb_rv (k : Fin 10) (d : Debounce) : (s.withDeb k d).rv = s.rv := rfl
@[simp] theorem State.withDeb_wv (k : Fin 10) (d : Debounce) : (s.withDeb k d).wv = s.wv := rfl
@[simp] theorem State.withDeb_halted (k : Fin 10) (d : Debounce) : (s.withDeb k d).halted = s.halted := rfl
@[simp] theorem State.withDeb_srFrame (k : Fin 10) (d : Debounce) : (s.withDeb k d).srFrame = s.srFrame := rfl
@[simp] theorem State.withDeb_update (k : Fin 10) (d : Debounce) : (s.withDeb k d).update = s.update := rfl
@[simp] theorem State.withDeb_inputs (k : Fin 10) (d : Debounce) : (s.withDeb k d).inputs = s.inputs := rfl
@[simp] theorem State.withDeb_out (k : Fin 10) (d : Debounce) : (s.withDeb k d).out = s.out := rfl
@[simp] theorem State.withDeb_ret (k : Fin 10) (d : Debounce) : (s.withDeb k d).ret = s.ret := rfl
@[simp] theorem State.withDeb_free (k : Fin 10) (d : Debounce) : (s.withDeb k d).free = s.free := rfl
@[simp] theorem State.withDeb_rvWatch (k : Fin 10) (d : Debounce) : (s.withDeb k d).rvWatch = s.rvWatch := rfl
@[simp] theorem State.withDeb_wvWatch (k : Fin 10) (d : Debounce) : (s.withDeb k d).wvWatch = s.wvWatch := rfl

@[simp] theorem State.withQueue_cfg (q : Queue) : (s.withQueue q).cfg = s.cfg := rfl
@[simp] theorem State.withQueue_column (q : Queue) : (s.withQueue q).column = s.column := rfl
@[simp] theorem State.withQueue_bamStage (q : Queue) : (s.withQueue q).bamStage = s.bamStage := rfl
@[simp] theorem State.withQueue_tickPeriod (q : Queue) : (s.withQueue q).tickPeriod = s.tickPeriod := rfl
@[simp] theorem State.withQueue_fb (q : Queue) : (s.withQueue q).fb = s.fb := rfl
@[simp] theorem State.withQueue_deb (q : Queue) : (s.withQueue q).deb = s.deb := rfl
@[simp] theorem State.withQueue_q (q : Queue) : (s.withQueue q).q = q := rfl
@[simp] theorem State.withQueue_rv (q : Queue) : (s.withQueue q).rv = s.rv := rfl
@[simp] theorem State.withQueue_wv (q : Queue) : (s.withQueue q).wv = s.wv := rfl
@[simp] theorem State.withQueue_halted (q : Queue) : (s.withQueue q).halted = s.halted := rfl
@[simp] theorem State.withQueue_srFrame (q : Queue) : (s.withQueue q).srFrame = s.srFrame := rfl
@[simp] theorem State.withQueue_update (q : Queue) : (s.withQueue q).update = s.update := rfl
@[simp] theorem State.withQueue_inputs (q : Queue) : (s.withQueue q).inputs = s.inputs := rfl
@[simp] theorem State.withQueue_out (q : Queue) : (s.withQueue q).out = s.out := rfl
@[simp] theorem State.withQueue_ret (q : Queue) : (s.withQueue q).ret = s.ret := rfl
@[simp] theorem State.withQueue_free (q : Queue) : (s.withQueue q).free = s.free := rfl
@[simp] theorem State.withQueue_rvWatch (q : Queue) : (s.withQueue q).rvWatch = s.rvWatch := rfl
@[simp] theorem State.withQueue_wvWatch (q : Queue) : (s.withQueue q).wvWatch = s.wvWatch := rfl

@[simp] theorem State.withRv_cfg (v : Nat) (w : Watch) : (s.withRv v w).cfg = s.cfg := rfl
@[simp] theorem State.withRv_column (v : Nat) (w : Watch) : (s.withRv v w).column = s.column := rfl
@[simp] theorem State.withRv_bamStage (v : Nat) (w : Watch) : (s.withRv v w).bamStage = s.bamStage := rfl
@[simp] theorem State.withRv_tickPeriod (v : Nat) (w : Watch) : (s.withRv v w).tickPeriod = s.tickPeriod := rfl
@[simp] theorem State.withRv_fb (v : Nat) (w : Watch) : (s.withRv v w).fb = s.fb := rfl
@[simp] theorem State.withRv_deb (v : Nat) (w : Watch) : (s.withRv v w).deb = s.deb := rfl
@[simp] theorem State.withRv_q (v : Nat) (w : Watch) : (s.withRv v w).q = s.q := rfl
@[simp] theorem State.withRv_rv (v : Nat) (w : Watch) : (s.withRv v w).rv = v := rfl
@[simp] theorem State.withRv_wv (v : Nat) (w : Watch) : (s.withRv v w).wv = s.wv := rfl
@[simp] theorem State.withRv_halted (v : Nat) (w : Watch) : (s.withRv v w).halted = s.halted := rfl
@[simp] theorem State.withRv_srFrame (v : Nat) (w : Watch) : (s.withRv v w).srFrame = s.srFrame := rfl
@[simp] theorem State.withRv_update (v : Nat) (w : Watch) : (s.withRv v w).update = s.update := rfl
@[simp] theorem State.withRv_inputs (v : Nat) (w : Watch) : (s.withRv v w).inputs = s.inputs := rfl
@[simp] theorem State.withRv_out (v : Nat) (w : Watch) : (s.withRv v w).out = s.out := rfl
@[simp] theorem State.withRv_ret (v : Nat) (w : Watch) : (s.withRv v w).ret = s.ret := rfl
@[simp] theorem State.withRv_free (v : Nat) (w : Watch) : (s.withRv v w).free = { s.free with rv := s.free.rv + 1 } := rfl
@[simp] theorem State.withRv_rvWatch (v : Nat) (w : Watch) : (s.withRv v w).rvWatch = w := rfl
@[simp] theorem State.withRv_wvWatch (v : Nat) (w : Watch) : (s.withRv v w).wvWatch = s.wvWatch := rfl

@[simp] theorem State.withWv_cfg (v : Nat) (w : Watch) : (s.withWv v w).cfg = s.cfg := rfl
@[simp] theorem State.withWv_column (v : Nat) (w : Watch) : (s.withWv v w).column = s.column := rfl
@[simp] theorem State.withWv_bamStage (v : Nat) (w : Watch) : (s.withWv v w).bamStage = s.bamStage := rfl
@[simp] theorem State.withWv_tickPeriod (v : Nat) (w : Watch) : (s.withWv v w).tickPeriod = s.tickPeriod := rfl
@[simp] theorem State.withWv_fb (v : Nat) (w : Watch) : (s.withWv v w).fb = s.fb := rfl
@[simp] theorem State.withWv_deb (v : Nat) (w : Watch) : (s.withWv v w).deb = s.deb := rfl
@[simp] theorem State.withWv_q (v : Nat) (w : Watch) : (s.withWv v w).q = s.q := rfl
@[simp] theorem State.withWv_rv (v : Nat) (w : Watch) : (s.withWv v w).rv = s.rv := rfl
@[simp] theorem State.withWv_wv (v : Nat) (w : Watch) : (s.withWv v w).wv = v := rfl
@[simp] theorem State.withWv_halted (v : Nat) (w : Watch) : (s.withWv v w).halted = s.halted := rfl
@[simp] theorem State.withWv_srFrame (v : Nat) (w : Watch) : (s.withWv v w).srFrame = s.srFrame := rfl
@[simp] theorem State.withWv_update (v : Nat) (w : Watch) : (s.withWv v w).update = s.update := rfl
@[simp] theorem State.withWv_inputs (v : Nat) (w : Watch) : (s.withWv v w).inputs = s.inputs := rfl
@[simp] theorem State.withWv_out (v : Nat) (w : Watch) : (s.withWv v w).out = s.out := rfl
@[simp] theorem State.withWv_ret (v : Nat) (w : Watch) : (s.withWv v w).ret = s.ret := rfl
@[simp] theorem State.withWv_free (v : Nat) (w : Watch) : (s.withWv v w).free = { s.free with wv := s.free.wv + 1 } := rfl
@[simp] theorem State.withWv_rvWatch (v : Nat) (w : Watch) : (s.withWv v w).rvWatch = s.rvWatch := rfl
@[simp] theorem State.withWv_wvWatch (v : Nat) (w : Watch) : (s.withWv v w).wvWatch = w := rfl

@[simp] theorem State.withUpdate_cfg (u : Option ColorUpdate) : (s.withUpdate u).cfg = s.cfg := rfl
@[simp] theorem State.withUpdate_column (u : Option ColorUpdate) : (s.withUpdate u).column = s.column := rfl
@[simp] theorem State.withUpdate_bamStage (u : Option ColorUpdate) : (s.withUpdate u).bamStage = s.bamStage := rfl
@[simp] theorem State.withUpdate_tickPeriod (u : Option ColorUpdate) : (s.withUpdate u).tickPeriod = s.tickPeriod := rfl
@[simp] theorem State.withUpdate_fb (u : Option ColorUpdate) : (s.withUpdate u).fb = s.fb := rfl
@[simp] theorem State.withUpdate_deb (u : Option ColorUpdate) : (s.withUpdate u).deb = s.deb := rfl
@[simp] theorem State.withUpdate_q (u : Option ColorUpdate) : (s.withUpdate u).q = s.q := rfl
@[simp] theorem State.withUpdate_rv (u : Option ColorUpdate) : (s.withUpdate u).rv = s.rv := rfl
@[simp] theorem State.withUpdate_wv (u : Option ColorUpdate) : (s.withUpdate u).wv = s.wv := rfl
@[simp] theorem State.withUpdate_halted (u : Option ColorUpdate) : (s.withUpdate u).halted = s.halted := rfl
@[simp] theorem State.withUpdate_srFrame (u : Option ColorUpdate) : (s.withUpdate u).srFrame = s.srFrame := rfl
@[simp] theorem State.withUpdate_update (u : Option ColorUpdate) : (s.withUpdate u).update = u := rfl
@[simp] theorem State.withUpdate_inputs (u : Option ColorUpdate) : (s.withUpdate u).inputs = s.inputs := rfl
@[simp] theorem State.withUpdate_out (u : Option ColorUpdate) : (s.withUpdate u).out = s.out := rfl
@[simp] theorem State.withUpdate_ret (u : Option ColorUpdate) : (s.withUpdate u).ret = s.ret := rfl
@[simp] theorem State.withUpdate_free (u : Option ColorUpdate) : (s.withUpdate u).free = s.free := rfl
@[simp] theorem State.withUpdate_rvWatch (u : Option ColorUpdate) : (s.withUpdate u).rvWatch = s.rvWatch := rfl
@[simp] theorem State.withUpdate_wvWatch (u : Option ColorUpdate) : (s.withUpdate u).wvWatch = s.wvWatch := rfl

@[simp] theorem State.withInputs_cfg (l : List Turn) : (s.withInputs l).cfg = s.cfg := rfl
@[simp] theorem State.withInputs_column (l : List Turn) : (s.withInputs l).column = s.column := rfl
@[simp] theorem State.withInputs_bamStage (l : List Turn) : (s.withInputs l).bamStage = s.bamStage := rfl
@[simp] theorem State.withInputs_tickPeriod (l : List Turn) : (s.withInputs l).tickPeriod = s.tickPeriod := rfl
@[simp] theorem State.withInputs_fb (l : List Turn) : (s.withInputs l).fb = s.fb := rfl
@[simp] theorem State.withInputs_deb (l : List Turn) : (s.withInputs l).deb = s.deb := rfl
@[simp] theorem State.withInputs_q (l : List Turn) : (s.withInputs l).q = s.q := rfl
@[simp] theorem State.withInputs_rv (l : List Turn) : (s.withInputs l).rv = s.rv := rfl
@[simp] theorem State.withInputs_wv (l : List Turn) : (s.withInputs l).wv = s.wv := rfl
@[simp] theorem State.withInputs_halted (l : List Turn) : (s.withInputs l).halted = s.halted := rfl
@[simp] theorem State.withInputs_srFrame (l : List Turn) : (s.withInputs l).srFrame = s.srFrame := rfl
@[simp] theorem State.withInputs_update (l : List Turn) : (s.withInputs l).update = s.update := rfl
@[simp] theorem State.withInputs_inputs (l : List Turn) : (s.withInputs l).inputs = l := rfl
@[simp] theorem State.withInputs_out (l : List Turn) : (s.withInputs l).out = s.out := rfl
@[simp] theorem State.withInputs_ret (l : List Turn) : (s.withInputs l).ret = s.ret := rfl
@[simp] theorem State.withInputs_free (l : List Turn) : (s.withInputs l).free = s.free := rfl
@[simp] theorem State.withInputs_rvWatch (l : List Turn) : (s.withInputs l).rvWatch = s.rvWatch := rfl
@[simp] theorem State.withInputs_wvWatch (l : List Turn) : (s.withInputs l).wvWatch = s.wvWatch := rfl

@[simp] theorem State.withRet_cfg (r : MicroResult) : (s.withRet r).cfg = s.cfg := rfl
@[simp] theorem State.withRet_column (r : MicroResult) : (s.withRet r).column = s.column := rfl
@[simp] theorem State.withRet_bamStage (r : MicroResult) : (s.withRet r).bamStage = s.bamStage := rfl
@[simp] theorem State.withRet_tickPeriod (r : MicroResult) : (s.withRet r).tickPeriod = s.tickPeriod := rfl
@[simp] theorem State.withRet_fb (r : MicroResult) : (s.withRet r).fb = s.fb := rfl
@[simp] theorem State.withRet_deb (r : MicroResult) : (s.withRet r).deb = s.deb := rfl
@[simp] theorem State.withRet_q (r : MicroResult) : (s.withRet r).q = s.q := rfl
@[simp] theorem State.withRet_rv (r : MicroResult) : (s.withRet r).rv = s.rv := rfl
@[simp] theorem State.withRet_wv (r : MicroResult) : (s.withRet r).wv = s.wv := rfl
@[simp] theorem State.withRet_halted (r : MicroResult) : (s.withRet r).halted = s.halted := rfl
@[simp] theorem State.withRet_srFrame (r : MicroResult) : (s.withRet r).srFrame = s.srFrame := rfl
@[simp] theorem State.withRet_update (r : MicroResult) : (s.withRet r).update = s.update := rfl
@[simp] theorem State.withRet_inputs (r : MicroResult) : (s.withRet r).inputs = s.inputs := rfl
@[simp] theorem State.withRet_out (r : MicroResult) : (s.withRet r).out = s.out := rfl
@[simp] theorem State.withRet_ret (r : MicroResult) : (s.withRet r).ret = r := rfl
@[simp] theorem State.withRet_free (r : MicroResult) : (s.withRet r).free = s.free := rfl
@[simp] theorem State.withRet_rvWatch (r : MicroResult) : (s.withRet r).rvWatch = s.rvWatch := rfl
@[simp] theorem State.withRet_wvWatch (r : MicroResult) : (s.withRet r).wvWatch = s.wvWatch := rfl

@[simp] theorem State.send_cfg (o : PortOut) : (s.send o).cfg = s.cfg := rfl
@[simp] theorem State.send_column (o : PortOut) : (s.send o).column = s.column := rfl
@[simp] theorem State.send_bamStage (o : PortOut) : (s.send o).bamStage = s.bamStage := rfl
@[simp] theorem State.send_tickPeriod (o : PortOut) : (s.send o).tickPeriod = s.tickPeriod := rfl
@[simp] theorem State.send_fb (o : PortOut) : (s.send o).fb = s.fb := rfl
@[simp] theorem State.send_deb (o : PortOut) : (s.send o).deb = s.deb := rfl
@[simp] theorem State.send_q (o : PortOut) : (s.send o).q = s.q := rfl
@[simp] theorem State.send_rv (o : PortOut) : (s.send o).rv = s.rv := rfl
@[simp] theorem State.send_wv (o : PortOut) : (s.send o).wv = s.wv := rfl
@[simp] theorem State.send_halted (o : PortOut) : (s.send o).halted = s.halted := rfl
@[simp] theorem State.send_srFrame (o : PortOut) : (s.send o).srFrame = s.srFrame := rfl
@[simp] theorem State.send_update (o : PortOut) : (s.send o).update = s.update := rfl
@[simp] theorem State.send_inputs (o : PortOut) : (s.send o).inputs = s.inputs := rfl
@[simp] theorem State.send_out (o : PortOut) : (s.send o).out = o :: s.out := rfl
@[simp] theorem State.send_ret (o : PortOut) : (s.send o).ret = s.ret := rfl
@[simp] theorem State.send_free (o : PortOut) : (s.send o).free = s.free := rfl
@[simp] theorem State.send_rvWatch (o : PortOut) : (s.send o).rvWatch = s.rvWatch := rfl
@[simp] theorem State.send_wvWatch (o : PortOut) : (s.send o).wvWatch = s.wvWatch := rfl

@[simp] theorem State.sendFrame_cfg (f : Frame) : (s.sendFrame f).cfg = s.cfg := rfl
@[simp] theorem State.sendFrame_column (f : Frame) : (s.sendFrame f).column = s.column := rfl
@[simp] theorem State.sendFrame_bamStage (f : Frame) : (s.sendFrame f).bamStage = s.bamStage := rfl
@[simp] theorem State.sendFrame_tickPeriod (f : Frame) : (s.sendFrame f).tickPeriod = s.tickPeriod := rfl
@[simp] theorem State.sendFrame_fb (f : Frame) : (s.sendFrame f).fb = s.fb := rfl
@[simp] theorem State.sendFrame_deb (f : Frame) : (s.sendFrame f).deb = s.deb := rfl
@[simp] theorem State.sendFrame_q (f : Frame) : (s.sendFrame f).q = s.q := rfl
@[simp] theorem State.sendFrame_rv (f : Frame) : (s.sendFrame f).rv = s.rv := rfl
@[simp] theorem State.sendFrame_wv (f : Frame) : (s.sendFrame f).wv = s.wv := rfl
@[simp] theorem State.sendFrame_halted (f : Frame) : (s.sendFrame f).halted = s.halted := rfl
@[simp] theorem State.sendFrame_srFrame (f : Frame) : (s.sendFrame f).srFrame = some f := rfl
@[simp] theorem State.sendFrame_update (f : Frame) : (s.sendFrame f).update = s.update := rfl
@[simp] theorem State.sendFrame_inputs (f : Frame) : (s.sendFrame f).inputs = s.inputs := rfl
@[simp] theorem State.sendFrame_out (f : Frame) : (s.sendFrame f).out = .frame f :: s.out := rfl
@[simp] theorem State.sendFrame_ret (f : Frame) : (s.sendFrame f).ret = s.ret := rfl
@[simp] theorem State.sendFrame_free (f : Frame) : (s.sendFrame f).free = s.free := rfl
@[simp] theorem State.sendFrame_rvWatch (f : Frame) : (s.sendFrame f).rvWatch = s.rvWatch := rfl
@[simp] theorem State.sendFrame_wvWatch (f : Frame) : (s.sendFrame f).wvWatch = s.wvWatch := rfl

@[simp] theorem State.sendFreeResponse_cfg : s.sendFreeResponse.cfg = s.cfg := rfl
@[simp] theorem State.sendFreeResponse_column : s.sendFreeResponse.column = s.column := rfl
@[simp] theorem State.sendFreeResponse_bamStage : s.sendFreeResponse.bamStage = s.bamStage := rfl
@[simp] theorem State.sendFreeResponse_tickPeriod : s.sendFreeResponse.tickPeriod = s.tickPeriod := rfl
@[simp] theorem State.sendFreeResponse_fb : s.sendFreeResponse.fb = s.fb := rfl
@[simp] theorem State.sendFreeResponse_deb : s.sendFreeResponse.deb = s.deb := rfl
@[simp] theorem State.sendFreeResponse_q : s.sendFreeResponse.q = s.q := rfl
@[simp] theorem State.sendFreeResponse_rv : s.sendFreeResponse.rv = s.rv := rfl
@[simp] theorem State.sendFreeResponse_wv : s.sendFreeResponse.wv = s.wv := rfl
@[simp] theorem State.sendFreeResponse_halted : s.sendFreeResponse.halted = s.halted := rfl
@[simp] theorem State.sendFreeResponse_srFrame : s.sendFreeResponse.srFrame = s.srFrame := rfl
@[simp] theorem State.sendFreeResponse_update : s.sendFreeResponse.update = s.update := rfl
@[simp] theorem State.sendFreeResponse_inputs : s.sendFreeResponse.inputs = s.inputs := rfl
@[simp] theorem State.sendFreeResponse_out : s.sendFreeResponse.out = .pollResp (Config.haltedResponse s.free.polls) :: s.out := rfl
@[simp] theorem State.sendFreeResponse_ret : s.sendFreeResponse.ret = s.ret := rfl
@[simp] theorem State.sendFreeResponse_free : s.sendFreeResponse.free = { s.free with polls := s.free.polls + 1 } := rfl
@[simp] theorem State.sendFreeResponse_rvWatch : s.sendFreeResponse.rvWatch = s.rvWatch := rfl
@[simp] theorem State.sendFreeResponse_wvWatch : s.sendFreeResponse.wvWatch = s.wvWatch := rfl

@[simp] theorem raiseQueueOverflow_cfg : (raiseQueueOverflow s).cfg = s.cfg := rfl
@[simp] theorem raiseQueueOverflow_column : (raiseQueueOverflow s).column = s.column := rfl
@[simp] theorem raiseQueueOverflow_bamStage : (raiseQueueOverflow s).bamStage = s.bamStage := rfl
@[simp] theorem raiseQueueOverflow_tickPeriod : (raiseQueueOverflow s).tickPeriod = s.tickPeriod := rfl
@[simp] theorem raiseQueueOverflow_fb : (raiseQueueOverflow s).fb = s.fb := rfl
@[simp] theorem raiseQueueOverflow_deb : (raiseQueueOverflow s).deb = s.deb := rfl
@[simp] theorem raiseQueueOverflow_q : (raiseQueueOverflow s).q = s.q := rfl
@[simp] theorem raiseQueueOverflow_rv : (raiseQueueOverflow s).rv = s.rv := rfl
@[simp] theorem raiseQueueOverflow_wv : (raiseQueueOverflow s).wv = s.wv := rfl
@[simp] theorem raiseQueueOverflow_halted : (raiseQueueOverflow s).halted = true := rfl
@[simp] theorem raiseQueueOverflow_srFrame : (raiseQueueOverflow s).srFrame = s.srFrame := rfl
@[simp] theorem raiseQueueOverflow_update : (raiseQueueOverflow s).update = s.update := rfl
@[simp] theorem raiseQueueOverflow_inputs : (raiseQueueOverflow s).inputs = s.inputs := rfl
@[simp] theorem raiseQueueOverflow_out : (raiseQueueOverflow s).out = s.out := rfl
@[simp] theorem raiseQueueOverflow_ret : (raiseQueueOverflow s).ret = s.ret := rfl
@[simp] theorem raiseQueueOverflow_free : (raiseQueueOverflow s).free = s.free := rfl
@[simp] theorem raiseQueueOverflow_rvWatch : (raiseQueueOverflow s).rvWatch = s.rvWatch := rfl
@[simp] theorem raiseQueueOverflow_wvWatch : (raiseQueueOverflow s).wvWatch = s.wvWatch := rfl

@[simp] theorem resetBlock_cfg : (resetBlock s).cfg = s.cfg := rfl
@[simp] theorem resetBlock_column : (resetBlock s).column = 0 := rfl
@[simp] theorem resetBlock_bamStage : (resetBlock s).bamStage = 0 := rfl
@[simp] theorem resetBlock_tickPeriod : (resetBlock s).tickPeriod = s.cfg.base := rfl
@[simp] theorem resetBlock_fb : (resetBlock s).fb = [] := rfl
@[simp] theorem resetBlock_deb : (resetBlock s).deb = Vector.replicate 10 Debounce.reset := rfl
@[simp] theorem resetBlock_q : (resetBlock s).q = ⟨s.cfg.freeSlots s.free.slots, 0, 0⟩ := rfl
@[simp] theorem resetBlock_rv : (resetBlock s).rv = 0 := rfl
@[simp] theorem resetBlock_wv : (resetBlock s).wv = 0 := rfl
@[simp] theorem resetBlock_halted : (resetBlock s).halted = false := rfl
@[simp] theorem resetBlock_srFrame : (resetBlock s).srFrame = none := rfl
@[simp] theorem resetBlock_update : (resetBlock s).update = none := rfl
@[simp] theorem resetBlock_inputs : (resetBlock s).inputs = s.inputs := rfl
@[simp] theorem resetBlock_out : (resetBlock s).out = s.out := rfl
@[simp] theorem resetBlock_ret : (resetBlock s).ret = s.ret := rfl
@[simp] theorem resetBlock_free : (resetBlock s).free = { s.free with slots := s.free.slots + 1 } := rfl
@[simp] theorem resetBlock_rvWatch : (resetBlock s).rvWatch = ⟨0, 0⟩ := rfl
@[simp] theorem resetBlock_wvWatch : (resetBlock s).wvWatch = ⟨0, 0⟩ := rfl

/-- Writing one column's debounce registers leaves the others (41_debounce.md R155). -/
theorem State.withDeb_getElem (k j : Fin 10) (d : Debounce) :
    (s.withDeb k d).deb[j] = if k = j then d else s.deb[j] := by
  simp [Vector.getElem_set, Fin.ext_iff]

@[simp] theorem State.withDeb_getElem_self (k : Fin 10) (d : Debounce) : (s.withDeb k d).deb[k] = d := by
  simp

/-- A next outcome goes on. -/
@[simp] theorem andThen_next {α β : Type} (a : α) (f : α → Result β) : andThen (.next a) f = f a := rfl

@[simp] theorem andThen_fault {α β : Type} (r : Fault) (f : α → Result β) : andThen (.fault r) f = .fault r := rfl

@[simp] theorem andThen_refused {α β : Type} (r : Refusal) (f : α → Result β) :
    andThen (.refused r) f = .refused r := rfl

/-- A sequence answers next only through a next outcome of its first part. -/
theorem andThen_eq_next {α β : Type} {x : Result α} {f : α → Result β} {b : β} (h : andThen x f = .next b) :
    ∃ a, x = .next a ∧ f a = .next b := by
  cases x with
  | next a => exact ⟨a, rfl, h⟩
  | fault r => cases h
  | refused r => cases h

theorem andThen_assoc {α β γ : Type} (x : Result α) (f : α → Result β) (g : β → Result γ) :
    andThen (andThen x f) g = andThen x fun a => andThen (f a) g := by
  cases x <;> rfl

end Sys2Proof.Machine
end

