-- ==== Sys2Proof/Laws/Memory.lean ====
section
/-!
SUPPORT. The laws of byte storage: read after write, the canonical form is kept, and canonical memories that read
alike are equal.
-/

namespace Sys2Proof.Machine

@[simp] theorem Memory.read_nil (x : Nat) : Memory.read [] x = Memory.unlisted := rfl

/-- The parts of the canonical form of a list that is not empty. -/
theorem Memory.wfFrom_cons {bound low a : Nat} {v : Byte} {rest : Memory} :
    Memory.wfFrom bound low ((a, v) :: rest) = true ↔
      low ≤ a ∧ a < bound ∧ v ≠ Memory.unlisted ∧ Memory.wfFrom bound (a + 1) rest = true := by
  simp [Memory.wfFrom, and_assoc]

theorem Memory.wfFrom_mono {bound low low' : Nat} {m : Memory} (hl : low ≤ low')
    (h : Memory.wfFrom bound low' m = true) : Memory.wfFrom bound low m = true := by
  cases m with
  | nil => rfl
  | cons p rest =>
    obtain ⟨a, v⟩ := p
    rw [Memory.wfFrom_cons] at h ⊢
    exact ⟨by omega, h.2⟩

/-- Below the first listed address nothing is listed. -/
theorem Memory.read_below {bound low : Nat} {m : Memory} (h : Memory.wfFrom bound low m = true) {x : Nat}
    (hx : x < low) : Memory.read m x = Memory.unlisted := by
  induction m generalizing low with
  | nil => rfl
  | cons p rest ih =>
    obtain ⟨a, v⟩ := p
    rw [Memory.wfFrom_cons] at h
    have hne : a ≠ x := by omega
    simp only [Memory.read, hne, if_false]
    exact ih h.2.2.2 (by omega)

/-- A write keeps the canonical form. -/
theorem Memory.wfFrom_write {bound low : Nat} {m : Memory} (h : Memory.wfFrom bound low m = true) {x : Nat}
    (hl : low ≤ x) (hb : x < bound) (b : Byte) : Memory.wfFrom bound low (Memory.write m x b) = true := by
  induction m generalizing low with
  | nil =>
    by_cases hz : b = Memory.unlisted
    · simp [Memory.write, hz, Memory.wfFrom]
    · simp [Memory.write, hz, Memory.wfFrom, hl, hb]
  | cons p rest ih =>
    obtain ⟨a, v⟩ := p
    have h' := Memory.wfFrom_cons.mp h
    obtain ⟨h1, h2, h3, h4⟩ := h'
    unfold Memory.write
    by_cases hlt : x < a
    · by_cases hz : b = Memory.unlisted
      · simpa [hlt, hz] using h
      · simp only [hlt, hz, if_true, if_false]
        exact Memory.wfFrom_cons.mpr ⟨hl, hb, hz, Memory.wfFrom_cons.mpr ⟨by omega, h2, h3, h4⟩⟩
    · by_cases heq : x = a
      · subst heq
        by_cases hz : b = Memory.unlisted
        · simpa [hz] using Memory.wfFrom_mono (by omega) h4
        · simp only [hlt, hz, if_true, if_false]
          exact Memory.wfFrom_cons.mpr ⟨h1, h2, hz, h4⟩
      · simp only [hlt, heq, if_false]
        exact Memory.wfFrom_cons.mpr ⟨h1, h2, h3, ih h4 (by omega)⟩

theorem Memory.wf_write {m : Memory} (h : Memory.wf m = true) {x : Nat} (hx : x < fbCells) (b : Byte) :
    Memory.wf (Memory.write m x b) = true :=
  Memory.wfFrom_write h (Nat.zero_le x) hx b

/-- A read after a write gives the value written at its address and the old value everywhere else. -/
theorem Memory.read_writeFrom {bound low : Nat} {m : Memory} (h : Memory.wfFrom bound low m = true) (x y : Nat)
    (b : Byte) : Memory.read (Memory.write m x b) y = if x = y then b else Memory.read m y := by
  induction m generalizing low with
  | nil =>
    by_cases hz : b = Memory.unlisted
    · by_cases hxy : x = y <;> simp [Memory.write, hz, hxy]
    · by_cases hxy : x = y <;> simp [Memory.write, hz, hxy, Memory.read]
  | cons p rest ih =>
    obtain ⟨a, v⟩ := p
    obtain ⟨h1, h2, h3, h4⟩ := Memory.wfFrom_cons.mp h
    unfold Memory.write
    by_cases hlt : x < a
    · by_cases hz : b = Memory.unlisted
      · by_cases hxy : x = y
        · subst hxy
          have hbelow := Memory.read_below (Memory.wfFrom_cons.mpr ⟨Nat.le_refl a, h2, h3, h4⟩) hlt
          simp only [hlt, hz, if_true, hbelow]
        · simp [hlt, hz, hxy]
      · simp only [hlt, hz, if_true, if_false, Memory.read]
    · by_cases heq : x = a
      · subst heq
        by_cases hz : b = Memory.unlisted
        · by_cases hxy : x = y
          · subst hxy
            have hbelow := Memory.read_below h4 (Nat.lt_succ_self x)
            simp [hz, hbelow]
          · simp [hz, hxy, Memory.read]
        · by_cases hxy : x = y <;> simp [hz, hxy, Memory.read]
      · have := ih h4
        simp only [hlt, heq, if_false, Memory.read, this]
        by_cases hxy : x = y
        · subst hxy
          have hne : ¬ a = x := fun e => heq e.symm
          simp [hne]
        · simp [hxy]

theorem Memory.read_write {m : Memory} (h : Memory.wf m = true) (x y : Nat) (b : Byte) :
    Memory.read (Memory.write m x b) y = if x = y then b else Memory.read m y :=
  Memory.read_writeFrom h x y b

/-- Canonical memories that read alike are equal. -/
theorem Memory.extFrom {bound low : Nat} {m m' : Memory} (h : Memory.wfFrom bound low m = true)
    (h' : Memory.wfFrom bound low m' = true) (hr : ∀ x, Memory.read m x = Memory.read m' x) : m = m' := by
  induction m generalizing low m' with
  | nil =>
    cases m' with
    | nil => rfl
    | cons p rest =>
      obtain ⟨a, v⟩ := p
      have := hr a
      obtain ⟨-, -, h3, -⟩ := Memory.wfFrom_cons.mp h'
      simp only [Memory.read, if_true] at this
      exact absurd this.symm h3
  | cons p rest ih =>
    obtain ⟨a, v⟩ := p
    obtain ⟨h1, h2, h3, h4⟩ := Memory.wfFrom_cons.mp h
    cases m' with
    | nil =>
      have := hr a
      simp only [Memory.read, if_true] at this
      exact absurd this h3
    | cons p' rest' =>
      obtain ⟨a', v'⟩ := p'
      obtain ⟨h1', h2', h3', h4'⟩ := Memory.wfFrom_cons.mp h'
      have haa : a = a' := by
        rcases Nat.lt_trichotomy a a' with hlt | heq | hgt
        · have := hr a
          have hb := Memory.read_below (Memory.wfFrom_cons.mpr ⟨Nat.le_refl a', h2', h3', h4'⟩) hlt
          rw [hb] at this
          simp only [Memory.read, if_true] at this
          exact absurd this h3
        · exact heq
        · have := hr a'
          have hb := Memory.read_below (Memory.wfFrom_cons.mpr ⟨Nat.le_refl a, h2, h3, h4⟩) hgt
          rw [hb] at this
          simp only [Memory.read, if_true] at this
          exact absurd this.symm h3'
      subst haa
      have hv : v = v' := by simpa [Memory.read] using hr a
      subst hv
      have hrest : rest = rest' := by
        refine ih h4 h4' fun x => ?_
        by_cases hx : a = x
        · subst hx
          rw [Memory.read_below h4 (Nat.lt_succ_self a), Memory.read_below h4' (Nat.lt_succ_self a)]
        · simpa [Memory.read, hx] using hr x
      rw [hrest]

theorem Memory.ext_of_wf {m m' : Memory} (h : Memory.wf m = true) (h' : Memory.wf m' = true)
    (hr : ∀ x, Memory.read m x = Memory.read m' x) : m = m' :=
  Memory.extFrom h h' hr

theorem channelIndex_lt (ch : Channel) : ch.index < 3 := by cases ch <;> decide

/-- Every Frame Buffer access names one of the 120 cells (20_memory.md R61). -/
theorem fbAddr_lt (s : BitVec 2) (c : Fin 10) (ch : Channel) : fbAddr s c ch < fbCells := by
  have h1 := s.isLt
  have h2 := c.isLt
  have h3 := channelIndex_lt ch
  unfold fbAddr fbCells
  omega

/-- Two cells share an address only if they are the same cell. -/
theorem fbAddr_inj {s s' : BitVec 2} {c c' : Fin 10} {ch ch' : Channel} :
    fbAddr s c ch = fbAddr s' c' ch' ↔ s = s' ∧ c = c' ∧ ch = ch' := by
  constructor
  · intro h
    have h2 := c.isLt
    have h2' := c'.isLt
    have h3 := channelIndex_lt ch
    have h3' := channelIndex_lt ch'
    unfold fbAddr at h
    refine ⟨BitVec.eq_of_toNat_eq (by omega), Fin.ext (by omega), ?_⟩
    have : ch.index = ch'.index := by omega
    cases ch <;> cases ch' <;> first | rfl | (exact absurd this (by decide))
  · rintro ⟨rfl, rfl, rfl⟩
    rfl

/-- `FbRead` after `FbWrite`. -/
theorem fbRead_fbWrite {st : State} (h : Memory.wf st.fb = true) (s s' : BitVec 2) (c c' : Fin 10)
    (ch ch' : Channel) (v : Byte) :
    fbRead (fbWrite st s c ch v) s' c' ch' =
      if s = s' ∧ c = c' ∧ ch = ch' then v else fbRead st s' c' ch' := by
  simp only [fbRead, fbWrite, State.withFb_fb, Memory.read_write h, fbAddr_inj]

/-- `FbWrite` keeps the canonical form. -/
theorem fbWrite_wf {st : State} (h : Memory.wf st.fb = true) (s : BitVec 2) (c : Fin 10) (ch : Channel) (v : Byte) :
    Memory.wf (fbWrite st s c ch v).fb = true :=
  Memory.wf_write h (fbAddr_lt s c ch) v

end Sys2Proof.Machine
end

