-- ==== Sys2Proof/Laws/Color.lean ====
section
/-!
SUPPORT. What the sub-steps of a colour write do to the Frame Buffer, bit by bit, and that they touch nothing else.
-/

namespace Sys2Proof.Machine

/-! ## One bit of one cell -/

/-- One bit of one Frame Buffer cell. -/
def fbBit (st : State) (s : BitVec 2) (c : Fin 10) (ch : Channel) (j : Nat) : Bool := (fbRead st s c ch).getLsbD j

/-- What a sub-step makes of the bit `(s, c, ch, j)` that holds `b`. -/
def subStepBit (s : BitVec 2) (c : Fin 10) (ch : Channel) (j : Nat) (b : Bool) (p : SubStep) : Bool :=
  if p.stage = s ∧ p.col = c ∧ p.ch = ch ∧ p.row.val = j then p.on else b

theorem putRowBit_getLsbD (x : Byte) (row : Fin 6) (on : Bool) (j : Nat) :
    (putRowBit x row on).getLsbD j = if row.val = j then on else x.getLsbD j := by
  have hr := row.isLt
  unfold putRowBit rowBit
  by_cases hj : row.val = j
  · subst hj
    have h8 : row.val < 8 := by omega
    cases on <;> simp [h8]
  · by_cases h8 : j < 8
    · rcases Nat.lt_or_gt_of_ne hj with h | h
      · have h0 : ¬ j < row.val := by omega
        have h1 : ¬ j - row.val = 0 := by omega
        cases on <;> simp [h8, hj, h0, h1]
      · cases on <;> simp [h8, hj, h]
    · have hx : x.getLsbD j = false := BitVec.getLsbD_of_ge x j (by omega)
      cases on <;> simp [h8, hj, hx]

theorem putRowBit_lt {x : Byte} (hx : x.toNat < 64) (row : Fin 6) (on : Bool) : (putRowBit x row on).toNat < 64 := by
  have h : ∀ (row : Fin 6) (on : Bool), (if on then rowBit row else 0#8).toNat < 64 := by decide
  unfold putRowBit
  rw [BitVec.toNat_or, BitVec.toNat_and]
  exact Nat.or_lt_two_pow (n := 6) (Nat.lt_of_le_of_lt Nat.and_le_left hx) (h row on)

/-! ## One sub-step -/

theorem applySubStep_wf {st : State} (h : Memory.wf st.fb = true) (p : SubStep) :
    Memory.wf (applySubStep st p).fb = true :=
  fbWrite_wf h _ _ _ _

theorem fbRead_applySubStep {st : State} (h : Memory.wf st.fb = true) (p : SubStep) (s : BitVec 2) (c : Fin 10)
    (ch : Channel) :
    fbRead (applySubStep st p) s c ch =
      if p.stage = s ∧ p.col = c ∧ p.ch = ch then putRowBit (fbRead st s c ch) p.row p.on else fbRead st s c ch := by
  rw [applySubStep, fbRead_fbWrite h]
  by_cases hp : p.stage = s ∧ p.col = c ∧ p.ch = ch
  · obtain ⟨rfl, rfl, rfl⟩ := hp
    simp
  · simp [hp]

theorem fbBit_applySubStep {st : State} (h : Memory.wf st.fb = true) (p : SubStep) (s : BitVec 2) (c : Fin 10)
    (ch : Channel) (j : Nat) : fbBit (applySubStep st p) s c ch j = subStepBit s c ch j (fbBit st s c ch j) p := by
  unfold fbBit subStepBit
  rw [fbRead_applySubStep h]
  by_cases hp : p.stage = s ∧ p.col = c ∧ p.ch = ch
  · obtain ⟨h1, h2, h3⟩ := hp
    simp [h1, h2, h3, putRowBit_getLsbD]
  · have : ¬ (p.stage = s ∧ p.col = c ∧ p.ch = ch ∧ p.row.val = j) := fun hq => hp ⟨hq.1, hq.2.1, hq.2.2.1⟩
    simp [hp, this]

/-! ## A list of sub-steps -/

@[simp] theorem applySubSteps_nil (st : State) : applySubSteps st [] = st := rfl

@[simp] theorem applySubSteps_cons (st : State) (p : SubStep) (ps : List SubStep) :
    applySubSteps st (p :: ps) = applySubSteps (applySubStep st p) ps := rfl

/-- Sub-steps write the Frame Buffer and nothing else (43_color.md R200). -/
theorem applySubSteps_frame (st : State) (ps : List SubStep) :
    applySubSteps st ps = st.withFb (applySubSteps st ps).fb := by
  induction ps generalizing st with
  | nil => rfl
  | cons p ps ih =>
    rw [applySubSteps_cons, ih (applySubStep st p)]
    rfl

/-- What sub-steps make of the Frame Buffer depends on the Frame Buffer alone. -/
theorem applySubSteps_congr (ps : List SubStep) {a b : State} (h : a.fb = b.fb) :
    (applySubSteps a ps).fb = (applySubSteps b ps).fb := by
  induction ps generalizing a b with
  | nil => exact h
  | cons p ps ih => exact ih (by simp only [applySubStep, fbWrite, fbRead, State.withFb_fb, h])

theorem applySubSteps_wf {st : State} (h : Memory.wf st.fb = true) (ps : List SubStep) :
    Memory.wf (applySubSteps st ps).fb = true := by
  induction ps generalizing st with
  | nil => exact h
  | cons p ps ih => exact ih (applySubStep_wf h p)

theorem fbBit_applySubSteps {st : State} (h : Memory.wf st.fb = true) (ps : List SubStep) (s : BitVec 2)
    (c : Fin 10) (ch : Channel) (j : Nat) :
    fbBit (applySubSteps st ps) s c ch j = ps.foldl (subStepBit s c ch j) (fbBit st s c ch j) := by
  induction ps generalizing st with
  | nil => rfl
  | cons p ps ih => rw [applySubSteps_cons, ih (applySubStep_wf h p), fbBit_applySubStep h, List.foldl_cons]

/-! ## Rows 0 to 5 only -/

theorem FbRowsOnly_write {m : Memory} (h : FbRowsOnly m) (x : Nat) {b : Byte} (hb : b.toNat < 64) :
    FbRowsOnly (Memory.write m x b) := by
  induction m with
  | nil =>
    unfold Memory.write
    split
    · intro p hp
      cases hp
    · intro p hp
      simp only [List.mem_singleton] at hp
      subst hp
      exact hb
  | cons q rest ih =>
    obtain ⟨a, v⟩ := q
    have hrest : FbRowsOnly rest := fun p hp => h p (List.mem_cons_of_mem _ hp)
    have hv : v.toNat < 64 := h (a, v) List.mem_cons_self
    unfold Memory.write
    split
    · split
      · exact h
      · intro p hp
        rcases List.mem_cons.mp hp with rfl | hp
        · exact hb
        · exact h p hp
    · split
      · split
        · exact hrest
        · intro p hp
          rcases List.mem_cons.mp hp with rfl | hp
          · exact hb
          · exact hrest p hp
      · intro p hp
        rcases List.mem_cons.mp hp with rfl | hp
        · exact hv
        · exact ih hrest p hp

theorem FbRowsOnly_read {m : Memory} (h : FbRowsOnly m) (x : Nat) : (Memory.read m x).toNat < 64 := by
  induction m with
  | nil => exact (by decide : (0#8).toNat < 64)
  | cons q rest ih =>
    obtain ⟨a, v⟩ := q
    unfold Memory.read
    split
    · exact h (a, v) List.mem_cons_self
    · exact ih fun p hp => h p (List.mem_cons_of_mem _ hp)

theorem applySubSteps_rowsOnly {st : State} (h : FbRowsOnly st.fb) (ps : List SubStep) :
    FbRowsOnly (applySubSteps st ps).fb := by
  induction ps generalizing st with
  | nil => exact h
  | cons p ps ih => exact ih (FbRowsOnly_write h _ (putRowBit_lt (FbRowsOnly_read h _) _ _))

/-! ## The two forms of a colour write -/

/-- A memory is known by its bits. -/
theorem fb_ext {st st' : State} (h : Memory.wf st.fb = true) (h' : Memory.wf st'.fb = true)
    (hb : ∀ (s : BitVec 2) (c : Fin 10) (ch : Channel) (j : Nat), fbBit st s c ch j = fbBit st' s c ch j) :
    st.fb = st'.fb := by
  refine Memory.ext_of_wf h h' fun x => ?_
  by_cases hx : x < fbCells
  · have hch : ∃ ch : Channel, ch.index = x % 3 := by
      have : x % 3 < 3 := Nat.mod_lt _ (by decide)
      interval_cases x % 3
      exacts [⟨.red, rfl⟩, ⟨.green, rfl⟩, ⟨.blue, rfl⟩]
    obtain ⟨ch, hch⟩ := hch
    have hs : x / 30 < 4 := by unfold fbCells at hx; omega
    have haddr : fbAddr (BitVec.ofNat 2 (x / 30)) ⟨x / 3 % 10, Nat.mod_lt _ (by decide)⟩ ch = x := by
      have : (BitVec.ofNat 2 (x / 30)).toNat = x / 30 := by simpa using Nat.mod_eq_of_lt hs
      unfold fbAddr
      rw [this, hch]
      simp only
      omega
    rw [← haddr]
    refine BitVec.eq_of_getLsbD_eq fun j hj => ?_
    exact hb _ _ _ j
  · have habove : ∀ (m : Memory) (low : Nat), Memory.wfFrom fbCells low m = true → Memory.read m x = Memory.unlisted := by
      intro m
      induction m with
      | nil => intros; rfl
      | cons q rest ih =>
        obtain ⟨a, v⟩ := q
        intro low hw
        obtain ⟨-, h2, -, h4⟩ := Memory.wfFrom_cons.mp hw
        have hne : a ≠ x := by omega
        simpa [Memory.read, hne] using ih _ h4
    rw [habove _ _ h, habove _ _ h']

/-- The bit `(s, c, ch, j)` of the Frame Buffer after a colour write of `v` to `(row, col)`. -/
def encodedBit (row : Fin 6) (col : Fin 10) (v : Rgb) (s : BitVec 2) (c : Fin 10) (ch : Channel) (j : Nat)
    (b : Bool) : Bool :=
  if col = c ∧ row.val = j then (v.channel ch).getLsbD s.toNat else b

/-- Sub-steps that do not name the bit leave it. -/
theorem foldl_subStepBit_other {s : BitVec 2} {c : Fin 10} {ch : Channel} {j : Nat} {l : List SubStep}
    (h : ∀ p ∈ l, ¬ (p.stage = s ∧ p.col = c ∧ p.row.val = j)) (b : Bool) :
    l.foldl (subStepBit s c ch j) b = b := by
  induction l generalizing b with
  | nil => rfl
  | cons p ps ih =>
    have hp : subStepBit s c ch j b p = b :=
      if_neg fun hq => h p List.mem_cons_self ⟨hq.1, hq.2.1, hq.2.2.2⟩
    rw [List.foldl_cons, hp]
    exact ih (fun q hq => h q (List.mem_cons_of_mem _ hq)) b

theorem stage_cases : ∀ s : BitVec 2, s = 0 ∨ s = 1 ∨ s = 2 ∨ s = 3 := by decide

theorem foldl_bamCells (row : Fin 6) (col : Fin 10) (v : Rgb) (s : BitVec 2) (c : Fin 10) (ch : Channel) (j : Nat)
    (b : Bool) : (bamCells row col v).foldl (subStepBit s c ch j) b = encodedBit row col v s c ch j b := by
  unfold encodedBit
  split
  · rename_i hc
    obtain ⟨rfl, rfl⟩ := hc
    rcases stage_cases s with rfl | rfl | rfl | rfl <;> cases ch <;>
      simp [bamCells, allStages, Channel.all, subStepBit]
  · rename_i hc
    refine foldl_subStepBit_other (fun p hp hq => hc ?_) b
    simp only [bamCells, List.mem_flatMap, List.mem_map] at hp
    obtain ⟨i, -, ch', -, rfl⟩ := hp
    exact hq.2

/-- The sub-steps of one stage of a torn colour write (20_memory.md R70). -/
def tornStage (row : Fin 6) (col : Fin 10) (v : Rgb) (i : BitVec 2) : List SubStep :=
  (Channel.all.map fun ch => ⟨i, col, ch, row, false⟩) ++
    ((Channel.all.filter fun ch => (v.channel ch).getLsbD i.toNat).map fun ch => ⟨i, col, ch, row, true⟩)

theorem mem_tornStage {row : Fin 6} {col : Fin 10} {v : Rgb} {i : BitVec 2} {p : SubStep}
    (h : p ∈ tornStage row col v i) : p.stage = i ∧ p.col = col ∧ p.row = row := by
  simp only [tornStage, List.mem_append, List.mem_map, List.mem_filter] at h
  obtain ⟨ch', -, rfl⟩ | ⟨ch', -, rfl⟩ := h <;> exact ⟨rfl, rfl, rfl⟩

theorem foldl_tornStage_same (row : Fin 6) (col : Fin 10) (v : Rgb) (s : BitVec 2) (ch : Channel) (b : Bool) :
    (tornStage row col v s).foldl (subStepBit s col ch row.val) b = (v.channel ch).getLsbD s.toNat := by
  cases hr : (v.channel .red).getLsbD s.toNat <;> cases hg : (v.channel .green).getLsbD s.toNat <;>
    cases hb : (v.channel .blue).getLsbD s.toNat <;> cases ch <;>
    simp [tornStage, Channel.all, subStepBit, hr, hg, hb]

theorem foldl_tornSteps (row : Fin 6) (col : Fin 10) (v : Rgb) (s : BitVec 2) (c : Fin 10) (ch : Channel) (j : Nat)
    (b : Bool) : (tornSteps row col v).foldl (subStepBit s c ch j) b = encodedBit row col v s c ch j b := by
  have hcat : tornSteps row col v =
      tornStage row col v 0 ++ (tornStage row col v 1 ++ (tornStage row col v 2 ++ (tornStage row col v 3 ++ []))) := rfl
  have hother : ∀ i b, i ≠ s → (tornStage row col v i).foldl (subStepBit s c ch j) b = b := fun i b hi =>
    foldl_subStepBit_other (fun p hp hq => hi ((mem_tornStage hp).1.symm.trans hq.1)) b
  unfold encodedBit
  split
  · rename_i hc
    obtain ⟨rfl, rfl⟩ := hc
    rw [hcat]
    simp only [List.foldl_append, List.foldl_nil]
    rcases stage_cases s with rfl | rfl | rfl | rfl <;>
      simp (disch := decide) only [hother, foldl_tornStage_same]
  · rename_i hc
    refine foldl_subStepBit_other (fun p hp hq => ?_) b
    rw [hcat] at hp
    simp only [List.mem_append, List.not_mem_nil, or_false] at hp
    obtain ⟨-, h2, h3⟩ : p.stage = p.stage ∧ p.col = col ∧ p.row = row := by
      rcases hp with hp | hp | hp | hp <;> exact ⟨rfl, (mem_tornStage hp).2⟩
    exact hc ⟨h2.symm.trans hq.2.1, by rw [← h3]; exact hq.2.2⟩

/-- The atomic colour write, bit by bit. -/
theorem fbBit_bamCells {st : State} (h : Memory.wf st.fb = true) (row : Fin 6) (col : Fin 10) (v : Rgb)
    (s : BitVec 2) (c : Fin 10) (ch : Channel) (j : Nat) :
    fbBit (applySubSteps st (bamCells row col v)) s c ch j = encodedBit row col v s c ch j (fbBit st s c ch j) := by
  rw [fbBit_applySubSteps h, foldl_bamCells]

/-- The whole sequence of sub-steps of a torn colour write, bit by bit: the same. -/
theorem fbBit_tornSteps {st : State} (h : Memory.wf st.fb = true) (row : Fin 6) (col : Fin 10) (v : Rgb)
    (s : BitVec 2) (c : Fin 10) (ch : Channel) (j : Nat) :
    fbBit (applySubSteps st (tornSteps row col v)) s c ch j = encodedBit row col v s c ch j (fbBit st s c ch j) := by
  rw [fbBit_applySubSteps h, foldl_tornSteps]

/-! ## The colour commands -/

/-- A list of sub-steps that writes the bits of one LED writes that LED and nothing else. -/
theorem ledWritten_of_bits {s : State} {ps : List SubStep} {row : Fin 6} {col : Fin 10} {v : Rgb}
    (hb : ∀ st c ch j,
      fbBit (applySubSteps s ps) st c ch j = encodedBit row col v st c ch j (fbBit s st c ch j)) :
    LedWritten s (applySubSteps s ps) row col v := by
  refine ⟨applySubSteps_frame s ps, ?_, ?_⟩
  · intro ch
    have h : ∀ i, (fbRead (applySubSteps s ps) i col ch).getLsbD row.val = (v.channel ch).getLsbD i.toNat := by
      intro i
      have := hb i col ch row.val
      unfold fbBit encodedBit at this
      simpa using this
    unfold intensity
    simp only [h]
    generalize v.channel ch = x
    revert x
    decide
  · intro st c ch j hn
    have := hb st c ch j
    unfold fbBit encodedBit at this
    rw [this, if_neg]
    rintro ⟨a, b⟩
    exact hn ⟨a.symm, b.symm⟩

theorem rowOfByte_eq {b : Byte} {r : Fin 6} (h : b.toNat = r.val) : rowOfByte b = some r := by
  unfold rowOfByte
  rw [dif_pos (by omega)]
  simp [h]

theorem columnOfByte_eq {b : Byte} {c : Fin 10} (h : b.toNat = c.val) : columnOfByte b = some c := by
  unfold columnOfByte
  rw [dif_pos (by omega)]
  simp [h]

theorem bamEncode_atomic {a : Agent} {r : Fin 6} {c : Fin 10} {v : Rgb} {s : State} (h : s.cfg.tear = false) :
    bamEncode a r c v s = applySubSteps s (bamCells r c v) := by
  unfold bamEncode
  rw [if_neg (by simp [h])]

/-- What BAM_ENCODE leaves alone: everything but the Frame Buffer and the update in progress. -/
theorem bamEncode_frame (a : Agent) (r : Fin 6) (c : Fin 10) (v : Rgb) (s : State) :
    ∃ m u, bamEncode a r c v s = (s.withFb m).withUpdate u := by
  unfold bamEncode
  split
  · unfold finishUpdate
    split
    · exact ⟨s.fb, _, rfl⟩
    · split
      · exact ⟨s.fb, _, rfl⟩
      · rw [applySubSteps_frame]
        exact ⟨_, _, rfl⟩
  · rw [applySubSteps_frame]
    exact ⟨(applySubSteps s (bamCells r c v)).fb, s.update, by cases s; rfl⟩

theorem setRgb_inRange {a : Agent} {row col : Byte} {v : Rgb} {s : State} {r : Fin 6} {c : Fin 10}
    (hh : s.halted = false) (h1 : row.toNat = r.val) (h2 : col.toNat = c.val) :
    setRgb a row col v s = bamEncode a r c v s := by
  unfold setRgb
  rw [if_neg (by simp [hh]), rowOfByte_eq h1, columnOfByte_eq h2]

theorem setRgb_frame (a : Agent) (row col : Byte) (v : Rgb) (s : State) :
    ∃ m u, setRgb a row col v s = (s.withFb m).withUpdate u := by
  unfold setRgb
  split
  · exact ⟨s.fb, s.update, rfl⟩
  · split
    · exact bamEncode_frame a _ _ v s
    · exact ⟨s.fb, s.update, rfl⟩

theorem setColor_inRange {b0 b1 b2 b3 : Byte} {s : State} {r : Fin 6} {c : Fin 10}
    (hh : s.halted = false) (h1 : b0.toNat = r.val) (h2 : b1.toNat = c.val) :
    setColor b0 b1 b2 b3 s =
      if isOnByte b2 then bamEncode .hostBus r c (s.cfg.lookup b3) (s.send (.ctIdx b3))
      else bamEncode .hostBus r c Rgb.off s := by
  unfold setColor
  rw [if_neg (by simp [hh]), rowOfByte_eq h1, columnOfByte_eq h2]
  simp only
  rw [setRgb_inRange hh h1 h2, setRgb_inRange (s := s.send _) hh h1 h2]

theorem setColor_frame (b0 b1 b2 b3 : Byte) (s : State) :
    ∃ m u o, setColor b0 b1 b2 b3 s = { (s.withFb m).withUpdate u with out := o } := by
  unfold setColor
  split
  · exact ⟨s.fb, s.update, s.out, rfl⟩
  · split
    · split
      · obtain ⟨m, u, h⟩ := setRgb_frame .hostBus b0 b1 (s.cfg.lookup b3) (s.send (.ctIdx b3))
        rw [h]
        exact ⟨m, u, _, rfl⟩
      · obtain ⟨m, u, h⟩ := setRgb_frame .hostBus b0 b1 Rgb.off s
        rw [h]
        exact ⟨m, u, s.out, rfl⟩
    · exact ⟨s.fb, s.update, s.out, rfl⟩

/-- A torn update has at most 24 sub-steps. -/
theorem length_tornSteps (r : Fin 6) (c : Fin 10) (v : Rgb) : (tornSteps r c v).length ≤ 24 := by
  unfold tornSteps allStages
  simp only [List.flatMap_cons, List.flatMap_nil, List.length_append, List.length_map, List.length_nil]
  have h : ∀ i : BitVec 2, (Channel.all.filter fun ch => (v.channel ch).getLsbD i.toNat).length ≤ 3 :=
    fun i => List.length_filter_le _ Channel.all
  have h3 : Channel.all.length = 3 := rfl
  rw [h3]
  have h0 := h 0
  have h1 := h 1
  have h2 := h 2
  have h4 := h 3
  omega

end Sys2Proof.Machine
end

