-- ==== Sys2Proof/Laws/Queue.lean ====
section
/-!
SUPPORT. The event queue: cursor arithmetic, the unread events as a list, and what each queue operation can do.
-/

namespace Sys2Proof.Machine

/-! ## Cursor arithmetic -/

theorem capacity_pos (c : Config) : 0 < c.capacity := Nat.two_pow_pos _

theorem nextIndex_lt {c : Nat} (hc : 0 < c) (i : Nat) : nextIndex c i < c := Nat.mod_lt _ hc

theorem nextIndex_eq {c i : Nat} (hi : i < c) : nextIndex c i = if i + 1 = c then 0 else i + 1 := by
  unfold nextIndex
  split
  · rename_i h
    rw [h, Nat.mod_self]
  · exact Nat.mod_eq_of_lt (by omega)

theorem gapTo_lt {c : Nat} (hc : 0 < c) (a b : Nat) : gapTo c a b < c := Nat.mod_lt _ hc

theorem gapTo_eq {c a b : Nat} (ha : a < c) (hb : b < c) : gapTo c a b = if a ≤ b then b - a else b + c - a := by
  unfold gapTo
  rw [Nat.mod_eq_of_lt ha]
  split
  · have h : b + c - a = (b - a) + c := by omega
    rw [h, Nat.add_mod_right, Nat.mod_eq_of_lt (by omega)]
  · exact Nat.mod_eq_of_lt (by omega)

theorem add_mod_eq {c i n : Nat} (hi : i < c) (hn : n ≤ c) : (i + n) % c = if i + n < c then i + n else i + n - c := by
  split
  · rename_i h
    exact Nat.mod_eq_of_lt h
  · have h : i + n = (i + n - c) + c := by omega
    rw [h, Nat.add_mod_right, Nat.mod_eq_of_lt (by omega)]
    omega

/-- A view moves forward, stays inside the cycle and never passes the cursor (42_event_queue.md R179). -/
theorem moveView_spec {c draw view cursor : Nat} (hv : view < c) (hr : cursor < c) :
    moveView c draw view cursor < c ∧
    gapTo c (moveView c draw view cursor) cursor = gapTo c view cursor - min draw (gapTo c view cursor) := by
  have hc : 0 < c := by omega
  have hm : moveView c draw view cursor < c := Nat.mod_lt _ hc
  refine ⟨hm, ?_⟩
  have hg := gapTo_lt hc view cursor
  obtain ⟨j, hj⟩ : ∃ j, j = min draw (gapTo c view cursor) := ⟨_, rfl⟩
  have hjg : j ≤ gapTo c view cursor := by omega
  have he : moveView c draw view cursor = if view + j < c then view + j else view + j - c := by
    unfold moveView
    rw [← hj]
    exact add_mod_eq hv (by omega)
  rw [← hj, gapTo_eq hm hr, he]
  rw [gapTo_eq hv hr] at hjg ⊢
  by_cases h1 : view ≤ cursor <;> by_cases h2 : view + j < c <;> simp only [h1, h2, if_true, if_false] at hjg ⊢ <;>
    split <;> omega

/-! ## The unread events -/

theorem slotsFrom_snoc (slots : List ButtonEvent) {c i : Nat} (hi : i < c) (n : Nat) :
    slotsFrom slots c (n + 1) i = slotsFrom slots c n i ++ (slots[(i + n) % c]?).toList := by
  induction n generalizing i with
  | zero => simp [slotsFrom, Nat.mod_eq_of_lt hi]
  | succ n ih =>
    have hstep : (nextIndex c i + n) % c = (i + (n + 1)) % c := by
      unfold nextIndex
      rw [Nat.mod_add_mod]
      congr 1
      omega
    rw [slotsFrom, ih (nextIndex_lt (by omega) i), hstep]
    simp [slotsFrom]

/-- A write outside the slots of a run leaves the run. -/
theorem slotsFrom_set (slots : List ButtonEvent) (e : ButtonEvent) {c i w : Nat} (hi : i < c) (n : Nat)
    (hw : ∀ m, m < n → (i + m) % c ≠ w) : slotsFrom (slots.set w e) c n i = slotsFrom slots c n i := by
  induction n generalizing i with
  | zero => rfl
  | succ n ih =>
    have h0 : w ≠ i := by
      have := hw 0 (by omega)
      rw [Nat.add_zero, Nat.mod_eq_of_lt hi] at this
      exact fun h => this h.symm
    rw [slotsFrom, slotsFrom, List.getElem?_set_ne h0, ih (nextIndex_lt (by omega) i)]
    intro m hm
    have := hw (m + 1) (by omega)
    unfold nextIndex
    rw [Nat.mod_add_mod]
    have he : i + 1 + m = i + (m + 1) := by omega
    rwa [he]

theorem length_slotsFrom {slots : List ButtonEvent} {c i : Nat} (hl : slots.length = c) (hi : i < c) (n : Nat) :
    (slotsFrom slots c n i).length = n := by
  induction n generalizing i with
  | zero => rfl
  | succ n ih =>
    rw [slotsFrom, List.length_append, ih (nextIndex_lt (by omega) i), List.getElem?_eq_getElem (by omega)]
    simp
    omega

/-- The part of the invariant the queue's operations need (10_state.md R33). -/
structure QueueOk (s : State) : Prop where
  slotCount  : s.q.slots.length = s.cfg.capacity
  writeIndex : s.q.w < s.cfg.capacity
  readIndex  : s.q.r < s.cfg.capacity

theorem BlockInv.queueOk {s : State} (h : BlockInv s) : QueueOk s := ⟨h.slotCount, h.writeIndex, h.readIndex⟩

theorem occupancy_lt (s : State) : occupancy s < s.cfg.capacity := gapTo_lt (capacity_pos _) _ _

/-- There are `N` unread events (42_event_queue.md R174). -/
theorem length_unread {s : State} (h : QueueOk s) : (unread s).length = occupancy s :=
  length_slotsFrom h.slotCount h.readIndex _

/-- Full is `N = C − 1` (42_event_queue.md R174). -/
theorem full_iff {s : State} (h : QueueOk s) :
    nextIndex s.cfg.capacity s.q.w = s.q.r ↔ occupancy s = s.cfg.capacity - 1 := by
  have hw := h.writeIndex
  have hr := h.readIndex
  unfold occupancy
  rw [nextIndex_eq hw, gapTo_eq hr hw]
  constructor
  · intro hn
    split at hn <;> split <;> omega
  · intro hn
    split at hn <;> split <;> omega

/-- Empty is `N = 0` (42_event_queue.md R174). -/
theorem empty_iff {s : State} (h : QueueOk s) : s.q.w = s.q.r ↔ occupancy s = 0 := by
  have hw := h.writeIndex
  have hr := h.readIndex
  unfold occupancy
  rw [gapTo_eq hr hw]
  constructor
  · intro hn
    split <;> omega
  · intro hn
    split at hn <;> omega

/-! ## Slot access -/

/-- The state after the write of a slot and of the write cursor. -/
def pushed (e : ButtonEvent) (s : State) : State :=
  s.withQueue { s.q with slots := s.q.slots.set s.q.w e, w := nextIndex s.cfg.capacity s.q.w }

/-- The state after the read cursor has moved one on. -/
def popped (s : State) : State := s.withQueue { s.q with r := nextIndex s.cfg.capacity s.q.r }

theorem pushSlot_next {s t : State} {e : ButtonEvent} (h : pushSlot e s = .next t) : t = pushed e s := by
  unfold pushSlot at h
  split at h
  · cases h
    rfl
  · cases h

theorem pushSlot_ok {s : State} (h : QueueOk s) (e : ButtonEvent) : pushSlot e s = .next (pushed e s) := by
  unfold pushSlot pushed
  rw [if_pos (by rw [h.slotCount]; exact h.writeIndex)]

theorem popSlot_next {s t : State} {e : ButtonEvent} (h : popSlot s = .next (e, t)) :
    t = popped s ∧ s.q.slots[s.q.r]? = some e := by
  unfold popSlot at h
  split at h
  · rename_i e' he
    cases h
    exact ⟨rfl, he⟩
  · cases h

theorem popSlot_ok {s : State} (h : QueueOk s) :
    ∃ e, s.q.slots[s.q.r]? = some e ∧ popSlot s = .next (e, popped s) := by
  have hlt : s.q.r < s.q.slots.length := by rw [h.slotCount]; exact h.readIndex
  refine ⟨s.q.slots[s.q.r], List.getElem?_eq_getElem hlt, ?_⟩
  unfold popSlot
  rw [List.getElem?_eq_getElem hlt]
  rfl

theorem pushed_queueOk {s : State} (h : QueueOk s) (e : ButtonEvent) : QueueOk (pushed e s) :=
  ⟨by simpa [pushed] using h.slotCount, nextIndex_lt (capacity_pos _) _, h.readIndex⟩

theorem popped_queueOk {s : State} (h : QueueOk s) : QueueOk (popped s) :=
  ⟨h.slotCount, h.writeIndex, nextIndex_lt (capacity_pos _) _⟩

theorem occupancy_pushed {s : State} (h : QueueOk s) (e : ButtonEvent) (hf : occupancy s ≠ s.cfg.capacity - 1) :
    occupancy (pushed e s) = occupancy s + 1 := by
  have hw := h.writeIndex
  have hr := h.readIndex
  have hn := nextIndex_lt (capacity_pos s.cfg) s.q.w
  show gapTo s.cfg.capacity s.q.r (nextIndex s.cfg.capacity s.q.w) = gapTo s.cfg.capacity s.q.r s.q.w + 1
  unfold occupancy at hf
  rw [gapTo_eq hr hn, gapTo_eq hr hw, nextIndex_eq hw]
  rw [gapTo_eq hr hw] at hf
  split at hf <;> split <;> split <;> omega

theorem occupancy_popped {s : State} (h : QueueOk s) (he : occupancy s ≠ 0) :
    occupancy (popped s) + 1 = occupancy s := by
  have hw := h.writeIndex
  have hr := h.readIndex
  have hn := nextIndex_lt (capacity_pos s.cfg) s.q.r
  show gapTo s.cfg.capacity (nextIndex s.cfg.capacity s.q.r) s.q.w + 1 = gapTo s.cfg.capacity s.q.r s.q.w
  unfold occupancy at he
  rw [gapTo_eq hn hw, gapTo_eq hr hw, nextIndex_eq hr]
  rw [gapTo_eq hr hw] at he
  split at he <;> split <;> split <;> omega

/-- The write cursor is `N` places after the read cursor. -/
theorem readIndex_add_occupancy {s : State} (h : QueueOk s) : (s.q.r + occupancy s) % s.cfg.capacity = s.q.w := by
  have hw := h.writeIndex
  have hr := h.readIndex
  unfold occupancy
  have hg := gapTo_lt (capacity_pos s.cfg) s.q.r s.q.w
  rw [add_mod_eq hr (by omega), gapTo_eq hr hw]
  split <;> split <;> omega

/-- A written event is the newest of the unread ones (42_event_queue.md R176). -/
theorem unread_pushed {s : State} (h : QueueOk s) (e : ButtonEvent) (hf : occupancy s ≠ s.cfg.capacity - 1) :
    unread (pushed e s) = unread s ++ [e] := by
  have hlt := occupancy_lt s
  have hr := h.readIndex
  have hw := h.writeIndex
  unfold unread
  rw [occupancy_pushed h e hf]
  show slotsFrom (s.q.slots.set s.q.w e) s.cfg.capacity (occupancy s + 1) s.q.r = _
  rw [slotsFrom_snoc _ hr, readIndex_add_occupancy h]
  have hset : (s.q.slots.set s.q.w e)[s.q.w]? = some e := by
    rw [List.getElem?_set_self (by rw [h.slotCount]; exact hw)]
  rw [hset, slotsFrom_set _ _ hr]
  · rfl
  · intro m hm heq
    rw [← readIndex_add_occupancy h, add_mod_eq hr (by omega), add_mod_eq hr (by omega)] at heq
    split at heq <;> split at heq <;> omega

/-- A read takes the oldest unread event (42_event_queue.md R176). -/
theorem unread_popped {s : State} (h : QueueOk s) (he : occupancy s ≠ 0) {e : ButtonEvent}
    (hs : s.q.slots[s.q.r]? = some e) : unread s = e :: unread (popped s) := by
  obtain ⟨n, hn⟩ : ∃ n, occupancy s = n + 1 := ⟨occupancy s - 1, by omega⟩
  have hp : occupancy (popped s) = n := by
    have := occupancy_popped h he
    omega
  unfold unread
  rw [hn, hp, slotsFrom, hs]
  rfl

/-! ## The tests -/

/-- With exact views a test looks at the cursor itself. -/
theorem lookProducer_exact {s : State} (h : s.cfg.staleView = false) : lookProducer s = s := by
  simp [lookProducer, h]

theorem lookConsumer_exact {s : State} (h : s.cfg.staleView = false) : lookConsumer s = s := by
  simp [lookConsumer, h]

/-- A look moves the producer's view, its watch and its draw, nothing else. -/
theorem lookProducer_cases (s : State) : lookProducer s = s ∨ ∃ v w, lookProducer s = s.withRv v w := by
  unfold lookProducer
  split
  · exact .inr ⟨_, _, rfl⟩
  · exact .inl rfl

theorem lookConsumer_cases (s : State) : lookConsumer s = s ∨ ∃ v w, lookConsumer s = s.withWv v w := by
  unfold lookConsumer
  split
  · exact .inr ⟨_, _, rfl⟩
  · exact .inl rfl

theorem queueFull_exact {s : State} (h : s.cfg.staleView = false) (hq : QueueOk s) :
    queueFull s = true ↔ occupancy s = s.cfg.capacity - 1 := by
  unfold queueFull seenR
  simp only [h, beq_iff_eq]
  exact full_iff hq

theorem queueEmpty_exact {s : State} (h : s.cfg.staleView = false) (hq : QueueOk s) :
    queueEmpty s = true ↔ occupancy s = 0 := by
  unfold queueEmpty seenW
  simp only [h, beq_iff_eq]
  exact empty_iff hq

/-! ## What a queue operation can do -/

/-- QUEUE_WRITE answers next in two ways: full, or the event is pushed. -/
theorem queueWrite_cases {s t : State} {e : ButtonEvent} {ok : Bool} (h : queueWrite e s = .next (ok, t)) :
    (ok = false ∧ queueFull (lookProducer s) = true ∧ t = lookProducer s) ∨
    (ok = true ∧ queueFull (lookProducer s) = false ∧ t = pushed e (lookProducer s)) := by
  unfold queueWrite at h
  simp only at h
  split at h
  · rename_i hf
    cases h
    exact .inl ⟨rfl, hf, rfl⟩
  · rename_i hf
    obtain ⟨u, hu, hn⟩ := andThen_eq_next h
    cases hn
    exact .inr ⟨rfl, by simpa using hf, pushSlot_next hu⟩

/-- QUEUE_READ answers next in two ways: empty, or the oldest event is popped. -/
theorem queueRead_cases {s t : State} {r : Option ButtonEvent} (h : queueRead s = .next (r, t)) :
    (r = none ∧ queueEmpty (lookConsumer s) = true ∧ t = lookConsumer s) ∨
    (∃ e, r = some e ∧ queueEmpty (lookConsumer s) = false ∧ t = popped (lookConsumer s) ∧
      (lookConsumer s).q.slots[(lookConsumer s).q.r]? = some e) := by
  unfold queueRead at h
  simp only at h
  split at h
  · rename_i hf
    cases h
    exact .inl ⟨rfl, hf, rfl⟩
  · rename_i hf
    obtain ⟨⟨e, u⟩, hu, hn⟩ := andThen_eq_next h
    cases hn
    obtain ⟨h1, h2⟩ := popSlot_next hu
    exact .inr ⟨e, rfl, by simpa using hf, h1, h2⟩

/-- QUEUE_WRITE_DROP answers next in one way: the event is pushed, after the oldest made room if the queue is
full. -/
theorem queueWriteDrop_cases {s t : State} {e : ButtonEvent} (h : queueWriteDrop e s = .next t) :
    s.cfg.staleView = false ∧
    ((nextIndex s.cfg.capacity s.q.w = s.q.r ∧ t = pushed e (popped s)) ∨
     (nextIndex s.cfg.capacity s.q.w ≠ s.q.r ∧ t = pushed e s)) := by
  unfold queueWriteDrop at h
  split at h
  · cases h
  · rename_i hs
    refine ⟨by simpa using hs, ?_⟩
    split at h
    · rename_i hf
      exact .inl ⟨hf, pushSlot_next h⟩
    · rename_i hf
      exact .inr ⟨hf, pushSlot_next h⟩

theorem lookProducer_queueOk {s : State} (h : QueueOk s) : QueueOk (lookProducer s) := by
  rcases lookProducer_cases s with hs | ⟨v, w, hs⟩ <;> rw [hs]
  · exact h
  · exact ⟨h.1, h.2, h.3⟩

theorem lookConsumer_queueOk {s : State} (h : QueueOk s) : QueueOk (lookConsumer s) := by
  rcases lookConsumer_cases s with hs | ⟨v, w, hs⟩ <;> rw [hs]
  · exact h
  · exact ⟨h.1, h.2, h.3⟩

/-- With cursors inside the array QUEUE_WRITE always answers. -/
theorem queueWrite_ok {s : State} (h : QueueOk s) (e : ButtonEvent) :
    queueWrite e s = if queueFull (lookProducer s) then .next (false, lookProducer s)
      else .next (true, pushed e (lookProducer s)) := by
  unfold queueWrite
  simp only [pushSlot_ok (lookProducer_queueOk h), andThen_next]

/-- With cursors inside the array QUEUE_READ always answers. -/
theorem queueRead_ok {s : State} (h : QueueOk s) :
    ∃ e, (lookConsumer s).q.slots[(lookConsumer s).q.r]? = some e ∧
      queueRead s = if queueEmpty (lookConsumer s) then .next (none, lookConsumer s)
        else .next (some e, popped (lookConsumer s)) := by
  obtain ⟨e, he, hp⟩ := popSlot_ok (lookConsumer_queueOk h)
  refine ⟨e, he, ?_⟩
  unfold queueRead
  simp only [hp, andThen_next]

/-- With cursors inside the array and exact views QUEUE_WRITE_DROP always answers. -/
theorem queueWriteDrop_ok {s : State} (h : QueueOk s) (hs : s.cfg.staleView = false) (e : ButtonEvent) :
    queueWriteDrop e s =
      .next (if nextIndex s.cfg.capacity s.q.w = s.q.r then pushed e (popped s) else pushed e s) := by
  unfold queueWriteDrop
  simp only [hs, Bool.false_eq_true, if_false]
  split
  · exact pushSlot_ok (popped_queueOk h) e
  · exact pushSlot_ok h e

/-! ## Fairness of the stale views -/

/-- A gap of 0 is no gap. -/
theorem eq_of_gapTo {c a b : Nat} (ha : a < c) (hb : b < c) (h : gapTo c a b = 0) : a = b := by
  rw [gapTo_eq ha hb] at h
  split at h <;> omega

/-- With no test left the view goes the whole way. -/
theorem moveView_fairDraw {c draw view cursor : Nat} {w : Watch} (hv : view < c) (hr : cursor < c) (hl : w.left = 0) :
    moveView c (fairDraw c draw w) view cursor = cursor := by
  obtain ⟨h1, h2⟩ := moveView_spec (draw := fairDraw c draw w) hv hr
  have hg := gapTo_lt (c := c) (by omega) view cursor
  refine eq_of_gapTo h1 hr ?_
  rw [h2, fairDraw, if_pos hl]
  omega

@[simp] theorem watchAfter_cursor (p cursor : Nat) (w : Watch) : (watchAfter p cursor w).cursor = cursor := by
  unfold watchAfter
  split <;> rfl

/-- While the cursor rests, one test fewer is left. -/
theorem watchAfter_left {p cursor : Nat} {w : Watch} (h : w.cursor = cursor) :
    (watchAfter p cursor w).left = w.left - 1 := by
  unfold watchAfter
  rw [if_pos h]

/-- What a look does to the producer's watch: it counts down while the cursor rests, and at its end the view is exact. -/
theorem lookProducer_fair {s : State} (hs : s.cfg.staleView = true) (hv : s.rv < s.cfg.capacity)
    (hr : s.q.r < s.cfg.capacity) :
    (lookProducer s).rvWatch.cursor = s.q.r ∧
    (s.rvWatch.cursor = s.q.r → (lookProducer s).rvWatch.left = s.rvWatch.left - 1) ∧
    ((lookProducer s).rvWatch.left = 0 → (lookProducer s).rv = s.q.r) := by
  unfold lookProducer
  rw [if_pos hs]
  exact ⟨watchAfter_cursor _ _ _, watchAfter_left, moveView_fairDraw hv hr⟩

/-- What a look does to the consumer's watch. -/
theorem lookConsumer_fair {s : State} (hs : s.cfg.staleView = true) (hv : s.wv < s.cfg.capacity)
    (hw : s.q.w < s.cfg.capacity) :
    (lookConsumer s).wvWatch.cursor = s.q.w ∧
    (s.wvWatch.cursor = s.q.w → (lookConsumer s).wvWatch.left = s.wvWatch.left - 1) ∧
    ((lookConsumer s).wvWatch.left = 0 → (lookConsumer s).wv = s.q.w) := by
  unfold lookConsumer
  rw [if_pos hs]
  exact ⟨watchAfter_cursor _ _ _, watchAfter_left, moveView_fairDraw hv hw⟩

/-! ## The tests do not touch the unread events; the Gray code -/

theorem unread_lookProducer (s : State) : unread (lookProducer s) = unread s := by
  rcases lookProducer_cases s with h | ⟨v, w, h⟩
  · rw [h]
  · rw [h]
    rfl

theorem unread_lookConsumer (s : State) : unread (lookConsumer s) = unread s := by
  rcases lookConsumer_cases s with h | ⟨v, w, h⟩
  · rw [h]
  · rw [h]
    rfl

theorem gray_shiftRight (b : Nat) : gray b >>> 1 = gray (b >>> 1) := by
  unfold gray
  rw [Nat.shiftRight_xor_distrib]

theorem gray_lt {k b : Nat} (h : b < 2 ^ k) : gray b < 2 ^ k :=
  Nat.xor_lt_two_pow h (Nat.lt_of_le_of_lt (Nat.shiftRight_le b 1) h)

/-- The receiving side gets the index back. -/
theorem ungray_gray {k b : Nat} (h : b < 2 ^ k) : ungray k (gray b) = b := by
  induction k generalizing b with
  | zero =>
    simp at h
    subst h
    rfl
  | succ k ih =>
    show gray b ^^^ ungray k (gray b >>> 1) = b
    rw [Nat.pow_succ] at h
    rw [gray_shiftRight, ih (by rw [Nat.shiftRight_eq_div_pow]; omega)]
    unfold gray
    rw [Nat.xor_assoc, Nat.xor_self, Nat.xor_zero]

end Sys2Proof.Machine
end

