-- ==== Sys2Proof/Laws/Debounce.lean ====
section
/-!
SUPPORT. What COMMIT, CONFIRM and DEBOUNCE_STEP can do: their frame, the commit loop as one list of events, and that
they always answer.
-/

namespace Sys2Proof.Machine

/-! ## Frames -/

/-- What the producer's side of the queue leaves alone: everything but the queue, the producer's view with its draw,
and `halted`. -/
structure ProducerFrame (s t : State) : Prop where
  cfg        : t.cfg = s.cfg
  column     : t.column = s.column
  bamStage   : t.bamStage = s.bamStage
  tickPeriod : t.tickPeriod = s.tickPeriod
  fb         : t.fb = s.fb
  deb        : t.deb = s.deb
  wv         : t.wv = s.wv
  wvWatch    : t.wvWatch = s.wvWatch
  srFrame    : t.srFrame = s.srFrame
  update     : t.update = s.update
  inputs     : t.inputs = s.inputs
  out        : t.out = s.out
  ret        : t.ret = s.ret
  freeSlots  : t.free.slots = s.free.slots
  freePolls  : t.free.polls = s.free.polls
  freeWv     : t.free.wv = s.free.wv

theorem ProducerFrame.refl (s : State) : ProducerFrame s s := by constructor <;> rfl

theorem ProducerFrame.trans {s t u : State} (h : ProducerFrame s t) (h' : ProducerFrame t u) : ProducerFrame s u where
  cfg := h'.cfg.trans h.cfg
  column := h'.column.trans h.column
  bamStage := h'.bamStage.trans h.bamStage
  tickPeriod := h'.tickPeriod.trans h.tickPeriod
  fb := h'.fb.trans h.fb
  deb := h'.deb.trans h.deb
  wv := h'.wv.trans h.wv
  wvWatch := h'.wvWatch.trans h.wvWatch
  srFrame := h'.srFrame.trans h.srFrame
  update := h'.update.trans h.update
  inputs := h'.inputs.trans h.inputs
  out := h'.out.trans h.out
  ret := h'.ret.trans h.ret
  freeSlots := h'.freeSlots.trans h.freeSlots
  freePolls := h'.freePolls.trans h.freePolls
  freeWv := h'.freeWv.trans h.freeWv

theorem ProducerFrame.pushed (e : ButtonEvent) (s : State) : ProducerFrame s (pushed e s) := by constructor <;> rfl

theorem ProducerFrame.popped (s : State) : ProducerFrame s (popped s) := by constructor <;> rfl

theorem ProducerFrame.halt (s : State) : ProducerFrame s (raiseQueueOverflow s) := by constructor <;> rfl

theorem ProducerFrame.look (s : State) : ProducerFrame s (lookProducer s) := by
  rcases lookProducer_cases s with h | ⟨v, w, h⟩
  · rw [h]
    exact .refl s
  · rw [h]
    constructor <;> rfl

theorem queueWrite_frame {s t : State} {e : ButtonEvent} {ok : Bool} (h : queueWrite e s = .next (ok, t)) :
    ProducerFrame s t := by
  rcases queueWrite_cases h with ⟨-, -, rfl⟩ | ⟨-, -, rfl⟩
  · exact .look s
  · exact (ProducerFrame.look s).trans (.pushed e _)

theorem queueWriteDrop_frame {s t : State} {e : ButtonEvent} (h : queueWriteDrop e s = .next t) :
    ProducerFrame s t := by
  obtain ⟨-, ⟨-, rfl⟩ | ⟨-, rfl⟩⟩ := queueWriteDrop_cases h
  · exact (ProducerFrame.popped s).trans (.pushed e _)
  · exact .pushed e s

/-- Looking at the read cursor and pushing never set `halted`. -/
theorem queueWrite_halted {s t : State} {e : ButtonEvent} {ok : Bool} (h : queueWrite e s = .next (ok, t)) :
    t.halted = s.halted := by
  have hl : (lookProducer s).halted = s.halted := by
    rcases lookProducer_cases s with hs | ⟨v, w, hs⟩ <;> (rw [hs]; try rfl)
  rcases queueWrite_cases h with ⟨-, -, rfl⟩ | ⟨-, -, rfl⟩
  · exact hl
  · exact hl

theorem queueWriteDrop_halted {s t : State} {e : ButtonEvent} (h : queueWriteDrop e s = .next t) :
    t.halted = s.halted := by
  obtain ⟨-, ⟨-, rfl⟩ | ⟨-, rfl⟩⟩ := queueWriteDrop_cases h <;> rfl

/-! ## The commit loop -/

/-- One row of the loop: the row is not in `pend`; its event went in; or it did not, and the block halts. -/
theorem commitRow_cases {k : Fin 10} {r : Fin 6} {s t : State} {go : Bool} (h : commitRow k r s = .next (go, t)) :
    (s.deb[k].pend.getLsbD r.val = false ∧ go = true ∧ t = s) ∨
    (s.deb[k].pend.getLsbD r.val = true ∧ s.cfg.overflowPolicy = .halt ∧ go = true ∧
      queueWrite (eventFor s k r) s = .next (true, t)) ∨
    (s.deb[k].pend.getLsbD r.val = true ∧ s.cfg.overflowPolicy = .halt ∧ go = false ∧
      ∃ u, queueWrite (eventFor s k r) s = .next (false, u) ∧ t = raiseQueueOverflow u) ∨
    (s.deb[k].pend.getLsbD r.val = true ∧ s.cfg.overflowPolicy = .dropOldest ∧ go = true ∧
      queueWriteDrop (eventFor s k r) s = .next t) := by
  unfold commitRow at h
  split at h
  · rename_i hp
    split at h
    · rename_i hpol
      obtain ⟨⟨ok, u⟩, hu, hn⟩ := andThen_eq_next h
      cases ok
      · cases hn
        exact .inr (.inr (.inl ⟨hp, hpol, rfl, u, hu, rfl⟩))
      · cases hn
        exact .inr (.inl ⟨hp, hpol, rfl, hu⟩)
    · rename_i hpol
      obtain ⟨u, hu, hn⟩ := andThen_eq_next h
      cases hn
      exact .inr (.inr (.inr ⟨hp, hpol, rfl, hu⟩))
  · rename_i hp
    cases h
    exact .inl ⟨by simpa using hp, rfl, rfl⟩

theorem commitRow_frame {k : Fin 10} {r : Fin 6} {s t : State} {go : Bool} (h : commitRow k r s = .next (go, t)) :
    ProducerFrame s t := by
  rcases commitRow_cases h with ⟨-, -, rfl⟩ | ⟨-, -, -, hw⟩ | ⟨-, -, -, u, hw, rfl⟩ | ⟨-, -, -, hw⟩
  · exact .refl _
  · exact queueWrite_frame hw
  · exact (queueWrite_frame hw).trans (.halt _)
  · exact queueWriteDrop_frame hw

/-- A property that every row of a commit keeps, the loop keeps. -/
theorem commitRows_induct {k : Fin 10} {P : State → Prop}
    (hstep : ∀ r s t go, P s → commitRow k r s = .next (go, t) → P t) {rs : List (Fin 6)} {s t : State} {go : Bool}
    (hs : P s) (h : commitRows k rs s = .next (go, t)) : P t := by
  induction rs generalizing s with
  | nil =>
    cases h
    exact hs
  | cons r rest ih =>
    obtain ⟨⟨g, u⟩, hu, hn⟩ := andThen_eq_next h
    have hP := hstep r s u g hs hu
    cases g
    · cases hn
      exact hP
    · exact ih hP hn

theorem commitRows_frame {k : Fin 10} {rs : List (Fin 6)} {s t : State} {go : Bool}
    (h : commitRows k rs s = .next (go, t)) : ProducerFrame s t :=
  commitRows_induct (P := ProducerFrame s) (fun _ _ _ _ hP hr => hP.trans (commitRow_frame hr)) (.refl s) h

/-- COMMIT answers next in two ways: every event went in and `last` is written, or it stopped on the way. -/
theorem commit_cases {k : Fin 10} {d : Byte} {s t : State} (h : commit k d s = .next t) :
    ∃ u, (commitRows k allRows s = .next (true, u) ∧ t = u.withDeb k { u.deb[k] with last := d }) ∨
      (commitRows k allRows s = .next (false, u) ∧ t = u) := by
  obtain ⟨⟨done, u⟩, hu, hn⟩ := andThen_eq_next h
  refine ⟨u, ?_⟩
  cases done
  · cases hn
    exact .inr ⟨hu, rfl⟩
  · cases hn
    exact .inl ⟨hu, rfl⟩

/-- What a debounce sample of column `k` leaves alone (41_debounce.md R155): what the producer leaves alone, but for
column `k`'s own registers. -/
structure SampleFrame (k : Fin 10) (s t : State) : Prop where
  cfg        : t.cfg = s.cfg
  column     : t.column = s.column
  bamStage   : t.bamStage = s.bamStage
  tickPeriod : t.tickPeriod = s.tickPeriod
  fb         : t.fb = s.fb
  deb        : ∀ j, j ≠ k → t.deb[j] = s.deb[j]
  wv         : t.wv = s.wv
  wvWatch    : t.wvWatch = s.wvWatch
  srFrame    : t.srFrame = s.srFrame
  update     : t.update = s.update
  inputs     : t.inputs = s.inputs
  out        : t.out = s.out
  ret        : t.ret = s.ret
  freeSlots  : t.free.slots = s.free.slots
  freePolls  : t.free.polls = s.free.polls
  freeWv     : t.free.wv = s.free.wv

theorem SampleFrame.refl (k : Fin 10) (s : State) : SampleFrame k s s := by
  constructor <;> first | rfl | (intros; rfl)

theorem ProducerFrame.sample (k : Fin 10) {s t : State} (h : ProducerFrame s t) : SampleFrame k s t where
  cfg := h.cfg
  column := h.column
  bamStage := h.bamStage
  tickPeriod := h.tickPeriod
  fb := h.fb
  deb := fun j _ => by rw [h.deb]
  wv := h.wv
  wvWatch := h.wvWatch
  srFrame := h.srFrame
  update := h.update
  inputs := h.inputs
  out := h.out
  ret := h.ret
  freeSlots := h.freeSlots
  freePolls := h.freePolls
  freeWv := h.freeWv

theorem SampleFrame.trans {k : Fin 10} {s t u : State} (h : SampleFrame k s t) (h' : SampleFrame k t u) :
    SampleFrame k s u where
  cfg := h'.cfg.trans h.cfg
  column := h'.column.trans h.column
  bamStage := h'.bamStage.trans h.bamStage
  tickPeriod := h'.tickPeriod.trans h.tickPeriod
  fb := h'.fb.trans h.fb
  deb := fun j hj => (h'.deb j hj).trans (h.deb j hj)
  wv := h'.wv.trans h.wv
  wvWatch := h'.wvWatch.trans h.wvWatch
  srFrame := h'.srFrame.trans h.srFrame
  update := h'.update.trans h.update
  inputs := h'.inputs.trans h.inputs
  out := h'.out.trans h.out
  ret := h'.ret.trans h.ret
  freeSlots := h'.freeSlots.trans h.freeSlots
  freePolls := h'.freePolls.trans h.freePolls
  freeWv := h'.freeWv.trans h.freeWv

theorem SampleFrame.withDeb (k : Fin 10) (s : State) (d : Debounce) : SampleFrame k s (s.withDeb k d) where
  cfg := rfl
  column := rfl
  bamStage := rfl
  tickPeriod := rfl
  fb := rfl
  deb := fun j hj => by rw [State.withDeb_getElem, if_neg fun h => hj h.symm]
  wv := rfl
  wvWatch := rfl
  srFrame := rfl
  update := rfl
  inputs := rfl
  out := rfl
  ret := rfl
  freeSlots := rfl
  freePolls := rfl
  freeWv := rfl

theorem commit_frame {k : Fin 10} {d : Byte} {s t : State} (h : commit k d s = .next t) : SampleFrame k s t := by
  obtain ⟨u, ⟨hu, rfl⟩ | ⟨hu, rfl⟩⟩ := commit_cases h
  · exact ((commitRows_frame hu).sample k).trans (.withDeb k _ _)
  · exact (commitRows_frame hu).sample k

theorem bumpCounter_frame (k : Fin 10) (s : State) : SampleFrame k s (bumpCounter k s) := by
  unfold bumpCounter
  split
  · exact .withDeb k s _
  · exact .refl k s

/-- CONFIRM answers next in three ways: nothing but the counter's increment, a commit after it, or a commit (or
nothing) without it. -/
theorem confirm_cases {k : Fin 10} {d : Byte} {s t : State} (h : confirm k d s = .next t) :
    ∃ u, (u = s ∨ u = bumpCounter k s) ∧ (t = u ∨ commit k d u = .next t) := by
  unfold confirm at h
  simp only at h
  split at h
  · split at h
    · exact ⟨_, .inr rfl, .inr h⟩
    · cases h
      exact ⟨_, .inr rfl, .inl rfl⟩
  · split at h
    · split at h
      · exact ⟨_, .inr rfl, .inr h⟩
      · cases h
        exact ⟨_, .inr rfl, .inl rfl⟩
    · cases h
      exact ⟨_, .inl rfl, .inl rfl⟩
  · split at h
    · cases h
      exact ⟨_, .inr rfl, .inl rfl⟩
    · exact ⟨_, .inl rfl, .inr h⟩

theorem confirm_frame {k : Fin 10} {d : Byte} {s t : State} (h : confirm k d s = .next t) : SampleFrame k s t := by
  obtain ⟨u, hu, ht⟩ := confirm_cases h
  have h1 : SampleFrame k s u := by
    rcases hu with rfl | rfl
    · exact .refl k _
    · exact bumpCounter_frame k s
  rcases ht with rfl | ht
  · exact h1
  · exact h1.trans (commit_frame ht)

/-- DEBOUNCE_STEP answers next in three ways (41_debounce.md R140). -/
theorem debounceStep_cases {k : Fin 10} {d : Byte} {s t : State} (h : debounceStep k d s = .next t) :
    (d = s.deb[k].last ∧ t = s.withDeb k { s.deb[k] with cnt := 0 }) ∨
    (d ≠ s.deb[k].last ∧ d ^^^ s.deb[k].last ≠ s.deb[k].pend ∧
      t = s.withDeb k { s.deb[k] with cnt := 0, pend := d ^^^ s.deb[k].last }) ∨
    (d ≠ s.deb[k].last ∧ d ^^^ s.deb[k].last = s.deb[k].pend ∧ confirm k d s = .next t) := by
  unfold debounceStep at h
  simp only at h
  split at h
  · rename_i h1
    cases h
    exact .inl ⟨h1, rfl⟩
  · rename_i h1
    split at h
    · rename_i h2
      cases h
      exact .inr (.inl ⟨h1, h2, rfl⟩)
    · rename_i h2
      exact .inr (.inr ⟨h1, by simpa using h2, h⟩)

theorem debounceStep_frame {k : Fin 10} {d : Byte} {s t : State} (h : debounceStep k d s = .next t) :
    SampleFrame k s t := by
  rcases debounceStep_cases h with ⟨-, rfl⟩ | ⟨-, -, rfl⟩ | ⟨-, -, hc⟩
  · exact .withDeb k s _
  · exact .withDeb k s _
  · exact confirm_frame hc

/-! ## The read cursor under `halt` -/

theorem queueWrite_readIndex {s t : State} {e : ButtonEvent} {ok : Bool} (h : queueWrite e s = .next (ok, t)) :
    t.q.r = s.q.r := by
  have hl : (lookProducer s).q.r = s.q.r := by
    rcases lookProducer_cases s with hs | ⟨v, w, hs⟩ <;> (rw [hs]; try rfl)
  rcases queueWrite_cases h with ⟨-, -, rfl⟩ | ⟨-, -, rfl⟩
  · exact hl
  · exact hl

/-- Under `halt` the producer's side never writes the read cursor (10_state.md R33). -/
theorem commitRows_readIndex {k : Fin 10} {rs : List (Fin 6)} {s t : State} {go : Bool}
    (hp : s.cfg.overflowPolicy = .halt) (h : commitRows k rs s = .next (go, t)) : t.q.r = s.q.r := by
  refine (commitRows_induct (P := fun u => u.cfg = s.cfg ∧ u.q.r = s.q.r) ?_ ⟨rfl, rfl⟩ h).2
  rintro r u v g ⟨hc, hr⟩ hrow
  refine ⟨(commitRow_frame hrow).cfg.trans hc, ?_⟩
  rcases commitRow_cases hrow with ⟨-, -, rfl⟩ | ⟨-, -, -, hw⟩ | ⟨-, -, -, w, hw, rfl⟩ | ⟨-, hd, -, -⟩
  · exact hr
  · exact (queueWrite_readIndex hw).trans hr
  · exact (queueWrite_readIndex hw).trans hr
  · rw [hc, hp] at hd
    cases hd

theorem commit_readIndex {k : Fin 10} {d : Byte} {s t : State} (hp : s.cfg.overflowPolicy = .halt)
    (h : commit k d s = .next t) : t.q.r = s.q.r := by
  obtain ⟨u, ⟨hu, rfl⟩ | ⟨hu, rfl⟩⟩ := commit_cases h
  · exact commitRows_readIndex (t := u) hp hu
  · exact commitRows_readIndex hp hu

theorem confirm_readIndex {k : Fin 10} {d : Byte} {s t : State} (hp : s.cfg.overflowPolicy = .halt)
    (h : confirm k d s = .next t) : t.q.r = s.q.r := by
  obtain ⟨u, hu, ht⟩ := confirm_cases h
  have h1 : u.cfg = s.cfg ∧ u.q.r = s.q.r := by
    rcases hu with rfl | rfl
    · exact ⟨rfl, rfl⟩
    · refine ⟨(bumpCounter_frame k s).cfg, ?_⟩
      unfold bumpCounter
      split <;> rfl
  rcases ht with rfl | ht
  · exact h1.2
  · exact (commit_readIndex (by rw [h1.1]; exact hp) ht).trans h1.2

theorem debounceStep_readIndex {k : Fin 10} {d : Byte} {s t : State} (hp : s.cfg.overflowPolicy = .halt)
    (h : debounceStep k d s = .next t) : t.q.r = s.q.r := by
  rcases debounceStep_cases h with ⟨-, rfl⟩ | ⟨-, -, rfl⟩ | ⟨-, -, hc⟩
  · rfl
  · rfl
  · exact confirm_readIndex hp hc

/-! ## Every event of a commit, one after the other -/

/-- The state after a list of events is pushed. -/
def pushAll (es : List ButtonEvent) (s : State) : State := es.foldl (fun t e => pushed e t) s

/-- The state after one event is pushed, the oldest making room when the queue is full. -/
def dropPushed (e : ButtonEvent) (s : State) : State :=
  if nextIndex s.cfg.capacity s.q.w = s.q.r then pushed e (popped s) else pushed e s

/-- The state after a list of events is pushed, the oldest making room when the queue is full. -/
def dropAll (es : List ButtonEvent) (s : State) : State := es.foldl (fun t e => dropPushed e t) s

theorem ProducerFrame.pushAll (es : List ButtonEvent) (s : State) : ProducerFrame s (pushAll es s) := by
  induction es generalizing s with
  | nil => exact .refl s
  | cons e es ih => exact (ProducerFrame.pushed e s).trans (ih _)

theorem ProducerFrame.dropAll (es : List ButtonEvent) (s : State) : ProducerFrame s (dropAll es s) := by
  induction es generalizing s with
  | nil => exact .refl s
  | cons e es ih =>
    refine ProducerFrame.trans (t := Machine.dropPushed e s) ?_ (ih _)
    unfold Machine.dropPushed
    split
    · exact (ProducerFrame.popped s).trans (.pushed e _)
    · exact .pushed e s

theorem pushAll_queueOk {s : State} (h : QueueOk s) (es : List ButtonEvent) : QueueOk (pushAll es s) := by
  induction es generalizing s with
  | nil => exact h
  | cons e es ih => exact ih (pushed_queueOk h e)

theorem dropAll_queueOk {s : State} (h : QueueOk s) (es : List ButtonEvent) : QueueOk (dropAll es s) := by
  induction es generalizing s with
  | nil => exact h
  | cons e es ih =>
    refine ih (s := dropPushed e s) ?_
    unfold dropPushed
    split
    · exact pushed_queueOk (popped_queueOk h) e
    · exact pushed_queueOk h e

/-- Pushed events are the newest unread ones, in order. -/
theorem unread_pushAll {s : State} (h : QueueOk s) {es : List ButtonEvent} (hl : es.length ≤ room s) :
    unread (pushAll es s) = unread s ++ es := by
  induction es generalizing s with
  | nil => simp [pushAll]
  | cons e es ih =>
    have hlt := occupancy_lt s
    simp only [List.length_cons, room] at hl
    have hne : occupancy s ≠ s.cfg.capacity - 1 := by omega
    have hroom : es.length ≤ room (pushed e s) := by
      have := occupancy_pushed h e hne
      show es.length ≤ s.cfg.capacity - 1 - occupancy (pushed e s)
      omega
    have := ih (pushed_queueOk h e) hroom
    rw [unread_pushed h e hne] at this
    simpa [pushAll] using this

/-- Events pushed with the oldest making room: the newest `C − 1` of the old and the new stay. -/
theorem unread_dropAll {s : State} (h : QueueOk s) (hc : 2 ≤ s.cfg.capacity) (es : List ButtonEvent) :
    unread (dropAll es s) = (unread s ++ es).drop ((unread s ++ es).length - (s.cfg.capacity - 1)) := by
  induction es generalizing s with
  | nil =>
    have hlt := occupancy_lt s
    have hl := length_unread h
    simp only [dropAll, List.foldl_nil, List.append_nil]
    have : (unread s).length - (s.cfg.capacity - 1) = 0 := by omega
    rw [this, List.drop_zero]
  | cons e es ih =>
    have hlt := occupancy_lt s
    have hl := length_unread h
    show unread (dropAll es (dropPushed e s)) = _
    unfold dropPushed
    split
    · rename_i hf
      have hocc := (full_iff h).mp hf
      have hne : occupancy s ≠ 0 := by omega
      obtain ⟨x, hx, -⟩ := popSlot_ok h
      have hu := unread_popped h hne hx
      have hpop := occupancy_popped h hne
      have hne' : occupancy (popped s) ≠ (popped s).cfg.capacity - 1 := by
        show occupancy (popped s) ≠ s.cfg.capacity - 1
        omega
      rw [ih (pushed_queueOk (popped_queueOk h) e) hc, unread_pushed (popped_queueOk h) e hne', hu]
      show List.drop (_ - (s.cfg.capacity - 1)) _ = _
      have hlp : (unread (popped s)).length = occupancy (popped s) := length_unread (popped_queueOk h)
      simp only [List.append_assoc, List.length_append, List.length_cons, List.cons_append, List.nil_append, hlp]
      have : occupancy (popped s) + (es.length + 1) + 1 - (s.cfg.capacity - 1)
          = (occupancy (popped s) + (es.length + 1) - (s.cfg.capacity - 1)) + 1 := by omega
      rw [this, List.drop_succ_cons]
    · rename_i hf
      have hocc : occupancy s ≠ s.cfg.capacity - 1 := fun hh => hf ((full_iff h).mpr hh)
      rw [ih (pushed_queueOk h e) hc, unread_pushed h e hocc]
      show List.drop (_ - (s.cfg.capacity - 1)) _ = _
      simp

/-- The events of the rows of a list that are in `pend`. -/
def rowEvents (s : State) (k : Fin 10) (rs : List (Fin 6)) : List ButtonEvent :=
  (rs.filter fun r => s.deb[k].pend.getLsbD r.val).map (eventFor s k)

theorem rowEvents_congr {s t : State} (h : t.deb = s.deb) (k : Fin 10) (rs : List (Fin 6)) :
    rowEvents t k rs = rowEvents s k rs := by
  unfold rowEvents eventFor
  simp only [h]

theorem rowEvents_cons (s : State) (k : Fin 10) (r : Fin 6) (rs : List (Fin 6)) :
    rowEvents s k (r :: rs) =
      if s.deb[k].pend.getLsbD r.val then eventFor s k r :: rowEvents s k rs else rowEvents s k rs := by
  unfold rowEvents
  rw [List.filter_cons]
  split <;> rfl

theorem rowEvents_allRows (s : State) (k : Fin 10) : rowEvents s k allRows = commitEvents s k := rfl

/-- The loop under `halt` with exact views and room for every event: every event goes in (41_debounce.md R144). -/
theorem commitRows_room {k : Fin 10} {rs : List (Fin 6)} {s : State} (h : QueueOk s)
    (hp : s.cfg.overflowPolicy = .halt) (hv : s.cfg.staleView = false) (hl : (rowEvents s k rs).length ≤ room s) :
    commitRows k rs s = .next (true, pushAll (rowEvents s k rs) s) := by
  induction rs generalizing s with
  | nil => rfl
  | cons r rest ih =>
    rw [rowEvents_cons] at hl ⊢
    by_cases hr : s.deb[k].pend.getLsbD r.val
    · simp only [hr, if_true, List.length_cons] at hl ⊢
      unfold room at hl
      have hne : occupancy s ≠ s.cfg.capacity - 1 := by omega
      have hnf : queueFull s = false := by
        rw [Bool.eq_false_iff]
        exact fun hf => hne ((queueFull_exact hv h).mp hf)
      have hw : queueWrite (eventFor s k r) s = .next (true, pushed (eventFor s k r) s) := by
        rw [queueWrite_ok h, lookProducer_exact hv, hnf]
        rfl
      have hrow : commitRow k r s = .next (true, pushed (eventFor s k r) s) := by
        unfold commitRow
        rw [if_pos hr, hp, hw]
        rfl
      have hev := rowEvents_congr (t := pushed (eventFor s k r) s) (s := s) rfl k rest
      have hroom : (rowEvents (pushed (eventFor s k r) s) k rest).length ≤ room (pushed (eventFor s k r) s) := by
        have := occupancy_pushed h (eventFor s k r) hne
        rw [hev]
        show _ ≤ s.cfg.capacity - 1 - occupancy (pushed (eventFor s k r) s)
        omega
      rw [commitRows, hrow, andThen_next]
      simp only [if_true]
      rw [ih (pushed_queueOk h _) hp hv hroom, hev]
      rfl
    · simp only [hr, Bool.false_eq_true, if_false] at hl ⊢
      have hrow : commitRow k r s = .next (true, s) := by
        unfold commitRow
        rw [if_neg hr]
      rw [commitRows, hrow, andThen_next]
      simp only [if_true]
      exact ih h hp hv hl

/-- The loop under `halt` with exact views and too little room: what fits goes in, then the block halts
(41_debounce.md R149). -/
theorem commitRows_overflow {k : Fin 10} {rs : List (Fin 6)} {s : State} (h : QueueOk s)
    (hp : s.cfg.overflowPolicy = .halt) (hv : s.cfg.staleView = false) (hl : room s < (rowEvents s k rs).length) :
    commitRows k rs s = .next (false, raiseQueueOverflow (pushAll ((rowEvents s k rs).take (room s)) s)) := by
  induction rs generalizing s with
  | nil => simp [rowEvents] at hl
  | cons r rest ih =>
    have hlt := occupancy_lt s
    rw [rowEvents_cons] at hl ⊢
    by_cases hr : s.deb[k].pend.getLsbD r.val
    · simp only [hr, if_true, List.length_cons] at hl ⊢
      by_cases hfull : occupancy s = s.cfg.capacity - 1
      · have hf : queueFull s = true := (queueFull_exact hv h).mpr hfull
        have hw : queueWrite (eventFor s k r) s = .next (false, s) := by
          rw [queueWrite_ok h, lookProducer_exact hv, hf]
          rfl
        have hroom : room s = 0 := by unfold room; omega
        have hrow : commitRow k r s = .next (false, raiseQueueOverflow s) := by
          unfold commitRow
          rw [if_pos hr, hp, hw]
          rfl
        rw [commitRows, hrow, andThen_next, hroom]
        rfl
      · have hnf : queueFull s = false := by
          rw [Bool.eq_false_iff]
          exact fun hf => hfull ((queueFull_exact hv h).mp hf)
        have hw : queueWrite (eventFor s k r) s = .next (true, pushed (eventFor s k r) s) := by
          rw [queueWrite_ok h, lookProducer_exact hv, hnf]
          rfl
        have hrow : commitRow k r s = .next (true, pushed (eventFor s k r) s) := by
          unfold commitRow
          rw [if_pos hr, hp, hw]
          rfl
        have hev := rowEvents_congr (t := pushed (eventFor s k r) s) (s := s) rfl k rest
        have hocc := occupancy_pushed h (eventFor s k r) hfull
        have hroom : room s = room (pushed (eventFor s k r) s) + 1 := by
          show s.cfg.capacity - 1 - occupancy s = s.cfg.capacity - 1 - occupancy (pushed (eventFor s k r) s) + 1
          omega
        rw [commitRows, hrow, andThen_next]
        simp only [if_true]
        rw [ih (pushed_queueOk h _) hp hv (by rw [hev]; omega), hev, hroom]
        rfl
    · simp only [hr, Bool.false_eq_true, if_false] at hl ⊢
      have hrow : commitRow k r s = .next (true, s) := by
        unfold commitRow
        rw [if_neg hr]
      rw [commitRows, hrow, andThen_next]
      simp only [if_true]
      exact ih h hp hv hl

/-- The loop under `dropOldest`: every event goes in (42_event_queue.md R175). -/
theorem commitRows_drop {k : Fin 10} {rs : List (Fin 6)} {s : State} (h : QueueOk s)
    (hp : s.cfg.overflowPolicy = .dropOldest) (hv : s.cfg.staleView = false) :
    commitRows k rs s = .next (true, dropAll (rowEvents s k rs) s) := by
  induction rs generalizing s with
  | nil => rfl
  | cons r rest ih =>
    rw [rowEvents_cons]
    by_cases hr : s.deb[k].pend.getLsbD r.val
    · have hrow : commitRow k r s = .next (true, dropPushed (eventFor s k r) s) := by
        unfold commitRow
        rw [if_pos hr, hp, queueWriteDrop_ok h hv]
        rfl
      have hf : ProducerFrame s (dropPushed (eventFor s k r) s) := .dropAll [eventFor s k r] s
      have hq : QueueOk (dropPushed (eventFor s k r) s) := dropAll_queueOk h [eventFor s k r]
      rw [commitRows, hrow, andThen_next]
      simp only [hr, if_true]
      rw [ih hq (by rw [hf.cfg]; exact hp) (by rw [hf.cfg]; exact hv), rowEvents_congr hf.deb]
      rfl
    · have hrow : commitRow k r s = .next (true, s) := by
        unfold commitRow
        rw [if_neg hr]
      rw [commitRows, hrow, andThen_next]
      simp only [hr, Bool.false_eq_true, if_true, if_false]
      exact ih h hp hv

/-! ## Every sample answers -/

/-- Cursors inside the array and no `dropOldest` with stale views: a row of a commit always answers. -/
theorem commitRow_ok {k : Fin 10} (r : Fin 6) {s : State} (h : QueueOk s)
    (hc : ¬ (s.cfg.overflowPolicy = .dropOldest ∧ s.cfg.staleView = true)) :
    ∃ go t, commitRow k r s = .next (go, t) ∧ QueueOk t := by
  unfold commitRow
  split
  · cases hp : s.cfg.overflowPolicy with
    | halt =>
      simp only
      rw [queueWrite_ok h]
      cases queueFull (lookProducer s)
      · exact ⟨true, _, rfl, pushed_queueOk (lookProducer_queueOk h) _⟩
      · exact ⟨false, _, rfl, ⟨(lookProducer_queueOk h).1, (lookProducer_queueOk h).2, (lookProducer_queueOk h).3⟩⟩
    | dropOldest =>
      have hv : s.cfg.staleView = false := by
        rw [Bool.eq_false_iff]
        exact fun hs => hc ⟨hp, hs⟩
      simp only
      rw [queueWriteDrop_ok h hv]
      refine ⟨true, _, rfl, ?_⟩
      split
      · exact pushed_queueOk (popped_queueOk h) _
      · exact pushed_queueOk h _
  · exact ⟨true, s, rfl, h⟩

theorem commitRows_ok {k : Fin 10} (rs : List (Fin 6)) {s : State} (h : QueueOk s)
    (hc : ¬ (s.cfg.overflowPolicy = .dropOldest ∧ s.cfg.staleView = true)) :
    ∃ go t, commitRows k rs s = .next (go, t) := by
  induction rs generalizing s with
  | nil => exact ⟨true, s, rfl⟩
  | cons r rest ih =>
    obtain ⟨go, t, hr, hq⟩ := commitRow_ok (k := k) r h hc
    rw [commitRows, hr, andThen_next]
    cases go
    · exact ⟨false, t, rfl⟩
    · exact ih hq (by rw [(commitRow_frame hr).cfg]; exact hc)

theorem commit_ok (k : Fin 10) (d : Byte) {s : State} (h : QueueOk s)
    (hc : ¬ (s.cfg.overflowPolicy = .dropOldest ∧ s.cfg.staleView = true)) : ∃ t, commit k d s = .next t := by
  obtain ⟨go, t, hr⟩ := commitRows_ok (k := k) allRows h hc
  unfold commit
  rw [hr]
  exact ⟨_, rfl⟩

theorem bumpCounter_queueOk {s : State} (h : QueueOk s) (k : Fin 10) : QueueOk (bumpCounter k s) := by
  unfold bumpCounter
  split
  · exact ⟨h.1, h.2, h.3⟩
  · exact h

theorem confirm_ok (k : Fin 10) (d : Byte) {s : State} (h : QueueOk s)
    (hc : ¬ (s.cfg.overflowPolicy = .dropOldest ∧ s.cfg.staleView = true)) : ∃ t, confirm k d s = .next t := by
  have hb := commit_ok k d (bumpCounter_queueOk h k) (by rw [(bumpCounter_frame k s).cfg]; exact hc)
  have h0 := commit_ok k d h hc
  unfold confirm
  simp only
  repeat' split
  all_goals first | exact hb | exact h0 | exact ⟨_, rfl⟩

/-- With cursors inside the array and a legal configuration every debounce sample answers next. -/
theorem debounceStep_ok (k : Fin 10) (d : Byte) {s : State} (h : QueueOk s)
    (hc : ¬ (s.cfg.overflowPolicy = .dropOldest ∧ s.cfg.staleView = true)) : ∃ t, debounceStep k d s = .next t := by
  have h0 := confirm_ok k d h hc
  unfold debounceStep
  simp only
  repeat' split
  all_goals first | exact h0 | exact ⟨_, rfl⟩

/-! ## The commit's lists of events as one update of the queue -/

theorem pushAll_eq (es : List ButtonEvent) (s : State) : pushAll es s = { s with q := (pushAll es s).q } := by
  induction es generalizing s with
  | nil => rfl
  | cons e es ih => exact (ih (pushed e s)).trans rfl

theorem dropAll_eq (es : List ButtonEvent) (s : State) : dropAll es s = { s with q := (dropAll es s).q } := by
  induction es generalizing s with
  | nil => rfl
  | cons e es ih =>
    refine (ih (dropPushed e s)).trans ?_
    obtain ⟨q, hq⟩ : ∃ q, dropPushed e s = { s with q := q } := by
      unfold dropPushed
      split
      · exact ⟨_, rfl⟩
      · exact ⟨_, rfl⟩
    show _ = { s with q := (dropAll es (dropPushed e s)).q }
    rw [hq]

theorem pushAll_readIndex (es : List ButtonEvent) (s : State) : (pushAll es s).q.r = s.q.r := by
  induction es generalizing s with
  | nil => rfl
  | cons e es ih => exact (ih (pushed e s)).trans rfl

/-- Slots that no event of the list is written to stay. -/
theorem pushAll_slots {es : List ButtonEvent} {s : State} (hq : QueueOk s) (hl : es.length ≤ s.cfg.capacity) {i : Nat}
    (hg : es.length ≤ gapTo s.cfg.capacity s.q.w i) (hi : i < s.cfg.capacity) :
    (pushAll es s).q.slots[i]? = s.q.slots[i]? := by
  induction es generalizing s with
  | nil => rfl
  | cons e es ih =>
    simp only [List.length_cons] at hl hg
    have hw := hq.writeIndex
    have h1 : s.q.w ≠ i := by
      intro h
      subst h
      rw [gapTo_eq hi hi] at hg
      simp at hg
    have hn := nextIndex_eq hw
    have hnl : nextIndex s.cfg.capacity s.q.w < s.cfg.capacity := nextIndex_lt (capacity_pos _) _
    have hle : es.length ≤ (pushed e s).cfg.capacity := by
      show es.length ≤ s.cfg.capacity
      omega
    refine (ih (pushed_queueOk hq e) hle ?_ hi).trans ?_
    · show es.length ≤ gapTo s.cfg.capacity (nextIndex s.cfg.capacity s.q.w) i
      rw [gapTo_eq hnl hi]
      rw [gapTo_eq hw hi] at hg
      rw [hn]
      rw [hn] at hnl
      split <;> split <;> (try split at hg) <;> (try split at hnl) <;> omega
    · show (s.q.slots.set s.q.w e)[i]? = _
      rw [List.getElem?_set_ne h1]

/-- The frame of a sample as one equation. -/
theorem SampleFrame.eq {k : Fin 10} {s t : State} (h : SampleFrame k s t) :
    t = { s with
      deb := t.deb, q := t.q, rv := t.rv, rvWatch := t.rvWatch, halted := t.halted,
      free := { s.free with rv := t.free.rv } } := by
  have hf : t.free = { s.free with rv := t.free.rv } := by
    have a := h.freeSlots
    have b := h.freePolls
    have c := h.freeWv
    cases ht : t.free
    rw [ht] at a b c
    simp only at a b c
    subst a b c
    rfl
  have := h.cfg
  have := h.column
  have := h.bamStage
  have := h.tickPeriod
  have := h.fb
  have := h.wv
  have := h.wvWatch
  have := h.srFrame
  have := h.update
  have := h.inputs
  have := h.out
  have := h.ret
  cases t
  cases s
  simp only at *
  subst_vars
  simp only [State.mk.injEq, true_and, and_true]
  exact hf

end Sys2Proof.Machine
end

