-- ==== Sys2Proof/Laws/Sequencer.lean ====
section
/-!
SUPPORT. The column cursor as a column, and what a tick can do.
-/

namespace Sys2Proof.Machine

theorem columnReg_eq {s : State} {c : Fin 10} (h : s.column.toNat = c.val) : columnReg c = s.column := by
  apply BitVec.eq_of_toNat_eq
  have hc := c.isLt
  simp [columnReg, h]
  omega

theorem cursorColumn_eq {s : State} {c : Fin 10} (h : s.column.toNat = c.val) : cursorColumn s = some c := by
  unfold cursorColumn
  rw [dif_pos (by omega)]
  congr 1
  exact Fin.ext h

theorem cursorColumn_none {s : State} (h : 10 ≤ s.column.toNat) : cursorColumn s = none := by
  unfold cursorColumn
  rw [dif_neg (by omega)]

theorem cursorColumn_some {s : State} {c : Fin 10} (h : cursorColumn s = some c) : s.column.toNat = c.val := by
  unfold cursorColumn at h
  split at h
  · cases h
    rfl
  · cases h

theorem columnBefore_columnAfter : ∀ c : Fin 10, columnBefore (columnAfter c) = c := by decide

theorem newStage_wrap {s : State} (h : s.bamStage = 3) : newStage s = 0 := by
  unfold newStage
  rw [if_pos h]

theorem newStage_next {s : State} (h : s.bamStage ≠ 3) : newStage s = s.bamStage + 1 ∧ newStage s ≠ 0 := by
  have key : ∀ x : BitVec 2, x ≠ 3 → x + 1 ≠ 0 := by decide
  unfold newStage
  rw [if_neg h]
  exact ⟨rfl, key _ h⟩

/-- From a legal column in the RUN mode a tick is its body. -/
theorem execTick_run {d : Byte} {s : State} {c : Fin 10} (hh : s.halted = false) (hc : s.column.toNat = c.val) :
    execTick d s = tickFrom c d s := by
  unfold execTick
  rw [if_neg (by simp [hh]), cursorColumn_eq hc]

/-- A tick answers next in three ways: halted, nothing; within a column, the new stage's frame; past stage 3, the next
column's frame and a sample of the column it leaves (40_sequencer.md R110). -/
theorem execTick_cases {d : Byte} {s t : State} (h : execTick d s = .next t) :
    (s.halted = true ∧ t = s) ∨
    (s.halted = false ∧ ∃ c : Fin 10, s.column.toNat = c.val ∧
      ((s.bamStage ≠ 3 ∧ t = emitFrame (s.bamStage + 1) c (advance c s)) ∨
       (s.bamStage = 3 ∧ debounceStep c d (emitFrame 0 (columnAfter c) (advance c s)) = .next t))) := by
  unfold execTick at h
  split at h
  · rename_i hh
    cases h
    exact .inl ⟨hh, rfl⟩
  · rename_i hh
    refine .inr ⟨by simpa using hh, ?_⟩
    split at h
    · rename_i c hc
      refine ⟨c, cursorColumn_some hc, ?_⟩
      unfold tickFrom at h
      simp only at h
      by_cases hb : s.bamStage = 3
      · have hcol : newColumn c s = columnAfter c := by
          unfold newColumn
          rw [if_pos hb]
        rw [if_pos (newStage_wrap hb), newStage_wrap hb, hcol, columnBefore_columnAfter] at h
        exact .inr ⟨hb, h⟩
      · have hcol : newColumn c s = c := by
          unfold newColumn
          rw [if_neg hb]
        rw [if_neg (newStage_next hb).2, (newStage_next hb).1, hcol] at h
        cases h
        exact .inl ⟨hb, rfl⟩
    · cases h

/-- ADVANCE past stage 3. -/
theorem advance_wrap {s : State} (c : Fin 10) (h : s.bamStage = 3) :
    advance c s = s.withCursor (columnReg (columnAfter c)) 0 s.cfg.base := by
  unfold advance newColumn newStage newPeriod
  rw [if_pos h, if_pos h, if_pos h]

/-- ADVANCE within a column. -/
theorem advance_within {s : State} (c : Fin 10) (h : s.bamStage ≠ 3) :
    advance c s = s.withCursor (columnReg c) (s.bamStage + 1) ((s.tickPeriod <<< 1) % 2 ^ s.cfg.widthT) := by
  unfold advance newColumn newStage newPeriod
  rw [if_neg h, if_neg h, if_neg h]

end Sys2Proof.Machine
end

