-- ==== Sys2Proof/Laws/Invariant.lean ====
section
/-!
SUPPORT. The parts of the invariant under the shared operations: the queue with its views, the debounce registers, the
Frame Buffer, the frame.
-/

namespace Sys2Proof.Machine

/-! ## Queue and views -/

/-- The invariant is kept where only the producer's side of the queue moves and stays legal. -/
theorem BlockInv.ofProducer {s t : State} (h : BlockInv s) (hf : ProducerFrame s t) (hq : QueueOk t)
    (hv : t.cfg.staleView = true → ViewsLegal t) : BlockInv t where
  cfgWf := by rw [hf.cfg]; exact h.cfgWf
  column := by rw [hf.column]; exact h.column
  period := by rw [hf.tickPeriod, hf.cfg, hf.bamStage]; exact h.period
  fbWf := by rw [hf.fb]; exact h.fbWf
  fbRows := by rw [hf.fb]; exact h.fbRows
  counters := by rw [hf.deb]; exact h.counters
  slotCount := hq.slotCount
  writeIndex := hq.writeIndex
  readIndex := hq.readIndex
  views := hv
  frame := by
    intro f hs
    rw [hf.srFrame] at hs
    have := h.frame f hs
    unfold FrameLegal colsel at this ⊢
    rw [hf.cfg]
    exact this
  noUpdate := by rw [hf.cfg, hf.update]; exact h.noUpdate

/-- A look by the producer keeps the invariant. -/
theorem BlockInv.lookProducer {s : State} (h : BlockInv s) : BlockInv (lookProducer s) := by
  refine h.ofProducer (.look s) (lookProducer_queueOk h.queueOk) fun hs => ?_
  have hs' : s.cfg.staleView = true := by rwa [(ProducerFrame.look s).cfg] at hs
  obtain ⟨h1, h2, h3, h4⟩ := h.views hs'
  have hm := fun d => moveView_spec (draw := d) h1 h.readIndex
  unfold Machine.lookProducer
  rw [if_pos hs']
  refine ⟨(hm _).1, h2, ?_, h4⟩
  show gapTo s.cfg.capacity (moveView _ _ _ _) s.q.r + occupancy s < s.cfg.capacity
  rw [(hm _).2]
  omega

/-- A push into a queue that the producer sees not full keeps the invariant. -/
theorem BlockInv.pushed {s : State} (h : BlockInv s) (e : ButtonEvent) (hf : queueFull s = false) : BlockInv (pushed e s) := by
  refine h.ofProducer (.pushed e s) (pushed_queueOk h.queueOk e) fun hs => ?_
  obtain ⟨h1, h2, h3, h4⟩ := h.views hs
  have hw := h.writeIndex
  have hr := h.readIndex
  have hne : nextIndex s.cfg.capacity s.q.w ≠ s.rv := by
    intro hn
    have hs' : s.cfg.staleView = true := hs
    have : queueFull s = true := by simp [queueFull, seenR, hs', hn]
    rw [this] at hf
    cases hf
  have hocc : occupancy s ≠ s.cfg.capacity - 1 := by
    intro ho
    have hg : gapTo s.cfg.capacity s.rv s.q.r = 0 := by omega
    have hn := (full_iff h.queueOk).mpr ho
    rw [gapTo_eq h1 hr] at hg
    split at hg <;> omega
  have hp := occupancy_pushed h.queueOk e hocc
  refine ⟨h1, h2, ?_, ?_⟩
  · show gapTo s.cfg.capacity s.rv s.q.r + occupancy (Machine.pushed e s) < s.cfg.capacity
    rw [hp]
    unfold occupancy at h3 ⊢
    rw [nextIndex_eq hw] at hne
    rw [gapTo_eq h1 hr, gapTo_eq hr hw] at h3 ⊢
    by_cases ha : s.rv ≤ s.q.r <;> by_cases hb : s.q.r ≤ s.q.w <;>
      simp only [ha, hb, if_true, if_false] at h3 ⊢ <;> split at hne <;> omega
  · show gapTo s.cfg.capacity s.wv (nextIndex s.cfg.capacity s.q.w) ≤ occupancy (Machine.pushed e s)
    rw [hp, gapTo_eq h2 (nextIndex_lt (capacity_pos _) _), nextIndex_eq hw]
    rw [gapTo_eq h2 hw] at h4
    split at h4 <;> split <;> split <;> omega

/-- Dropping or reading the oldest event keeps the invariant with exact views. -/
theorem BlockInv.popped_exact {s : State} (h : BlockInv s) (hv : s.cfg.staleView = false) : BlockInv (popped s) :=
  h.ofProducer (.popped s) (popped_queueOk h.queueOk) fun hs => by
    have : s.cfg.staleView = true := hs
    rw [hv] at this
    cases this

theorem BlockInv.pushed_exact {s : State} (h : BlockInv s) (hv : s.cfg.staleView = false) (e : ButtonEvent) :
    BlockInv (Machine.pushed e s) :=
  h.ofProducer (.pushed e s) (pushed_queueOk h.queueOk e) fun hs => by
    have : s.cfg.staleView = true := hs
    rw [hv] at this
    cases this

/-- A look by the consumer keeps the invariant. -/
theorem BlockInv.lookConsumer {s : State} (h : BlockInv s) : BlockInv (lookConsumer s) := by
  unfold Machine.lookConsumer
  split
  · rename_i hs
    obtain ⟨h1, h2, h3, h4⟩ := h.views hs
    have hm := fun d => moveView_spec (draw := d) h2 h.writeIndex
    exact {
      cfgWf := h.cfgWf, column := h.column, period := h.period, fbWf := h.fbWf, fbRows := h.fbRows
      counters := h.counters, slotCount := h.slotCount, writeIndex := h.writeIndex, readIndex := h.readIndex
      views := fun _ => ⟨h1, (hm _).1, h3, by
        show gapTo s.cfg.capacity (moveView _ _ _ _) s.q.w ≤ occupancy s
        rw [(hm _).2]
        omega⟩
      frame := h.frame, noUpdate := h.noUpdate }
  · exact h

/-- Reading the oldest event of a queue that the consumer sees not empty keeps the invariant. -/
theorem BlockInv.popped {s : State} (h : BlockInv s) (he : queueEmpty s = false) : BlockInv (popped s) := by
  refine h.ofProducer (.popped s) (popped_queueOk h.queueOk) fun hs => ?_
  have hs' : s.cfg.staleView = true := hs
  obtain ⟨h1, h2, h3, h4⟩ := h.views hs
  have hw := h.writeIndex
  have hr := h.readIndex
  have hne : s.wv ≠ s.q.r := by
    intro hn
    have : queueEmpty s = true := by simp [queueEmpty, seenW, hs', hn]
    rw [this] at he
    cases he
  have hocc : occupancy s ≠ 0 := by
    intro ho
    have hn := (empty_iff h.queueOk).mpr ho
    rw [ho, gapTo_eq h2 hw] at h4
    split at h4 <;> omega
  have hp := occupancy_popped h.queueOk hocc
  refine ⟨h1, h2, ?_, ?_⟩
  · show gapTo s.cfg.capacity s.rv (nextIndex s.cfg.capacity s.q.r) + occupancy (Machine.popped s) < s.cfg.capacity
    rw [gapTo_eq h1 (nextIndex_lt (capacity_pos _) _), nextIndex_eq hr]
    rw [gapTo_eq h1 hr] at h3
    split at h3 <;> split <;> split <;> omega
  · show gapTo s.cfg.capacity s.wv s.q.w ≤ occupancy (Machine.popped s)
    unfold occupancy at h4 hocc hp
    rw [gapTo_eq h2 hw] at h4 ⊢
    rw [gapTo_eq hr hw] at h4 hocc hp
    change _ ≤ gapTo s.cfg.capacity (nextIndex s.cfg.capacity s.q.r) s.q.w
    change gapTo s.cfg.capacity (nextIndex s.cfg.capacity s.q.r) s.q.w + 1 = _ at hp
    by_cases ha : s.wv ≤ s.q.w <;> by_cases hb : s.q.r ≤ s.q.w <;>
      simp only [ha, hb, if_true, if_false] at h4 hocc hp ⊢ <;> omega

/-! ## Debounce registers -/

/-- Writing one column's registers with a counter of 0..THRESHOLD keeps the invariant. -/
theorem BlockInv.withDeb {s : State} (h : BlockInv s) (k : Fin 10) {d : Debounce} (hd : d.cnt.toNat ≤ 2) :
    BlockInv (s.withDeb k d) :=
  { h with
    counters := by
      intro j
      rw [State.withDeb_getElem]
      split
      · exact hd
      · exact h.counters j }

theorem BlockInv.queueWrite {s t : State} {e : ButtonEvent} {ok : Bool} (h : BlockInv s)
    (hw : queueWrite e s = .next (ok, t)) : BlockInv t := by
  rcases queueWrite_cases hw with ⟨-, -, rfl⟩ | ⟨-, hf, rfl⟩
  · exact h.lookProducer
  · exact h.lookProducer.pushed e hf

theorem BlockInv.queueWriteDrop {s t : State} {e : ButtonEvent} (h : BlockInv s) (hw : queueWriteDrop e s = .next t) :
    BlockInv t := by
  obtain ⟨hv, ⟨-, rfl⟩ | ⟨-, rfl⟩⟩ := queueWriteDrop_cases hw
  · exact (h.popped_exact hv).pushed_exact hv e
  · exact h.pushed_exact hv e

/-! ## Frame Buffer and frame -/

theorem BlockInv.withFb {s : State} (h : BlockInv s) {m : Memory} (hw : Memory.wf m = true) (hr : FbRowsOnly m) :
    BlockInv (s.withFb m) :=
  { h with fbWf := hw, fbRows := hr }

theorem BlockInv.applySubSteps {s : State} (h : BlockInv s) (ps : List SubStep) : BlockInv (applySubSteps s ps) := by
  rw [applySubSteps_frame]
  exact h.withFb (applySubSteps_wf h.fbWf ps) (applySubSteps_rowsOnly h.fbRows ps)

/-- Every frame the block makes is legal (30_encoding.md R89, R90). -/
theorem frameOf_legal {s : State} (h : FbRowsOnly s.fb) (st : BitVec 2) (c : Fin 10) :
    FrameLegal s (frameOf s st c) := by
  have key : ∀ x : Byte, x.toNat < 64 → (~~~x).getLsbD 6 = true ∧ (~~~x).getLsbD 7 = true := by decide
  refine ⟨fun ch => ?_, c, ?_⟩
  · have hlt : ∀ ch, (fbRead s st c ch).toNat < 64 := fun ch => FbRowsOnly_read h _
    cases ch
    · exact key _ (hlt .red)
    · exact key _ (hlt .green)
    · exact key _ (hlt .blue)
  · simp only [Frame.select, frameOf]
    generalize colsel s c = v
    apply BitVec.eq_of_getLsbD_eq
    intro i hi
    rw [BitVec.getLsbD_append]
    simp only [BitVec.getLsbD_extractLsb']
    by_cases h8 : i < 8
    · simp [h8]
    · have : 8 + (i - 8) = i := by omega
      have h9 : i - 8 < 8 := by omega
      simp [h8, this, h9]

theorem BlockInv.sendFrame {s : State} (h : BlockInv s) {f : Frame} (hf : FrameLegal s f) : BlockInv (s.sendFrame f) :=
  { h with
    frame := by
      intro f' hs
      cases hs
      exact hf }

/-! ## The operations keep the invariant -/

theorem BlockInv.occupancy_of_notFull {s : State} (h : BlockInv s) (hf : queueFull s = false) :
    occupancy s ≠ s.cfg.capacity - 1 := by
  intro ho
  by_cases hst : s.cfg.staleView = true
  · obtain ⟨v1, -, v3, -⟩ := h.views hst
    unfold queueFull seenR at hf
    rw [if_pos hst] at hf
    simp only [beq_eq_false_iff_ne, ne_eq] at hf
    have hri := h.readIndex
    have hz : gapTo s.cfg.capacity s.rv s.q.r = 0 := by omega
    have hrv : s.rv = s.q.r := by
      rw [gapTo_eq v1 hri] at hz
      split at hz <;> omega
    rw [hrv] at hf
    exact hf ((full_iff h.queueOk).2 ho)
  · have := (queueFull_exact (by simpa using hst) h.queueOk).2 ho
    rw [this] at hf
    cases hf

theorem BlockInv.occupancy_of_notEmpty {s : State} (h : BlockInv s) (hf : queueEmpty s = false) :
    occupancy s ≠ 0 := by
  intro ho
  by_cases hst : s.cfg.staleView = true
  · obtain ⟨-, v2, -, v4⟩ := h.views hst
    unfold queueEmpty seenW at hf
    rw [if_pos hst] at hf
    simp only [beq_eq_false_iff_ne, ne_eq] at hf
    have hwi := h.writeIndex
    have hz : gapTo s.cfg.capacity s.wv s.q.w = 0 := by omega
    have hwv : s.wv = s.q.w := by
      rw [gapTo_eq v2 hwi] at hz
      split at hz <;> omega
    rw [hwv] at hf
    exact hf ((empty_iff h.queueOk).2 ho)
  · have := (queueEmpty_exact (by simpa using hst) h.queueOk).2 ho
    rw [this] at hf
    cases hf

theorem BlockInv.queueRead {s t : State} {r : Option ButtonEvent} (h : BlockInv s)
    (hr : queueRead s = .next (r, t)) : BlockInv t := by
  rcases queueRead_cases hr with ⟨-, -, rfl⟩ | ⟨e, -, he, rfl, -⟩
  · exact h.lookConsumer
  · exact h.lookConsumer.popped he

theorem BlockInv.commitRow {k : Fin 10} {r : Fin 6} {s t : State} {go : Bool} (h : BlockInv s)
    (hr : commitRow k r s = .next (go, t)) : BlockInv t := by
  rcases commitRow_cases hr with ⟨-, -, rfl⟩ | ⟨-, -, -, hw⟩ | ⟨-, -, -, u, hw, rfl⟩ | ⟨-, -, -, hw⟩
  · exact h
  · exact h.queueWrite hw
  · exact { h.queueWrite hw with }
  · exact h.queueWriteDrop hw

theorem BlockInv.commit {k : Fin 10} {d : Byte} {s t : State} (h : BlockInv s) (hr : commit k d s = .next t) :
    BlockInv t := by
  obtain ⟨u, ⟨hu, rfl⟩ | ⟨hu, rfl⟩⟩ := commit_cases hr
  · have := commitRows_induct (P := BlockInv) (fun _ _ _ _ => BlockInv.commitRow) h hu
    exact this.withDeb k (this.counters k)
  · exact commitRows_induct (P := BlockInv) (fun _ _ _ _ => BlockInv.commitRow) h hu

theorem BlockInv.bumpCounter {k : Fin 10} {s : State} (h : BlockInv s) : BlockInv (bumpCounter k s) := by
  have hle : ∀ x : BitVec 2, x < threshold → (x + 1).toNat ≤ 2 := by decide
  unfold Machine.bumpCounter
  split
  · exact h.withDeb k (hle _ ‹_›)
  · exact h

theorem BlockInv.confirm {k : Fin 10} {d : Byte} {s t : State} (h : BlockInv s) (hr : confirm k d s = .next t) :
    BlockInv t := by
  obtain ⟨u, hu, ht⟩ := confirm_cases hr
  have h1 : BlockInv u := by
    rcases hu with rfl | rfl
    · exact h
    · exact h.bumpCounter
  rcases ht with rfl | ht
  · exact h1
  · exact h1.commit ht

theorem BlockInv.debounceStep {k : Fin 10} {d : Byte} {s t : State} (h : BlockInv s)
    (hr : debounceStep k d s = .next t) : BlockInv t := by
  rcases debounceStep_cases hr with ⟨-, rfl⟩ | ⟨-, -, rfl⟩ | ⟨-, -, hc⟩
  · exact h.withDeb k (show (0 : BitVec 2).toNat ≤ 2 by decide)
  · exact h.withDeb k (show (0 : BitVec 2).toNat ≤ 2 by decide)
  · exact h.confirm hc

theorem BlockInv.advance {c : Fin 10} {s : State} (h : BlockInv s) : BlockInv (advance c s) := by
  have hstage : ∀ x : BitVec 2, x ≠ 3 → (x + 1).toNat = x.toNat + 1 ∧ x.toNat + 1 ≤ 3 := by decide
  have hcol : ∀ x : Fin 10, (columnReg x).toNat < 10 := by decide
  have hper : newPeriod s = s.cfg.base <<< (newStage s).toNat := by
    unfold newPeriod newStage
    by_cases hb : s.bamStage = 3
    · rw [if_pos hb, if_pos hb]
      simp
    · rw [if_neg hb, if_neg hb]
      obtain ⟨h1, h2⟩ := hstage _ hb
      rw [h1, h.period, ← Nat.shiftLeft_add]
      apply Nat.mod_eq_of_lt
      refine Nat.lt_of_le_of_lt ?_ h.cfgWf.2.2.1
      rw [Nat.shiftLeft_eq]
      exact Nat.mul_le_mul_left _ (Nat.pow_le_pow_right (n := 2) (by decide) h2)
  exact { h with column := hcol _, period := hper }

theorem BlockInv.emitFrame {st : BitVec 2} {c : Fin 10} {s : State} (h : BlockInv s) : BlockInv (emitFrame st c s) :=
  h.sendFrame (frameOf_legal h.fbRows st c)

theorem BlockInv.finishUpdate {s : State} (h : BlockInv s) : BlockInv (finishUpdate s) := by
  unfold Machine.finishUpdate
  split
  · exact h
  · split
    · exact h
    · exact { h.applySubSteps _ with noUpdate := fun _ => rfl }

theorem BlockInv.bamEncode {a : Agent} {r : Fin 6} {c : Fin 10} {v : Rgb} {s : State} (h : BlockInv s) :
    BlockInv (bamEncode a r c v s) := by
  unfold Machine.bamEncode
  split
  · rename_i ht
    have hc : (Machine.finishUpdate s).cfg = s.cfg := by
      unfold Machine.finishUpdate
      split
      · rfl
      · split
        · rfl
        · rw [applySubSteps_frame]
          rfl
    exact { h.finishUpdate with
      noUpdate := by
        intro hf
        have : s.cfg.tear = false := by
          rw [← hc]
          exact hf
        simp [ht] at this }
  · exact h.applySubSteps _

theorem BlockInv.setRgb {a : Agent} {row col : Byte} {v : Rgb} {s : State} (h : BlockInv s) :
    BlockInv (setRgb a row col v s) := by
  unfold Machine.setRgb
  split
  · exact h
  · split
    · exact h.bamEncode
    · exact h

theorem BlockInv.colorSubStep {s : State} (h : BlockInv s) : BlockInv (colorSubStep s) := by
  have h1 : ∀ p, BlockInv (applySubStep s p) := fun p => h.applySubSteps [p]
  unfold Machine.colorSubStep
  split
  · exact h
  · split
    · exact h
    · exact { h with noUpdate := fun _ => rfl }
    · exact { h1 _ with noUpdate := fun _ => rfl }
    · rename_i a p ps _ hu
      exact { h1 p with
        noUpdate := by
          intro hf
          have := h.noUpdate hf
          rw [this] at hu
          cases hu }

end Sys2Proof.Machine
end

