-- ==== Sys2Proof/Laws/PerInstr.lean ====
section
/-!
SUPPORT. The round trip of the encoder, constructor by constructor.
-/

namespace Sys2Proof.Laws.RoundTrip

/-- A well-formed operation that a port can start has an event that decodes to it; an internal micro-operation has no
event (30_encoding.md R81, R92). -/
def Statement (i : Instr) : Prop :=
  (i.wf = true → i.fromPort = true → ∃ e, encode i = some e ∧ decodeEvent e = i) ∧
  (i.fromPort = false → encode i = none)

theorem setColor (b0 b1 b2 b3 : Byte) : Statement (.setColor b0 b1 b2 b3) :=
  ⟨fun _ _ => ⟨_, rfl, rfl⟩, fun h => by cases h⟩

theorem rxIgnored (bytes : List Byte) : Statement (.rxIgnored bytes) := by
  refine ⟨fun hw _ => ⟨_, rfl, ?_⟩, fun h => by cases h⟩
  show decodeRx bytes = _
  unfold decodeRx
  split
  · simp [Instr.wf] at hw
  · rfl

theorem poll : Statement (.poll) :=
  ⟨fun _ _ => ⟨_, rfl, rfl⟩, fun h => by cases h⟩

theorem tick (d : Byte) : Statement (.tick d) :=
  ⟨fun _ _ => ⟨_, rfl, rfl⟩, fun h => by cases h⟩

theorem setRgb (row col : Byte) (red green blue : BitVec 4) : Statement (.setRgb row col red green blue) :=
  ⟨fun _ _ => ⟨_, rfl, rfl⟩, fun h => by cases h⟩

theorem reset : Statement (.reset) :=
  ⟨fun _ _ => ⟨_, rfl, rfl⟩, fun h => by cases h⟩

theorem advance : Statement (.advance) :=
  ⟨fun _ h => (by cases h), fun _ => rfl⟩

theorem emitFrame (st : BitVec 2) (c : Fin 10) (d : Byte) : Statement (.emitFrame st c d) :=
  ⟨fun _ h => (by cases h), fun _ => rfl⟩

theorem debounceStep (k : Fin 10) (d : Byte) : Statement (.debounceStep k d) :=
  ⟨fun _ h => (by cases h), fun _ => rfl⟩

theorem confirm (k : Fin 10) (d : Byte) : Statement (.confirm k d) :=
  ⟨fun _ h => (by cases h), fun _ => rfl⟩

theorem commit (k : Fin 10) (d : Byte) : Statement (.commit k d) :=
  ⟨fun _ h => (by cases h), fun _ => rfl⟩

theorem queueWrite (e : ButtonEvent) : Statement (.queueWrite e) :=
  ⟨fun _ h => (by cases h), fun _ => rfl⟩

theorem queueRead : Statement (.queueRead) :=
  ⟨fun _ h => (by cases h), fun _ => rfl⟩

theorem queueWriteDrop (e : ButtonEvent) : Statement (.queueWriteDrop e) :=
  ⟨fun _ h => (by cases h), fun _ => rfl⟩

theorem bamEncode (row : Fin 6) (col : Fin 10) (red green blue : BitVec 4) : Statement (.bamEncode row col red green blue) :=
  ⟨fun _ h => (by cases h), fun _ => rfl⟩

end Sys2Proof.Laws.RoundTrip
end

