-- ==== Sys2Proof/Laws/Step.lean ====
section
/-!
SUPPORT. Runs of the machine, and the three kinds of step.
-/

namespace Sys2Proof.Machine

/-- A run of one step more goes on from the next state. -/
theorem coreRun_succ (M : Host.Core) (n : Nat) {s t : M.State} (h : M.step s = .next t) :
    M.run (n + 1) s = M.run n t := by
  rw [Host.Core.run, h]

/-- A run that answers next took its first step to a next state. -/
theorem coreRun_succ_next (M : Host.Core) (n : Nat) {s u : M.State} (h : M.run (n + 1) s = .next u) :
    ∃ t, M.step s = .next t ∧ M.run n t = .next u := by
  rw [Host.Core.run] at h
  split at h
  · exact ⟨_, ‹_›, h⟩
  · cases h
  · cases h

theorem run_zero (s : State) : Host.Core.run Sys2Proof.core 0 s = .next s := rfl

theorem run_succ {s t : State} (n : Nat) (h : step s = .next t) :
    Host.Core.run Sys2Proof.core (n + 1) s = Host.Core.run Sys2Proof.core n t :=
  coreRun_succ Sys2Proof.core n h

/-- A run that answers next took its first step to a next state. -/
theorem run_succ_next {n : Nat} {s u : State} (h : Host.Core.run Sys2Proof.core (n + 1) s = .next u) :
    ∃ t, step s = .next t ∧ Host.Core.run Sys2Proof.core n t = .next u :=
  coreRun_succ_next Sys2Proof.core n h

theorem step_event {s : State} {e : PortEvent} {rest : List Turn} (h : s.inputs = .event e :: rest) :
    step s = exec (decodeEvent e) (arrive e rest s) := by
  unfold step
  rw [h]

theorem step_subStep {s : State} {rest : List Turn} (h : s.inputs = .colorSubStep :: rest) :
    step s = .next (colorSubStep (s.withInputs rest)) := by
  unfold step
  rw [h]

theorem step_idle {s : State} (h : s.inputs = []) : step s = .next (colorSubStep s) := by
  unfold step
  rw [h]

/-- Finishing an update writes the Frame Buffer and ends the update, or does nothing. -/
theorem finishUpdate_cases (s : State) :
    finishUpdate s = s ∨ ∃ m, finishUpdate s = (s.withFb m).withUpdate none := by
  unfold finishUpdate
  split
  · exact .inl rfl
  · split
    · exact .inl rfl
    · rw [applySubSteps_frame]
      exact .inr ⟨_, rfl⟩

/-- While halted no update is finished. -/
theorem finishUpdate_halted {s : State} (h : s.halted = true) : finishUpdate s = s := by
  unfold finishUpdate
  split
  · rfl
  · exact if_pos h

/-- What the arrival of an event does: it is taken, and an update of the same agent is finished. -/
theorem arrive_cases (e : PortEvent) (rest : List Turn) (s : State) :
    arrive e rest s = s.withInputs rest ∨
      ∃ m, arrive e rest s = ((s.withInputs rest).withFb m).withUpdate none := by
  unfold arrive settle
  split
  · exact .inl rfl
  · split
    · exact finishUpdate_cases _
    · exact .inl rfl

theorem arrive_halted (e : PortEvent) (rest : List Turn) {s : State} (h : s.halted = true) :
    arrive e rest s = s.withInputs rest := by
  unfold arrive settle
  split
  · rfl
  · split
    · exact finishUpdate_halted (s := s.withInputs rest) h
    · rfl

theorem BlockInv.arrive {e : PortEvent} {rest : List Turn} {s : State} (h : BlockInv s) : BlockInv (arrive e rest s) := by
  have h1 : BlockInv (s.withInputs rest) := { h with }
  unfold Machine.arrive settle
  split
  · exact h1
  · split
    · exact h1.finishUpdate
    · exact h1

/-- A port event never decodes to an internal micro-operation. -/
theorem decodeEvent_fromPort (e : PortEvent) : (decodeEvent e).fromPort = true := by
  cases e with
  | rx bytes =>
    show (decodeRx bytes).fromPort = true
    unfold decodeRx
    split <;> rfl
  | tick => rfl
  | pollReq => rfl
  | setRgb => rfl
  | reset => rfl

/-- Only the reset event decodes to RESET. -/
theorem decodeEvent_reset {e : PortEvent} (h : decodeEvent e = .reset) : e = .reset := by
  cases e with
  | rx bytes =>
    have h' : decodeRx bytes = .reset := h
    unfold decodeRx at h'
    split at h' <;> cases h'
  | tick => cases h
  | pollReq => cases h
  | setRgb => cases h
  | reset => rfl

theorem colorSubStep_halted {s : State} (h : s.halted = true) : colorSubStep s = s := by
  unfold colorSubStep
  rw [if_pos h]

end Sys2Proof.Machine
end

