-- ==== Sys2Proof/Tests/Slice0.lean ====
section
/-!
SUPPORT. The model's own tests: the well-formedness smoke test, words and events decoded, one-step tests whose expected
results are the spec's examples and vectors (95_test_vectors.md, named at each), and for every statement with hypotheses
a state and operands that meet them.
-/

namespace Sys2Proof.Tests

open Sys2Proof Sys2Proof.Machine

/-! ## The states the tests start from -/

/-- An event that stands for whatever a slot holds before it is written. -/
def blank : ButtonEvent := ⟨0, 0, false⟩

/-- `ColorTable(7) = (15, 0, 0)` and `ColorTable(9) = (3, 12, 6)`, the test values of 95_test_vectors.md section 2.5. -/
def testTable : Vector Rgb 256 := ((Vector.replicate 256 Rgb.off).set 7 ⟨15, 0, 0⟩).set 9 ⟨3, 12, 6⟩

/-- `C = 4`, `BASE = 3`, `W_T = 8`. -/
def testCfg (rule : CommitRule) (policy : OverflowPolicy) (tear stale : Bool) : Config :=
  ⟨2, 3, 8, Config.defaultColsel, rule, policy, tear, stale, testTable⟩

/-- The state after reset at those parameters, the slots at a value. -/
def start (rule : CommitRule) (policy : OverflowPolicy) (tear stale : Bool) : State :=
  ⟨testCfg rule policy tear stale, 0, 0, 3, [], Vector.replicate 10 Debounce.reset, ⟨List.replicate 4 blank, 0, 0⟩, 0, 0,
    false, none, none, [], [], .none, ⟨0, 0, 0, 0⟩, ⟨0, 0⟩, ⟨0, 0⟩⟩

/-- The start state at the default rule, policy and atomicity. -/
def s0 : State := start .checkAfterIncrement .halt false false

/-- The debounce registers of column 3 set. -/
def sampleAt (s : State) (last pend : Byte) (cnt : BitVec 2) : State := { s with deb := s.deb.set 3 ⟨last, pend, cnt⟩ }

/-- A property of the next state; false of a stop. -/
def nextIs (r : Result State) (p : State → Bool) : Bool :=
  match r with
  | .next t => p t
  | .fault _ => false
  | .refused _ => false

/-- What a refusal says. -/
def refusalIs (r : Result State) (x : Refusal) : Bool :=
  match r with
  | .next _ => false
  | .fault _ => false
  | .refused y => decide (y = x)

/-- What a fault says. -/
def faultIs (r : Result State) (x : Fault) : Bool :=
  match r with
  | .next _ => false
  | .fault y => decide (y = x)
  | .refused _ => false

/-- The legal parameters of the tests. -/
theorem testCfg_wf (rule : CommitRule) (policy : OverflowPolicy) (tear stale : Bool)
    (h : ¬ (policy = .dropOldest ∧ stale = true)) : (testCfg rule policy tear stale).Wf :=
  ⟨show 1 ≤ 2 by decide, show 1 ≤ 3 by decide, show 3 * 8 < 2 ^ 8 by decide, show 4 ≤ 8 by decide,
    show ∀ i : Fin 10, OneHot Config.defaultColsel[i] by decide,
    show ∀ i j : Fin 10, Config.defaultColsel[i] = Config.defaultColsel[j] → i = j by decide, h⟩

theorem start_inv (rule : CommitRule) (policy : OverflowPolicy) (tear stale : Bool)
    (h : ¬ (policy = .dropOldest ∧ stale = true)) : BlockInv (start rule policy tear stale) where
  cfgWf := testCfg_wf rule policy tear stale h
  column := show (0 : BitVec 4).toNat < 10 by decide
  period := rfl
  fbWf := rfl
  fbRows := show FbRowsOnly [] by decide
  counters := show ∀ k : Fin 10, (Vector.replicate 10 Debounce.reset)[k].cnt.toNat ≤ 2 by decide
  slotCount := rfl
  writeIndex := show 0 < 4 by decide
  readIndex := show 0 < 4 by decide
  views := fun _ => show 0 < 4 ∧ 0 < 4 ∧ gapTo 4 0 0 + gapTo 4 0 0 < 4 ∧ gapTo 4 0 0 ≤ gapTo 4 0 0 by decide
  frame := fun f hf => by cases hf
  noUpdate := fun _ => rfl

theorem s0_inv : BlockInv s0 := start_inv _ _ _ _ (by decide)

/-! ## Well-formedness: an ill-formed term for the check (30_encoding.md R81) -/

theorem test_wf_refuses_four_ignored_bytes : (Instr.rxIgnored [0x00, 0x00, 0x01, 0x07]).wf = false := by decide

theorem test_wf_accepts_other_lengths :
    (Instr.rxIgnored []).wf = true ∧ (Instr.rxIgnored [0, 0, 1]).wf = true ∧
      (Instr.rxIgnored [0, 0, 1, 7, 0]).wf = true := by decide

/-! ## Decoding, from the spec's encodings -/

/-- `RX 01 02 01 03` is `SET_COLOR(1, 2, 1, 3)` (43_color.md R203). -/
theorem test_decode_set_color :
    decodeTableWord 32 0b00000001000000100000000100000011 = some (.setColor 1 2 1 3) := by decide

/-- V39: other lengths are ignored. -/
theorem test_decode_rx_ignored :
    decodeTableWord 0 0 = some (.rxIgnored []) ∧ decodeTableWord 8 0x00 = some (.rxIgnored [0]) ∧
      decodeTableWord 24 0x000001 = some (.rxIgnored [0, 0, 1]) ∧
      decodeTableWord 40 0x0000010700 = some (.rxIgnored [0, 0, 1, 7, 0]) := by decide

/-- Half a byte is no transaction (log entry 17). -/
theorem test_decode_part_of_byte : decodeTableWord 12 0 = none := by decide

/-- The events of the other ports (30_encoding.md R81). -/
theorem test_decode_port_events :
    decodeEvent (.tick 0x5A) = .tick 0x5A ∧ decodeEvent .pollReq = .poll ∧
      decodeEvent (.setRgb 2 7 5 10 0) = .setRgb 2 7 5 10 0 ∧ decodeEvent .reset = .reset := by decide

/-- The first byte received is the high byte of the word (30_encoding.md R92). -/
theorem test_encode_word_byte_order :
    encodeWord (.setColor 0x01 0x02 0x01 0x03) = some (32, 0x01020103) ∧ encodeWord .poll = none := by decide

/-- Internal micro-operations have no encoding (opcode_table.json). -/
theorem test_encode_internal :
    encode .advance = none ∧ encode (.emitFrame 0 9 0) = none ∧ encode (.debounceStep 3 4) = none ∧
      encode (.confirm 3 4) = none ∧ encode (.commit 3 4) = none ∧ encode (.queueWrite blank) = none ∧
      encode .queueRead = none ∧ encode (.queueWriteDrop blank) = none ∧ encode (.bamEncode 0 0 15 0 0) = none := by
  decide

/-! ## The sequencer -/

/-- Example of 40_sequencer.md R110, and V1 tick 1: `FF FF FF 00 01`, `2·BASE`. V7: a halted tick. -/
theorem test_tick_from_reset :
    nextIs (exec (.tick 0x00) s0) (fun t =>
        decide (t.column = 0 ∧ t.bamStage = 1 ∧ t.tickPeriod = 2 * 3 ∧
          t.srFrame.map Frame.bytes = some [0xFF, 0xFF, 0xFF, 0x00, 0x01])) = true ∧
      nextIs (exec (.tick 0) { s0 with halted := true, bamStage := 3 }) (fun t =>
        decide (t.bamStage = 3 ∧ t.srFrame = none ∧ t.out = [])) = true := by decide

/-- V3: the tick with new cursor (9, 0) sends `DE FF C0 02 00`; its readback goes to column 8. -/
theorem test_tick_to_next_column :
    nextIs (exec (.tick 0x04) { s0 with column := 8, bamStage := 3, tickPeriod := 24, fb := [(27, 0x21), (28, 0x3F)] })
      (fun t => decide (t.srFrame.map Frame.bytes = some [0xDE, 0xFF, 0xC0, 0x02, 0x00] ∧ t.tickPeriod = 3 ∧
        t.deb[8] = ⟨0x00, 0x04, 0⟩ ∧ t.deb[9] = ⟨0, 0, 0⟩)) = true := by decide

/-- Example of 40_sequencer.md R111: `(column 4, stage 3)` to `(column 5, stage 0)`, `tickPeriod = BASE`. -/
theorem test_advance_to_next_column :
    nextIs (exec .advance { s0 with column := 4, bamStage := 3, tickPeriod := 24 })
      (fun t => decide (t.column = 5 ∧ t.bamStage = 0 ∧ t.tickPeriod = 3)) = true := by decide

/-- V5: from (9, 3) to (0, 0). -/
theorem test_advance_wraps :
    nextIs (exec .advance { s0 with column := 9, bamStage := 3, tickPeriod := 24 })
      (fun t => decide (t.column = 0 ∧ t.bamStage = 0 ∧ t.tickPeriod = 3)) = true := by decide

/-- V4: only `fb[2][4][BLUE] = 0x10`; cursor (4, 2) sends `FF EF FF 00 10`. -/
theorem test_emit_frame_wire_order :
    nextIs (exec (.emitFrame 2 4 0xA5) { s0 with fb := [(74, 0x10)] })
      (fun t => decide (t.srFrame.map Frame.bytes = some [0xFF, 0xEF, 0xFF, 0x00, 0x10] ∧
        t.ret = .dataIn 0xA5)) = true := by decide

/-! ## Debounce -/

/-- V10, first sample; V17, step 1 keeps `pend`. -/
theorem test_debounce_step :
    nextIs (exec (.debounceStep 3 0x04) (sampleAt s0 0x00 0x00 0)) (fun t => decide (t.deb[3] = ⟨0x00, 0x04, 0⟩)) = true ∧
      nextIs (exec (.debounceStep 3 0x00) (sampleAt s0 0x00 0x04 1))
        (fun t => decide (t.deb[3] = ⟨0x00, 0x04, 0⟩)) = true := by decide

/-- V10, third sample: `(04, 04, 2)` and `{3, 2, T}`. -/
theorem test_debounce_step_commits :
    nextIs (exec (.debounceStep 3 0x04) (sampleAt s0 0x00 0x04 1)) (fun t =>
      decide (t.deb[3] = ⟨0x04, 0x04, 2⟩ ∧ unread t = [⟨3, 2, true⟩])) = true := by decide

/-- V10 under `elseBranch`: at counter 1 no commit; V20: at counter 2 the commit, counter 2. -/
theorem test_confirm_else_branch :
    nextIs (exec (.confirm 3 0x04) (sampleAt (start .elseBranch .halt false false) 0x00 0x04 1)) (fun t =>
        decide (t.deb[3] = ⟨0x00, 0x04, 2⟩ ∧ unread t = [])) = true ∧
      nextIs (exec (.confirm 3 0x04) (sampleAt (start .elseBranch .halt false false) 0x00 0x04 2)) (fun t =>
        decide (t.deb[3] = ⟨0x04, 0x04, 2⟩ ∧ unread t = [⟨3, 2, true⟩])) = true := by decide

/-- V11: the reversal commits at once by default and is stuck under `onIncrementOnly`. -/
theorem test_confirm_reversal :
    nextIs (exec (.confirm 3 0x00) (sampleAt s0 0x04 0x04 2)) (fun t =>
        decide (t.deb[3] = ⟨0x00, 0x04, 2⟩ ∧ unread t = [⟨3, 2, false⟩])) = true ∧
      nextIs (exec (.confirm 3 0x00) (sampleAt (start .onIncrementOnly .halt false false) 0x04 0x04 2)) (fun t =>
        decide (t.deb[3] = ⟨0x04, 0x04, 2⟩ ∧ unread t = [])) = true := by decide

/-- V15: mixed directions; V16: bits 6 and 7 commit with no event. -/
theorem test_commit_events :
    nextIs (exec (.commit 3 0x02) (sampleAt s0 0x01 0x03 2)) (fun t =>
        decide (t.deb[3] = ⟨0x02, 0x03, 2⟩ ∧ unread t = [⟨3, 0, false⟩, ⟨3, 1, true⟩])) = true ∧
      nextIs (exec (.commit 3 0xC0) (sampleAt s0 0x00 0xC0 2)) (fun t =>
        decide (t.deb[3] = ⟨0xC0, 0xC0, 2⟩ ∧ unread t = [])) = true := by decide

/-- A state of V47 and V48: `C = 2`, the queue empty, `deb[3] = (00, 05, 2)`. -/
def tiny (policy : OverflowPolicy) : State :=
  sampleAt { start .checkAfterIncrement policy false false with
    cfg := { testCfg .checkAfterIncrement policy false false with capLog := 1 }, q := ⟨[blank, blank], 0, 0⟩ } 0x00 0x05 2

/-- V47 (column 3 for 4): the second event does not fit, the block halts, `last` stays. V48: it drops the first. -/
theorem test_commit_overflow :
    nextIs (exec (.commit 3 0x05) (tiny .halt)) (fun t =>
        decide (t.halted = true ∧ t.deb[3].last = 0x00 ∧ t.q.w = 1 ∧ unread t = [⟨3, 0, true⟩])) = true ∧
      nextIs (exec (.commit 3 0x05) (tiny .dropOldest)) (fun t =>
        decide (t.halted = false ∧ t.deb[3].last = 0x05 ∧ t.q.w = 0 ∧ t.q.r = 1 ∧ unread t = [⟨3, 2, true⟩])) = true := by
  decide

/-! ## The queue -/

/-- The start state with the queue's slots and cursors set. -/
def queueAt (s : State) (slots : List ButtonEvent) (w r : Nat) : State := { s with q := ⟨slots, w, r⟩ }

/-- Four events of different columns. -/
def evA : ButtonEvent := ⟨1, 0, true⟩
def evB : ButtonEvent := ⟨2, 5, false⟩
def evC : ButtonEvent := ⟨9, 5, false⟩
def evE : ButtonEvent := ⟨4, 3, true⟩

/-- V21 and V22. -/
theorem test_queue_write :
    nextIs (exec (.queueWrite evE) (queueAt s0 [blank, evA, evB, blank] 3 1)) (fun t =>
        decide (t.q = ⟨[blank, evA, evB, evE], 0, 1⟩ ∧ t.ret = .wrote true)) = true ∧
      nextIs (exec (.queueWrite evA) (queueAt s0 [blank, evA, evB, evE] 0 1)) (fun t =>
        decide (t.q = ⟨[blank, evA, evB, evE], 0, 1⟩ ∧ t.ret = .wrote false)) = true := by decide

/-- V23 and V24. -/
theorem test_queue_read :
    nextIs (exec .queueRead (queueAt s0 [blank, blank, blank, evB] 0 3)) (fun t =>
        decide (t.q = ⟨[blank, blank, blank, evB], 0, 0⟩ ∧ t.ret = .read (some ⟨2, 5, false⟩))) = true ∧
      nextIs (exec .queueRead (queueAt s0 [blank, blank, blank, evB] 2 2)) (fun t =>
        decide (t.q = ⟨[blank, blank, blank, evB], 2, 2⟩ ∧ t.ret = .read none)) = true := by decide

/-- V26 and V27. -/
theorem test_queue_write_drop :
    nextIs (exec (.queueWriteDrop evE) (queueAt s0 [evA, evB, evC, blank] 3 0)) (fun t =>
        decide (t.q = ⟨[evA, evB, evC, evE], 0, 1⟩ ∧ unread t = [evB, evC, evE])) = true ∧
      nextIs (exec (.queueWriteDrop evE) (queueAt s0 [evA, blank, blank, blank] 1 0)) (fun t =>
        decide (t.q = ⟨[evA, evE, blank, blank], 2, 0⟩)) = true := by decide

/-- V25: `q.w = 1`, `q.r = 3`: two unread events, slot 3 and then slot 0. -/
theorem test_occupancy :
    occupancy (queueAt s0 [evA, blank, blank, evB] 1 3) = 2 ∧
      unread (queueAt s0 [evA, blank, blank, evB] 1 3) = [evB, evA] := by decide

/-- The table of 42_event_queue.md R178, and V28. -/
theorem test_gray_code :
    (List.range 16).map gray =
        [0x0, 0x1, 0x3, 0x2, 0x6, 0x7, 0x5, 0x4, 0xC, 0xD, 0xF, 0xE, 0xA, 0xB, 0x9, 0x8] ∧ ungray 2 0b11 = 2 := by
  decide

/-! ## Colour -/

/-- V31: `fb[0][7][RED]`, `fb[1][7][GREEN]`, `fb[2][7][RED]`, `fb[3][7][GREEN]` are 0x04, every other cell 0. S8: a
column out of range. -/
theorem test_set_rgb :
    nextIs (exec (.setRgb 2 7 5 10 0) s0) (fun t =>
        decide (t.fb = [(21, 0x04), (52, 0x04), (81, 0x04), (112, 0x04)])) = true ∧
      nextIs (exec (.setRgb 0 10 1 1 1) s0) (fun t => decide (t.fb = [])) = true := by decide

/-- V33: with `fb[0][9][RED] = 0x21`, `SET_RGB(5, 9, 0, 0, 0)` gives 0x01. V32: the channels' own cells. -/
theorem test_set_rgb_locality :
    nextIs (exec (.setRgb 5 9 0 0 0) { s0 with fb := [(27, 0x21)] }) (fun t => decide (t.fb = [(27, 0x01)])) = true ∧
      nextIs (exec (.setRgb 5 9 1 2 4) s0) (fun t =>
        decide (t.fb = [(27, 0x20), (58, 0x20), (89, 0x20)])) = true := by decide

/-- V36: `RX 01 02 01 09`, the table's (3, 12, 6). S8: a row out of range. -/
theorem test_set_color :
    nextIs (exec (.setColor 1 2 1 9) s0) (fun t =>
        decide (t.fb = [(6, 0x02), (36, 0x02), (38, 0x02), (67, 0x02), (68, 0x02), (97, 0x02)] ∧
          t.out = [.ctIdx 9])) = true ∧
      nextIs (exec (.setColor 6 0 1 7) s0) (fun t => decide (t.fb = [] ∧ t.out = [])) = true := by decide

/-- V37: `isOn = 2` is on. V38: off with any index, the table not consulted. -/
theorem test_set_color_is_on :
    nextIs (exec (.setColor 0 0 2 7) s0) (fun t =>
        decide (t.fb = [(0, 0x01), (30, 0x01), (60, 0x01), (90, 0x01)])) = true ∧
      nextIs (exec (.setColor 0 0 0 7) { s0 with fb := [(0, 0x01), (30, 0x01), (60, 0x01), (90, 0x01)] }) (fun t =>
        decide (t.fb = [] ∧ t.out = [])) = true := by decide

/-- Example of 43_color.md R200. -/
theorem test_bam_encode :
    nextIs (exec (.bamEncode 0 0 15 0 0) { s0 with fb := [(1, 0x01), (32, 0x01)] }) (fun t =>
      decide (t.fb = [(0, 0x01), (30, 0x01), (60, 0x01), (90, 0x01)])) = true := by decide

/-- V40a: under `TEAR = true` BAM_ENCODE writes nothing yet; its first sub-step clears RED of stage 0. -/
theorem test_torn_update :
    nextIs (exec (.bamEncode 0 0 0 15 0) { start .checkAfterIncrement .halt true false with fb := [(0, 0x01)] }) (fun t =>
      decide (t.fb = [(0, 0x01)]) && nextIs (step { t with inputs := [.colorSubStep] }) (fun u =>
        decide (u.fb = [])))  = true := by decide

/-- V39: an ignored transaction. -/
theorem test_rx_ignored :
    nextIs (exec (.rxIgnored [0, 0, 1]) { s0 with fb := [(0, 0x01)] }) (fun t =>
      decide (t.fb = [(0, 0x01)] ∧ t.out = [])) = true := by decide

/-! ## Poll, reset, halt -/

/-- V42: `{9, 5, F}` gives `09 05 00`. V41: an empty queue gives `FF FF FF`. -/
theorem test_poll :
    nextIs (exec .poll (queueAt s0 [evC, blank, blank, blank] 1 0)) (fun t =>
        decide (t.out = [.pollResp ⟨0x09, 0x05, 0x00⟩] ∧ t.q.r = 1)) = true ∧
      nextIs (exec .poll (queueAt s0 [evC, blank, blank, blank] 1 1)) (fun t =>
        decide (t.out = [.pollResp ⟨0xFF, 0xFF, 0xFF⟩] ∧ t.q.r = 1)) = true := by decide

/-- A state of V29 and V30: `STALE_VIEW = true`, cursors `w` and `r`, `rv = 0` and `wv = r`, and one test left before each view
must be at its cursor. -/
def staleAt (w r : Nat) : State :=
  { queueAt (start .checkAfterIncrement .halt false true) [evA, evB, evC, blank] w r with
    wv := r, rvWatch := ⟨r, 1⟩, wvWatch := ⟨w, 1⟩ }

/-- V29 with `wv = 1`, V30 with `rv` moved to 1: with no test left the view is at the cursor (42_event_queue.md R179). -/
theorem test_stale_view_reaches_cursor :
    nextIs (exec .poll (staleAt 1 0)) (fun t =>
        decide (t.out = [.pollResp (responseOf evA)] ∧ t.q.r = 1 ∧ t.wv = 1)) = true ∧
      nextIs (exec (.queueWrite evC) (staleAt 3 1)) (fun t =>
        decide (t.ret = .wrote true ∧ t.q.w = 0 ∧ t.rv = 1)) = true := by decide

/-- V46: reset from a halted state; a poll then returns the sentinel. -/
theorem test_reset :
    nextIs (exec .reset { queueAt (sampleAt s0 1 2 2) [evA, evB, evC, evE] 3 1 with
        halted := true, column := 9, bamStage := 3, fb := [(0, 1)] }) (fun t =>
      decide (t.halted = false ∧ t.column = 0 ∧ t.bamStage = 0 ∧ t.tickPeriod = 3 ∧ t.fb = [] ∧ t.deb[3] = ⟨0, 0, 0⟩ ∧
        t.q.w = 0 ∧ t.q.r = 0 ∧ t.srFrame = none) &&
      nextIs (exec .poll t) (fun u => decide (u.out = [.pollResp ⟨0xFF, 0xFF, 0xFF⟩]))) = true := by decide

/-- I10: a column of 10..15 is refused. 42_event_queue.md R175: dropOldest with stale views is refused. -/
theorem test_stops :
    refusalIs (exec .advance { s0 with column := 10 }) .illegalColumn = true ∧
      refusalIs (exec (.tick 0) { s0 with column := 15 }) .illegalColumn = true ∧
      refusalIs (exec (.queueWriteDrop evA) (start .checkAfterIncrement .dropOldest false true))
        .dropOldestWithStaleView = true ∧
      faultIs (exec (.queueWrite evA) (queueAt s0 [blank] 1 0)) .noSuchSlot = true := by decide

/-- R94: from reset `SCAN 0, d` is four ticks, from stage 1 it is three. -/
theorem test_scan_length :
    scanLength s0 0 = 4 ∧ scanLength { s0 with bamStage := 1 } 0 = 3 ∧ scanLength s0 9 = 40 := by decide

/-- P1: the word `0x00000107`, placed as the next turn, runs as the first operation after reset. -/
theorem test_fetch_word :
    nextIs (step (s0.withFetchWord 32 0x00000107)) (fun t =>
      decide (t.fb = [(0, 0x01), (30, 0x01), (60, 0x01), (90, 0x01)] ∧ t.inputs = [])) = true := by decide

/-! ## A state and operands that meet the hypotheses of each statement -/

theorem witness_operationKeepsInvariant : BlockInv s0 ∧ ∃ t, exec (.tick 0) s0 = .next t := ⟨s0_inv, _, rfl⟩

theorem witness_stepKeepsInvariant :
    BlockInv { s0 with inputs := [.event (.tick 0)] } ∧ ∃ t, step { s0 with inputs := [.event (.tick 0)] } = .next t :=
  ⟨{ s0_inv with }, _, rfl⟩

/-- With exact views no operand is shut out; with stale views every operation but QUEUE_WRITE_DROP is in. -/
theorem witness_everyOperationCompletes :
    (BlockInv s0 ∧ ∀ e, Instr.queueWriteDrop blank = .queueWriteDrop e → s0.cfg.staleView = false) ∧
      (BlockInv (start .checkAfterIncrement .halt false true) ∧ ∀ e, Instr.poll ≠ .queueWriteDrop e) :=
  ⟨⟨s0_inv, fun _ _ => rfl⟩, start_inv _ _ _ _ (by decide), fun _ h => by cases h⟩

theorem witness_noTurnStopsTheBlock : BlockInv { s0 with inputs := [.event (.tick 0), .event .pollReq] } :=
  { s0_inv with }

theorem witness_stepKeepsParameters : step s0 = .next s0 := rfl

theorem witness_wordDecodesToEncodedOperation :
    ((Instr.setColor 0 0 1 7).wf = true ∧ encodeWord (.setColor 0 0 1 7) = some (32, 0x00000107)) ∧
      ((Instr.rxIgnored []).wf = true ∧ encodeWord (.rxIgnored []) = some (0, 0)) ∧
      ((Instr.rxIgnored [255, 0, 1]).wf = true ∧ encodeWord (.rxIgnored [255, 0, 1]) = some (24, 0xFF0001)) := by
  decide

theorem witness_eventsAndPortOperationsAgree :
    ((Instr.rxIgnored [0, 0, 1]).wf = true ∧ (Instr.rxIgnored [0, 0, 1]).fromPort = true) ∧
      Instr.advance.fromPort = false := by decide

theorem witness_decoderMapsEveryEvent : ([] : List Byte).length ≠ 4 ∧ ([0, 0, 1, 7, 0] : List Byte).length ≠ 4 := by
  decide

/-- A state in which the host bus has a colour update under way. -/
def torn : State :=
  { start .checkAfterIncrement .halt true false with update := some ⟨.hostBus, [⟨0, 0, .red, 0, true⟩]⟩ }

theorem torn_inv : BlockInv torn :=
  { start_inv .checkAfterIncrement .halt true false (by decide) with noUpdate := fun h => by cases h }

theorem witness_stepRunsDecodedOperation :
    ({ s0 with inputs := [.event .pollReq] } : State).inputs = .event .pollReq :: [] ∧ s0.update = none ∧
      torn.update = some ⟨.hostBus, [⟨0, 0, .red, 0, true⟩]⟩ ∧ Agent.hostBus ≠ (PortEvent.tick 0).agent ∧
      ({ torn with halted := true } : State).halted = true ∧ Agent.hostBus = PortEvent.pollReq.agent ∧
      torn.halted = false := by decide

theorem witness_idleStepKeepsState : s0.inputs = [] ∧ s0.update = none := by decide

theorem witness_subStepTurnWritesOneBit :
    ({ torn with inputs := [.colorSubStep] } : State).inputs = .colorSubStep :: [] ∧
      ({ torn with inputs := [.colorSubStep] } : State).update = some ⟨.hostBus, ⟨0, 0, .red, 0, true⟩ :: []⟩ ∧
      torn.halted = false ∧ Memory.wf torn.fb = true ∧ ({ torn with halted := true } : State).halted = true := by decide

theorem witness_advanceMovesCursor :
    ({ s0 with column := 9, bamStage := 3 } : State).column.toNat < 10 ∧
      ({ s0 with column := 9, bamStage := 3 } : State).bamStage = 3 ∧ s0.column.toNat < 10 ∧ s0.bamStage ≠ 3 := by
  decide

theorem witness_haltedTickDoesNothing : ({ s0 with halted := true } : State).halted = true := rfl

theorem witness_tickWithinColumn :
    (s0.halted = false ∧ s0.column.toNat = (0 : Fin 10).val ∧ s0.bamStage ≠ 3) ∧
      (({ s0 with column := 9, bamStage := 2 } : State).halted = false ∧
        ({ s0 with column := 9, bamStage := 2 } : State).column.toNat = (9 : Fin 10).val ∧
        ({ s0 with column := 9, bamStage := 2 } : State).bamStage ≠ 3) := by decide

theorem witness_tickToNextColumn :
    ({ s0 with column := 9, bamStage := 3 } : State).halted = false ∧
      ({ s0 with column := 9, bamStage := 3 } : State).bamStage = 3 ∧
      (0 : Fin 10).val = (({ s0 with column := 9, bamStage := 3 } : State).column.toNat + 1) % 10 ∧
      (9 : Fin 10).val = ((0 : Fin 10).val + 9) % 10 ∧
      ({ s0 with column := 9, bamStage := 3 } : State).column.toNat < 10 := by decide

theorem witness_tickPeriodIsBaseShiftedByStage :
    BlockInv s0 ∧ s0.halted = false ∧ ∃ t, exec (.tick 0) s0 = .next t := ⟨s0_inv, rfl, _, rfl⟩

/-- Four ticks from a state, and from the reset state itself. -/
theorem witness_cursorAfterTicks :
    (BlockInv { s0 with inputs := tickTurns [0, 0, 0, 0] } ∧ ∃ t,
      Host.Core.run Sys2Proof.core 4 { s0 with inputs := tickTurns [0, 0, 0, 0] } = .next t ∧ t.halted = false) ∧
    ∃ t, Host.Core.run Sys2Proof.core 4 { State.reset with inputs := tickTurns [0, 0, 0, 0] } = .next t ∧
      t.halted = false :=
  ⟨⟨{ s0_inv with }, _, rfl, rfl⟩, _, rfl, rfl⟩

theorem witness_tickFrame :
    (∃ t, exec (.tick 0) s0 = .next t) ∧ s0.cfg.overflowPolicy = .halt ∧ s0.halted = false ∧ s0.bamStage ≠ 3 ∧
      (9 : Fin 10).val ≠ s0.column.toNat ∧ ∃ t, exec (.tick 0) { s0 with halted := true } = .next t :=
  ⟨⟨_, rfl⟩, rfl, rfl, by decide, by decide, _, rfl⟩

theorem witness_ledsShowTheNewColumn :
    BlockInv s0 ∧ s0.halted = false ∧ ∃ t, exec (.tick 0) s0 = .next t := ⟨s0_inv, rfl, _, rfl⟩

theorem witness_sampleHasThreeCases :
    (0x04 : Byte) = (sampleAt s0 0x04 0x00 1).deb[3].last ∧
      ((0x04 : Byte) ≠ (sampleAt s0 0x00 0x01 1).deb[3].last ∧
        (sampleAt s0 0x00 0x01 1).deb[3].last ^^^ 0x04 ≠ (sampleAt s0 0x00 0x01 1).deb[3].pend) ∧
      ((0x04 : Byte) ≠ (sampleAt s0 0x00 0x04 1).deb[3].last ∧
        (sampleAt s0 0x00 0x04 1).deb[3].last ^^^ 0x04 = (sampleAt s0 0x00 0x04 1).deb[3].pend) := by decide

/-- Each counter, under the rules its clauses are about. -/
theorem witness_confirmFollowsCommitRule :
    (sampleAt s0 0 4 0).deb[3].cnt = 0 ∧ (sampleAt s0 0 4 1).deb[3].cnt = 1 ∧ (sampleAt s0 0 4 2).deb[3].cnt = 2 ∧
      (sampleAt s0 0 4 3).deb[3].cnt = 3 ∧ s0.cfg.commitRule ≠ .elseBranch ∧ s0.cfg.commitRule ≠ .onIncrementOnly ∧
      (start .elseBranch .halt false false).cfg.commitRule = .elseBranch ∧
      (start .elseBranch .halt false false).cfg.commitRule ≠ .onIncrementOnly ∧
      (start .onIncrementOnly .halt false false).cfg.commitRule = .onIncrementOnly := by decide

theorem sample_inv (rule : CommitRule) (policy : OverflowPolicy) (tear stale : Bool) (last pend : Byte)
    (h : ¬ (policy = .dropOldest ∧ stale = true)) :
    BlockInv (sampleAt (start rule policy tear stale) last pend 2) :=
  { start_inv rule policy tear stale h with
    counters := by
      intro k
      show ((Vector.replicate 10 Debounce.reset).set 3 ⟨last, pend, 2⟩)[k].cnt.toNat ≤ 2
      by_cases hk : k = 3
      · subst hk
        simp
      · have h3 : (3 : Nat) ≠ k.val := fun e => hk (Fin.ext e.symm)
        simp [Debounce.reset, h3] }

/-- The changed rows fill the room exactly, and no row is changed. -/
theorem witness_commitQueuesEveryChangedRow :
    BlockInv (sampleAt s0 0x00 0x07 2) ∧ s0.cfg.overflowPolicy = .halt ∧ s0.cfg.staleView = false ∧
      (commitEvents (sampleAt s0 0x00 0x07 2) 3).length = room (sampleAt s0 0x00 0x07 2) ∧
      (commitEvents (sampleAt s0 0x00 0xC0 2) 3).length ≤ room (sampleAt s0 0x00 0xC0 2) :=
  ⟨sample_inv _ _ _ _ _ _ (by decide), rfl, rfl, by decide, by decide⟩

/-- One changed row too many. -/
theorem witness_commitWithoutRoomHalts :
    BlockInv (sampleAt s0 0x00 0x0F 2) ∧ s0.cfg.overflowPolicy = .halt ∧ s0.cfg.staleView = false ∧
      room (sampleAt s0 0x00 0x0F 2) + 1 = (commitEvents (sampleAt s0 0x00 0x0F 2) 3).length :=
  ⟨sample_inv _ _ _ _ _ _ (by decide), rfl, rfl, by decide⟩

theorem witness_commitDropsOldestEvents :
    BlockInv (sampleAt (start .checkAfterIncrement .dropOldest false false) 0x00 0x3F 2) ∧
      (start .checkAfterIncrement .dropOldest false false).cfg.overflowPolicy = .dropOldest :=
  ⟨sample_inv _ _ _ _ _ _ (by decide), rfl⟩

theorem witness_commitUnderAnyViewQueuesFirstPart :
    BlockInv (sampleAt (start .checkAfterIncrement .halt false true) 0x00 0x3F 2) ∧
      (start .checkAfterIncrement .halt false true).cfg.overflowPolicy = .halt :=
  ⟨sample_inv _ _ _ _ _ _ (by decide), rfl⟩

theorem witness_sampleTouchesOneColumn :
    (∃ t, exec (.debounceStep 3 4) (sampleAt s0 0 4 1) = .next t) ∧
      (∃ t, exec (.confirm 3 4) (sampleAt s0 0 4 1) = .next t) ∧
      (∃ t, exec (.commit 3 4) (sampleAt s0 0 4 1) = .next t) ∧ (9 : Fin 10) ≠ 3 ∧ s0.cfg.overflowPolicy = .halt :=
  ⟨⟨_, rfl⟩, ⟨_, rfl⟩, ⟨_, rfl⟩, by decide, rfl⟩

theorem witness_sampleReadsOneColumn : (9 : Fin 10) ≠ 3 ∧ ∃ t, exec (.debounceStep 3 4) (sampleAt s0 0 4 1) = .next t :=
  ⟨by decide, _, rfl⟩

theorem witness_freshChangeSamplesToCommit :
    (0x04 : Byte) ≠ (sampleAt s0 0x00 0x01 2).deb[3].last ∧
      (sampleAt s0 0x00 0x01 2).deb[3].pend ≠ 0x04 ^^^ (sampleAt s0 0x00 0x01 2).deb[3].last := by decide

theorem witness_pendingChangeSamplesToCommit :
    (0x00 : Byte) ≠ (sampleAt s0 0x04 0x04 0).deb[3].last ∧
      (sampleAt s0 0x04 0x04 0).deb[3].pend = 0x00 ^^^ (sampleAt s0 0x04 0x04 0).deb[3].last ∧
      (sampleAt s0 0x04 0x04 0).deb[3].cnt = 0 := by decide

theorem witness_quickReversalAfterCommit :
    (0x04 : Byte) ≠ 0x00 ∧ (sampleAt s0 0x04 0x04 2).deb[3] = ⟨0x04, 0x04 ^^^ 0x00, 2⟩ ∧
      s0.cfg.commitRule ≠ .onIncrementOnly ∧
      (sampleAt (start .onIncrementOnly .halt false false) 0x04 0x04 2).deb[3] = ⟨0x04, 0x04 ^^^ 0x00, 2⟩ ∧
      (start .onIncrementOnly .halt false false).cfg.commitRule = .onIncrementOnly := by decide

/-- A full queue of four slots, its cursors at the wrap. -/
def full : State := queueAt s0 [blank, evA, evB, evC] 0 1

theorem full_inv : BlockInv full :=
  { s0_inv with
    slotCount := rfl
    writeIndex := show 0 < 4 by decide
    readIndex := show 1 < 4 by decide
    views := fun h => by cases h }

theorem witness_queueWriteStoresOrRefuses :
    (full.cfg.staleView = false ∧ full.q.w < full.q.slots.length ∧ (full.q.w + 1) % full.cfg.capacity = full.q.r) ∧
      (s0.q.w < s0.q.slots.length ∧ (s0.q.w + 1) % s0.cfg.capacity ≠ s0.q.r) := by decide

theorem witness_queueReadTakesOrRefuses :
    (full.cfg.staleView = false ∧ full.q.slots[full.q.r]? = some evA ∧ full.q.w ≠ full.q.r) ∧
      (s0.q.slots[s0.q.r]? = some blank ∧ s0.q.w = s0.q.r) := by decide

theorem witness_queueWriteDropMakesRoom :
    (start .checkAfterIncrement .halt false true).cfg.staleView = true ∧
      (s0.cfg.staleView = false ∧ s0.q.w < s0.q.slots.length ∧ (s0.q.w + 1) % s0.cfg.capacity ≠ s0.q.r) ∧
      (full.q.w < full.q.slots.length ∧ (full.q.w + 1) % full.cfg.capacity = full.q.r) := by decide

theorem witness_statesTheSpecNeverReachesStop :
    10 ≤ ({ s0 with column := 10 } : State).column.toNat ∧ 10 ≤ ({ s0 with column := 15 } : State).column.toNat ∧
      s0.halted = false ∧ s0.cfg.staleView = false ∧
      ((queueAt s0 [blank] 1 0).q.slots.length ≤ (queueAt s0 [blank] 1 0).q.w ∧
        ((queueAt s0 [blank] 1 0).q.w + 1) % s0.cfg.capacity ≠ (queueAt s0 [blank] 1 0).q.r) ∧
      ((queueAt s0 [blank] 0 1).q.slots.length ≤ (queueAt s0 [blank] 0 1).q.r ∧
        (queueAt s0 [blank] 0 1).q.w ≠ (queueAt s0 [blank] 0 1).q.r) := by decide

theorem witness_queueIsFirstInFirstOut : BlockInv full := full_inv

theorem witness_queueCapacityLaw :
    BlockInv s0 ∧ s0.cfg.staleView = false ∧ s0.q.w = s0.q.r ∧ [evA, evB, evC].length = s0.cfg.capacity - 1 :=
  ⟨s0_inv, rfl, rfl, rfl⟩

/-- The state of V29: an unread event that the consumer does not see yet. -/
theorem hiddenEvent_inv : BlockInv (staleAt 1 0) :=
  { start_inv .checkAfterIncrement .halt false true (by decide) with
    slotCount := rfl
    writeIndex := show 1 < 4 by decide
    readIndex := show 0 < 4 by decide
    views := fun _ => show 0 < 4 ∧ 0 < 4 ∧ gapTo 4 0 0 + gapTo 4 0 1 < 4 ∧ gapTo 4 0 1 ≤ gapTo 4 0 1 by decide }

/-- The state of V30: room that the producer does not see yet. -/
theorem hiddenRoom_inv : BlockInv (staleAt 3 1) :=
  { start_inv .checkAfterIncrement .halt false true (by decide) with
    slotCount := rfl
    writeIndex := show 3 < 4 by decide
    readIndex := show 1 < 4 by decide
    views := fun _ => show 0 < 4 ∧ 1 < 4 ∧ gapTo 4 0 1 + gapTo 4 1 3 < 4 ∧ gapTo 4 1 3 ≤ gapTo 4 1 3 by decide }

theorem witness_staleTestUsesMovedView :
    BlockInv (start .checkAfterIncrement .halt false true) ∧
      (start .checkAfterIncrement .halt false true).cfg.staleView = true ∧
      (∃ t, exec (.queueWrite evA) (start .checkAfterIncrement .halt false true) = .next t) ∧
      ∃ t, exec .queueRead (start .checkAfterIncrement .halt false true) = .next t := by
  have h := start_inv .checkAfterIncrement .halt false true (by decide)
  have hr : ∀ d, moveView 4 d 0 0 = 0 := by
    intro d
    show (0 + min d 0) % 4 = 0
    simp
  refine ⟨h, rfl, ?_, ?_⟩
  · refine ⟨{ start .checkAfterIncrement .halt false true with
      q := ⟨[evA, blank, blank, blank], 1, 0⟩, rv := 0, free := ⟨0, 0, 1, 0⟩, ret := .wrote true }, ?_⟩
    have hl : lookProducer (start .checkAfterIncrement .halt false true) =
        { start .checkAfterIncrement .halt false true with rv := 0, free := ⟨0, 0, 1, 0⟩ } := by
      show State.withRv _ (moveView 4 _ 0 0) (watchAfter _ 0 ⟨0, 0⟩) = _
      rw [hr]
      rfl
    show execQueueWrite evA _ = _
    unfold execQueueWrite queueWrite
    rw [hl]
    rfl
  · refine ⟨{ start .checkAfterIncrement .halt false true with
      wv := 0, free := ⟨0, 0, 0, 1⟩, ret := .read none }, ?_⟩
    have hl : lookConsumer (start .checkAfterIncrement .halt false true) =
        { start .checkAfterIncrement .halt false true with wv := 0, free := ⟨0, 0, 0, 1⟩ } := by
      show State.withWv _ (moveView 4 _ 0 0) (watchAfter _ 0 ⟨0, 0⟩) = _
      rw [hr]
      rfl
    show execQueueRead _ = _
    unfold execQueueRead queueRead
    rw [hl]
    rfl

/-- The fairness clauses: a resting cursor and a test left, room the producer does not see, an event the consumer does not
see; and the view at its cursor after the test that leaves none. -/
theorem witness_staleTestUsesMovedView_fairness :
    (BlockInv (staleAt 3 1) ∧ (staleAt 3 1).cfg.staleView = true ∧ (staleAt 3 1).rvWatch.cursor = (staleAt 3 1).q.r ∧
      occupancy (staleAt 3 1) ≠ (staleAt 3 1).cfg.capacity - 1 ∧
      nextIs (exec (.queueWrite evC) (staleAt 3 1)) (fun t => decide (t.rvWatch.left = 0)) = true) ∧
    BlockInv (staleAt 1 0) ∧ (staleAt 1 0).cfg.staleView = true ∧ (staleAt 1 0).wvWatch.cursor = (staleAt 1 0).q.w ∧
      unread (staleAt 1 0) = evA :: [] ∧
      nextIs (exec .queueRead (staleAt 1 0)) (fun t => decide (t.wvWatch.left = 0)) = true :=
  ⟨⟨hiddenRoom_inv, rfl, rfl, by decide, by decide⟩, hiddenEvent_inv, rfl, rfl, rfl, by decide⟩

theorem witness_grayCodeOfCursors : (1 ≤ 1 ∧ 1 < 2 ^ 1) ∧ (1 ≤ 4 ∧ 15 < 2 ^ 4) ∧ 0 < 2 ^ 4 := by decide

/-- The first and the last LED of the grid. -/
theorem witness_setRgbWritesOneLed :
    Memory.wf s0.fb = true ∧ s0.cfg.tear = false ∧ s0.halted = false ∧
      ((0 : Byte).toNat = (0 : Fin 6).val ∧ (0 : Byte).toNat = (0 : Fin 10).val) ∧
      ((5 : Byte).toNat = (5 : Fin 6).val ∧ (9 : Byte).toNat = (9 : Fin 10).val) := by decide

theorem witness_bamEncodeWritesOneLed : Memory.wf s0.fb = true ∧ s0.cfg.tear = false := by decide

theorem witness_setColorOnWritesTableColor :
    Memory.wf s0.fb = true ∧ s0.cfg.tear = false ∧ s0.halted = false ∧ (5 : Byte).toNat = (5 : Fin 6).val ∧
      (9 : Byte).toNat = (9 : Fin 10).val ∧ (1 : Byte) ≠ 0 ∧ (255 : Byte) ≠ 0 := by decide

theorem witness_setColorOffClearsLed :
    Memory.wf s0.fb = true ∧ s0.cfg.tear = false ∧ s0.halted = false ∧ (0 : Byte).toNat = (0 : Fin 6).val ∧
      (9 : Byte).toNat = (9 : Fin 10).val := by decide

theorem witness_outOfRangeColorDoesNothing :
    (6 ≤ (6 : Byte).toNat ∨ 10 ≤ (0 : Byte).toNat) ∧ (6 ≤ (0 : Byte).toNat ∨ 10 ≤ (10 : Byte).toNat) := by decide

theorem witness_colorCommandsAreIdempotent :
    Memory.wf s0.fb = true ∧ s0.cfg.tear = false ∧
      nextIs (exec (.setRgb 2 7 5 10 0) s0) (fun t => nextIs (exec (.setRgb 2 7 5 10 0) t) fun _ => true) = true ∧
      nextIs (exec (.setColor 2 7 1 9) s0) (fun t => nextIs (exec (.setColor 2 7 1 9) t) fun _ => true) = true := by
  decide

theorem witness_tornColorStartsSubSteps :
    torn.cfg.tear = true ∧ torn.halted = false ∧ (5 : Byte).toNat = (5 : Fin 6).val ∧
      (9 : Byte).toNat = (9 : Fin 10).val ∧ (1 : Byte) ≠ 0 := by decide

theorem witness_tornUpdateEndsLikeAtomicOne :
    Memory.wf (start .checkAfterIncrement .halt true false).fb = true ∧
      (start .checkAfterIncrement .halt true false).cfg.tear = true ∧
      (start .checkAfterIncrement .halt true false).halted = false ∧
      (start .checkAfterIncrement .halt true false).update = none ∧ (5 : Byte).toNat < 6 ∧ (9 : Byte).toNat < 10 ∧
      nextIs (exec (.setRgb 5 9 15 0 1) (start .checkAfterIncrement .halt true false)) (fun _ => true) = true ∧
      nextIs (exec (.setRgb 5 9 15 0 1) s0) (fun _ => true) = true := by decide

theorem witness_pollReturnsOldestEvent :
    BlockInv full ∧ full.cfg.staleView = false ∧ full.halted = false ∧ unread full = evA :: [evB, evC] :=
  ⟨full_inv, rfl, rfl, rfl⟩

theorem witness_emptyPollReturnsSentinel :
    BlockInv s0 ∧ s0.cfg.staleView = false ∧ s0.halted = false ∧ s0.q.w = s0.q.r := ⟨s0_inv, rfl, rfl, rfl⟩

theorem witness_stalePollNeverLosesEvents :
    (BlockInv (start .checkAfterIncrement .halt false true) ∧
      (start .checkAfterIncrement .halt false true).halted = false) ∧
    BlockInv (staleAt 1 0) ∧ (staleAt 1 0).halted = false ∧ unread (staleAt 1 0) = evA :: [] ∧
      (staleAt 1 0).wvWatch.cursor = (staleAt 1 0).q.w :=
  ⟨⟨start_inv _ _ _ _ (by decide), rfl⟩, hiddenEvent_inv, rfl, rfl, rfl⟩

theorem witness_sentinelIsNoEvent : responseOf evA = responseOf ⟨1, 0, true⟩ := by decide

theorem witness_haltedPortOperationsChangeNothing :
    ({ s0 with halted := true } : State).halted = true ∧ (Instr.setColor 0 0 1 7).fromPort = true ∧
      Instr.setColor 0 0 1 7 ≠ .reset ∧ Instr.setColor 0 0 1 7 ≠ .poll ∧ Instr.poll.fromPort = true ∧
      Instr.poll ≠ .reset := by decide

theorem witness_haltLastsUntilReset :
    ({ s0 with halted := true } : State).halted = true ∧
      step { s0 with halted := true } = .next { s0 with halted := true } ∧
      ∀ rest, ({ s0 with halted := true } : State).inputs ≠ .event .reset :: rest :=
  ⟨rfl, rfl, fun _ h => by cases h⟩

/-- The tick past stage 3 of column 3, its third sample changing a row while the queue is full. -/
def overflowing : State := { sampleAt full 0x00 0x04 1 with column := 3, bamStage := 3, tickPeriod := 24 }

theorem overflowing_inv : BlockInv overflowing :=
  { full_inv with
    column := show (3 : BitVec 4).toNat < 10 by decide
    period := rfl
    counters := show ∀ k : Fin 10, ((Vector.replicate 10 Debounce.reset).set 3 ⟨0, 4, 1⟩)[k].cnt.toNat ≤ 2 by decide }

theorem witness_onlyTickOverflowHalts :
    BlockInv overflowing ∧ (Instr.tick 0x04).fromPort = true ∧ overflowing.halted = false ∧
      overflowing.cfg.staleView = false ∧ ∃ t, exec (.tick 0x04) overflowing = .next t ∧ t.halted = true :=
  ⟨overflowing_inv, rfl, rfl, rfl, _, rfl, rfl⟩

/-- For each field an operation that changes it. -/
theorem witness_oneWriterPerField :
    nextIs (exec (.setRgb 0 0 15 0 0) s0) (fun t => decide (t.fb ≠ s0.fb)) = true ∧
      nextIs (exec (.tick 0x04) overflowing) (fun t => decide (t.column ≠ overflowing.column ∧
        t.srFrame ≠ overflowing.srFrame ∧ t.deb ≠ overflowing.deb ∧ t.halted ≠ overflowing.halted)) = true ∧
      nextIs (exec (.tick 0x04) { overflowing with q := s0.q }) (fun t => decide (t.q.w ≠ 0)) = true ∧
      nextIs (exec .poll full) (fun t => decide (t.q.r ≠ full.q.r)) = true := by decide

end Sys2Proof.Tests
end

section
/-! The state record under every operation and every step (10_state.md R20 to R42)

What each operation of `exec` and each kind of step leaves alone, and that it keeps the block's invariant. -/

namespace Sys2Proof.Machine

/-! ## What the operations leave alone -/

/-- QUEUE_READ writes the read cursor and the consumer's view with its watch and draw, nothing else. -/
theorem queueRead_frame {s t : State} {e : Option ButtonEvent} (h : queueRead s = .next (e, t)) :
    ∃ i v w n, t =
      { s with q := { s.q with r := i }, wv := v, wvWatch := w, free := { s.free with wv := n } } := by
  have hlook : ∃ v w n, lookConsumer s = { s with wv := v, wvWatch := w, free := { s.free with wv := n } } := by
    rcases lookConsumer_cases s with hs | ⟨v, w, hs⟩
    · exact ⟨s.wv, s.wvWatch, s.free.wv, hs⟩
    · exact ⟨v, w, s.free.wv + 1, hs⟩
  obtain ⟨v, w, n, hl⟩ := hlook
  rcases queueRead_cases h with ⟨-, -, rfl⟩ | ⟨e, -, -, rfl, -⟩
  · exact ⟨s.q.r, v, w, n, hl⟩
  · exact ⟨_, v, w, n, by rw [hl]; rfl⟩

/-- POLL answers next in two ways: halted, any response; or one read and its response (44_poll.md R230, R233). -/
theorem execPoll_cases {s t : State} (h : execPoll s = .next t) :
    (s.halted = true ∧ t = s.sendFreeResponse) ∨
    (s.halted = false ∧ ∃ e u, queueRead s = .next (e, u) ∧
      t = u.send (.pollResp (e.elim sentinel responseOf))) := by
  unfold execPoll at h
  split at h
  · rename_i hh
    cases h
    exact .inl ⟨hh, rfl⟩
  · rename_i hh
    obtain ⟨⟨e, u⟩, hread, hsend⟩ := andThen_eq_next h
    refine .inr ⟨by simpa using hh, e, u, hread, ?_⟩
    cases e <;> cases hsend <;> rfl

/-- POLL writes what QUEUE_READ writes, the output ports and the draws, nothing else (44_poll.md R230, R233). -/
theorem execPoll_frame {s t : State} (h : execPoll s = .next t) :
    ∃ i v w o n, t = { s with q := { s.q with r := i }, wv := v, wvWatch := w, out := o, free := n } := by
  rcases execPoll_cases h with ⟨-, rfl⟩ | ⟨-, e, u, hread, rfl⟩
  · exact ⟨s.q.r, s.wv, s.wvWatch, _, _, rfl⟩
  · obtain ⟨i, v, w, n, rfl⟩ := queueRead_frame hread
    exact ⟨i, v, w, _, _, rfl⟩

/-- TICK leaves the parameters, the Frame Buffer, the consumer's view, the update, the turns, the result and the other
draws alone (10_state.md R41). -/
theorem execTick_frame {d : Byte} {s t : State} (h : execTick d s = .next t) :
    t = { s with
      column := t.column, bamStage := t.bamStage, tickPeriod := t.tickPeriod, deb := t.deb, q := t.q, rv := t.rv,
      rvWatch := t.rvWatch, halted := t.halted, srFrame := t.srFrame, out := t.out,
      free := { s.free with rv := t.free.rv } } := by
  rcases execTick_cases h with ⟨-, rfl⟩ | ⟨-, c, -, ⟨-, rfl⟩ | ⟨-, hd⟩⟩
  · rfl
  · rfl
  · have hf := debounceStep_frame hd
    rw [hf.column, hf.bamStage, hf.tickPeriod, hf.srFrame, hf.out]
    exact hf.eq

/-- Under `halt` a tick does not write the read cursor (10_state.md R41). -/
theorem execTick_readIndex {d : Byte} {s t : State} (hp : s.cfg.overflowPolicy = .halt)
    (h : execTick d s = .next t) : t.q.r = s.q.r := by
  rcases execTick_cases h with ⟨-, rfl⟩ | ⟨-, c, -, ⟨-, rfl⟩ | ⟨-, hd⟩⟩
  · rfl
  · rfl
  · exact debounceStep_readIndex (s := emitFrame 0 (columnAfter c) (advance c s)) hp hd

/-- ADVANCE answers next in one way: from a legal column (40_sequencer.md R111). -/
theorem execAdvance_next {s t : State} (h : execAdvance s = .next t) :
    ∃ c, cursorColumn s = some c ∧ t = advance c s := by
  unfold execAdvance at h
  split at h
  · rename_i c hc
    cases h
    exact ⟨c, hc, rfl⟩
  · cases h

theorem execQueueWrite_next {e : ButtonEvent} {s t : State} (h : execQueueWrite e s = .next t) :
    ∃ ok u, queueWrite e s = .next (ok, u) ∧ t = u.withRet (.wrote ok) := by
  obtain ⟨⟨ok, u⟩, hw, hret⟩ := andThen_eq_next h
  cases hret
  exact ⟨ok, u, hw, rfl⟩

theorem execQueueRead_next {s t : State} (h : execQueueRead s = .next t) :
    ∃ e u, queueRead s = .next (e, u) ∧ t = u.withRet (.read e) := by
  obtain ⟨⟨e, u⟩, hr, hret⟩ := andThen_eq_next h
  cases hret
  exact ⟨e, u, hr, rfl⟩

/-- A sub-step writes the Frame Buffer and the update in progress, nothing else (20_memory.md R70). -/
theorem colorSubStep_frame (s : State) : ∃ m u, colorSubStep s = (s.withFb m).withUpdate u := by
  unfold colorSubStep
  split
  · exact ⟨s.fb, s.update, rfl⟩
  · split
    · exact ⟨s.fb, s.update, rfl⟩
    · exact ⟨s.fb, none, rfl⟩
    · exact ⟨_, none, rfl⟩
    · exact ⟨_, _, rfl⟩

/-! ## No operation and no step changes a parameter -/

/-- No operation changes a parameter (10_state.md R40, R42). -/
theorem exec_cfg {i : Instr} {s t : State} (h : exec i s = .next t) : t.cfg = s.cfg := by
  cases i with
  | setColor b0 b1 b2 b3 =>
    cases h
    obtain ⟨m, u, o, hf⟩ := setColor_frame b0 b1 b2 b3 s
    exact (congrArg State.cfg hf :)
  | setRgb row col red green blue =>
    cases h
    obtain ⟨m, u, hf⟩ := setRgb_frame .rawPort row col ⟨red, green, blue⟩ s
    exact (congrArg State.cfg hf :)
  | bamEncode row col red green blue =>
    cases h
    obtain ⟨m, u, hf⟩ := bamEncode_frame .rawPort row col ⟨red, green, blue⟩ s
    exact (congrArg State.cfg hf :)
  | poll =>
    obtain ⟨_, _, _, _, _, rfl⟩ := execPoll_frame h
    rfl
  | tick d => exact (congrArg State.cfg (execTick_frame h) :)
  | debounceStep k d => exact (debounceStep_frame h).cfg
  | confirm k d => exact (confirm_frame h).cfg
  | commit k d => exact (commit_frame h).cfg
  | queueWriteDrop e => exact (queueWriteDrop_frame h).cfg
  | queueWrite e =>
    obtain ⟨ok, u, hw, rfl⟩ := execQueueWrite_next h
    exact (queueWrite_frame hw).cfg
  | queueRead =>
    obtain ⟨e, u, hr, rfl⟩ := execQueueRead_next h
    obtain ⟨_, _, _, _, rfl⟩ := queueRead_frame hr
    rfl
  | advance =>
    obtain ⟨c, -, rfl⟩ := execAdvance_next h
    rfl
  | rxIgnored | reset | emitFrame =>
    cases h
    rfl

/-- A step does one of three things: the next sub-step when no turn is left, the sub-step a turn asks for, or the
operation of an event (20_memory.md R71). -/
theorem step_cases {s t : State} (h : step s = .next t) :
    (s.inputs = [] ∧ t = colorSubStep s) ∨
    (∃ rest, s.inputs = .colorSubStep :: rest ∧ t = colorSubStep (s.withInputs rest)) ∨
    (∃ e rest, s.inputs = .event e :: rest ∧ exec (decodeEvent e) (arrive e rest s) = .next t) := by
  match hi : s.inputs with
  | [] =>
    rw [step_idle hi] at h
    cases h
    exact .inl ⟨rfl, rfl⟩
  | .colorSubStep :: rest =>
    rw [step_subStep hi] at h
    cases h
    exact .inr (.inl ⟨rest, rfl, rfl⟩)
  | .event e :: rest =>
    rw [step_event hi] at h
    exact .inr (.inr ⟨e, rest, rfl, h⟩)

theorem colorSubStep_cfg (s : State) : (colorSubStep s).cfg = s.cfg := by
  obtain ⟨m, u, hf⟩ := colorSubStep_frame s
  exact (congrArg State.cfg hf :)

theorem arrive_cfg (e : PortEvent) (rest : List Turn) (s : State) : (arrive e rest s).cfg = s.cfg := by
  rcases arrive_cases e rest s with ha | ⟨m, ha⟩ <;> exact (congrArg State.cfg ha :)

/-- Settles O6: the sub-steps, the arrival of an event and every operation keep `cfg`. -/
theorem stepKeepsParameters : Obligations.StepKeepsParameters := by
  intro s t h
  rcases step_cases h with ⟨-, rfl⟩ | ⟨rest, -, rfl⟩ | ⟨e, rest, -, hx⟩
  · exact colorSubStep_cfg s
  · exact colorSubStep_cfg (s.withInputs rest)
  · exact (exec_cfg hx).trans (arrive_cfg e rest s)

/-! ## Every operation and every step keeps the invariant -/

theorem BlockInv.send {s : State} (h : BlockInv s) (o : PortOut) : BlockInv (s.send o) := { h with }

theorem BlockInv.withRet {s : State} (h : BlockInv s) (r : MicroResult) : BlockInv (s.withRet r) := { h with }

theorem BlockInv.setColor {b0 b1 b2 b3 : Byte} {s : State} (h : BlockInv s) : BlockInv (setColor b0 b1 b2 b3 s) := by
  unfold Machine.setColor
  split
  · exact h
  · split
    · split
      · exact (h.send (.ctIdx b3)).setRgb
      · exact h.setRgb
    · exact h

theorem BlockInv.execPoll {s t : State} (h : BlockInv s) (hp : execPoll s = .next t) : BlockInv t := by
  rcases execPoll_cases hp with ⟨-, rfl⟩ | ⟨-, e, u, hread, rfl⟩
  · exact { h with }
  · exact (h.queueRead hread).send _

theorem BlockInv.execTick {d : Byte} {s t : State} (h : BlockInv s) (ht : execTick d s = .next t) : BlockInv t := by
  rcases execTick_cases ht with ⟨-, rfl⟩ | ⟨-, c, -, ⟨-, rfl⟩ | ⟨-, hd⟩⟩
  · exact h
  · exact h.advance.emitFrame
  · exact h.advance.emitFrame.debounceStep hd

/-- Both cursors at 0 and both views with them: the queue is empty and the views are exact. -/
theorem BlockInv.resetBlock {s : State} (h : BlockInv s) : BlockInv (resetBlock s) where
  cfgWf := h.cfgWf
  column := show (0 : BitVec 4).toNat < 10 by decide
  period := rfl
  fbWf := rfl
  fbRows := fun p hp => by cases hp
  counters := show ∀ k : Fin 10, (Vector.replicate 10 Debounce.reset)[k].cnt.toNat ≤ 2 by decide
  slotCount := by simp [Config.freeSlots]
  writeIndex := capacity_pos s.cfg
  readIndex := capacity_pos s.cfg
  views := fun _ => by
    have hc := capacity_pos s.cfg
    have hgap : gapTo s.cfg.capacity 0 0 = 0 := by simp [gapTo]
    have hocc : occupancy (Machine.resetBlock s) = 0 := hgap
    refine ⟨hc, hc, ?_, ?_⟩
    · rw [hocc]
      exact hgap.symm ▸ hc
    · rw [hocc]
      exact hgap.le
  frame := fun f hf => by cases hf
  noUpdate := fun _ => rfl

/-- Every operation keeps the invariant. -/
theorem BlockInv.exec {i : Instr} {s t : State} (h : BlockInv s) (hx : exec i s = .next t) : BlockInv t := by
  cases i with
  | setColor b0 b1 b2 b3 =>
    cases hx
    exact h.setColor
  | rxIgnored bytes =>
    cases hx
    exact h
  | poll => exact h.execPoll hx
  | tick d => exact h.execTick hx
  | setRgb row col red green blue =>
    cases hx
    exact h.setRgb
  | reset =>
    cases hx
    exact h.resetBlock
  | advance =>
    obtain ⟨c, -, rfl⟩ := execAdvance_next hx
    exact h.advance
  | emitFrame st c d =>
    cases hx
    exact h.emitFrame.withRet _
  | debounceStep k d => exact h.debounceStep hx
  | confirm k d => exact h.confirm hx
  | commit k d => exact h.commit hx
  | queueWrite e =>
    obtain ⟨ok, u, hw, rfl⟩ := execQueueWrite_next hx
    exact (h.queueWrite hw).withRet _
  | queueRead =>
    obtain ⟨e, u, hr, rfl⟩ := execQueueRead_next hx
    exact (h.queueRead hr).withRet _
  | queueWriteDrop e => exact h.queueWriteDrop hx
  | bamEncode row col red green blue =>
    cases hx
    exact h.bamEncode

/-- Every step keeps the invariant, the sub-steps of torn updates included (20_memory.md R70). -/
theorem BlockInv.step {s t : State} (h : BlockInv s) (hs : step s = .next t) : BlockInv t := by
  rcases step_cases hs with ⟨-, rfl⟩ | ⟨rest, -, rfl⟩ | ⟨e, rest, -, hx⟩
  · exact h.colorSubStep
  · exact BlockInv.colorSubStep { h with }
  · exact h.arrive.exec hx

/-- Settles O2, constructor by constructor. -/
theorem operationKeepsInvariant : Obligations.OperationKeepsInvariant := fun _ _ _ => BlockInv.exec

/-- Settles O3: the arrival of an event keeps the invariant, and so do the sub-steps and every operation. -/
theorem stepKeepsInvariant : Obligations.StepKeepsInvariant := fun _ _ => BlockInv.step

/-! ## One writer per field -/

/-- Settles O60: each port operation's frame leaves only the fields of its row of 10_state.md R41. -/
theorem oneWriterPerField : Obligations.OneWriterPerField := by
  intro i s t hport h
  cases i with
  | reset => simp
  | rxIgnored bytes =>
    cases h
    simp
  | setColor b0 b1 b2 b3 =>
    cases h
    obtain ⟨m, u, o, hf⟩ := setColor_frame b0 b1 b2 b3 s
    simp [hf]
  | setRgb row col red green blue =>
    cases h
    obtain ⟨m, u, hf⟩ := setRgb_frame .rawPort row col ⟨red, green, blue⟩ s
    simp [hf]
  | poll =>
    obtain ⟨_, _, _, _, _, rfl⟩ := execPoll_frame h
    simp
  | tick d =>
    have hfb : t.fb = s.fb := (congrArg State.fb (execTick_frame h) :)
    have hr : t.q.r ≠ s.q.r → s.cfg.overflowPolicy = .dropOldest := by
      cases hp : s.cfg.overflowPolicy with
      | halt => exact fun hne => absurd (execTick_readIndex hp h) hne
      | dropOldest => exact fun _ => rfl
    simpa [hfb] using hr
  | _ => cases hport

end Sys2Proof.Machine
end

section
/-! The Frame Buffer and the order of its accesses (20_memory.md R60 to R72)

When a turn finishes a colour update and when it leaves it alone, what one sub-step does, what the colour commands start
or write, and where an access outside the memory stops. -/

namespace Sys2Proof.Machine

/-! ## The update under way and the arrival of an event -/

theorem settledFb_none {s : State} (h : s.update = none) : settledFb s = s.fb := by
  unfold settledFb
  rw [h]

theorem settledFb_some {s : State} {u : ColorUpdate} (h : s.update = some u) :
    settledFb s = (applySubSteps s u.steps).fb := by
  unfold settledFb
  rw [h]

/-- The settled Frame Buffer depends on the Frame Buffer and the update under way alone. -/
theorem settledFb_congr {s t : State} (hf : s.fb = t.fb) (hu : s.update = t.update) : settledFb s = settledFb t := by
  cases h : t.update with
  | none => rw [settledFb_none h, settledFb_none (hu.trans h), hf]
  | some u => rw [settledFb_some h, settledFb_some (hu.trans h), applySubSteps_congr _ hf]

/-- In the RUN mode finishing leaves the settled Frame Buffer and no update (20_memory.md R71). -/
theorem finishUpdate_run {s : State} (hh : s.halted = false) :
    finishUpdate s = (s.withFb (settledFb s)).withUpdate none := by
  cases h : s.update with
  | none =>
    have hf : finishUpdate s = s := by
      unfold finishUpdate
      rw [h]
    rw [hf, settledFb_none h, ← h]
    rfl
  | some u =>
    rw [settledFb_some h]
    unfold finishUpdate
    simp only [h, hh, Bool.false_eq_true, if_false]
    exact congrArg (·.withUpdate none) (applySubSteps_frame s u.steps)

/-- With no update under way an event is only taken. -/
theorem arrive_noUpdate (e : PortEvent) (rest : List Turn) {s : State} (h : s.update = none) :
    arrive e rest s = s.withInputs rest := by
  unfold arrive settle
  rw [State.withInputs_update, h]

/-- An update of another agent goes on beside the event (20_memory.md R71). -/
theorem arrive_otherAgent {e : PortEvent} (rest : List Turn) {s : State} {u : ColorUpdate} (h : s.update = some u)
    (ha : u.agent ≠ e.agent) : arrive e rest s = s.withInputs rest := by
  unfold arrive settle
  rw [State.withInputs_update, h]
  exact if_neg ha

/-- An update of the event's own agent is finished first (20_memory.md R71). -/
theorem arrive_sameAgent {e : PortEvent} (rest : List Turn) {s : State} {u : ColorUpdate} (h : s.update = some u)
    (ha : u.agent = e.agent) : arrive e rest s = finishUpdate (s.withInputs rest) := by
  unfold arrive settle
  rw [State.withInputs_update, h]
  exact if_pos ha

/-- Settles O12: the step runs the decoded operation where the event arrives, by the update under way. -/
theorem stepRunsDecodedOperation : Obligations.StepRunsDecodedOperation := by
  intro s e rest hi
  rw [step_event hi]
  refine ⟨fun hu => ?_, fun u hu hor => ?_, fun u hu ha hh => ?_⟩
  · rw [arrive_noUpdate e rest hu]
    rfl
  · rcases hor with ha | hh
    · rw [arrive_otherAgent rest hu ha]
      rfl
    · rw [arrive_halted e rest hh]
      rfl
  · have hfb : settledFb (s.withInputs rest) = (applySubSteps s u.steps).fb :=
      (settledFb_congr (s := s.withInputs rest) (t := s) rfl rfl).trans (settledFb_some hu)
    rw [arrive_sameAgent rest hu ha, finishUpdate_run (s := s.withInputs rest) hh, hfb]
    rfl

/-! ## One sub-step -/

/-- In the RUN mode a sub-step turn does the first sub-step left and takes it off the update (20_memory.md R70). -/
theorem colorSubStep_cons {s : State} {a : Agent} {p : SubStep} {ps : List SubStep} (hh : s.halted = false)
    (hu : s.update = some ⟨a, p :: ps⟩) :
    colorSubStep s = (applySubStep s p).withUpdate (if ps = [] then none else some ⟨a, ps⟩) := by
  unfold colorSubStep
  simp only [hh, hu, Bool.false_eq_true, if_false]
  cases ps <;> rfl

/-- Settles O14: the turn is the first sub-step left, which writes its own bit alone. -/
theorem subStepTurnWritesOneBit : Obligations.SubStepTurnWritesOneBit := by
  intro s rest a p ps hi hu
  rw [step_subStep hi]
  refine ⟨fun hh => ?_, fun hh hw => ⟨_, rfl, ?_, ?_⟩⟩
  · rw [colorSubStep_halted (s := s.withInputs rest) hh]
    rfl
  · rw [colorSubStep_cons (s := s.withInputs rest) hh hu]
    rfl
  · rw [colorSubStep_cons (s := s.withInputs rest) hh hu]
    exact fbBit_applySubStep (st := s.withInputs rest) hw p

/-! ## Colour commands under TEAR -/

/-- Under `TEAR = true` BAM_ENCODE settles the update under way and starts its own (20_memory.md R70, R71). -/
theorem bamEncode_torn {a : Agent} {r : Fin 6} {c : Fin 10} {v : Rgb} {s : State} (ht : s.cfg.tear = true)
    (hh : s.halted = false) :
    bamEncode a r c v s = (s.withFb (settledFb s)).withUpdate (some ⟨a, tornSteps r c v⟩) := by
  unfold bamEncode
  rw [if_pos ht, finishUpdate_run hh]
  rfl

/-- Settles O50: in range each of the commands is a BAM_ENCODE, which starts its sub-steps. -/
theorem tornColorStartsSubSteps : Obligations.TornColorStartsSubSteps := by
  intro row col x y r g b s ri ci ht hh hrow hcol
  have hset : ∀ b2, exec (.setColor row col b2 y) s = .next
      (if isOnByte b2 then bamEncode .hostBus ri ci (s.cfg.lookup y) (s.send (.ctIdx y))
        else bamEncode .hostBus ri ci Rgb.off s) := fun b2 =>
    congrArg Host.Outcome.next (setColor_inRange hh hrow hcol)
  refine ⟨?_, ?_, ?_, fun hx => ?_⟩
  · show Host.Outcome.next (setRgb .rawPort row col ⟨r, g, b⟩ s) = _
    rw [setRgb_inRange hh hrow hcol, bamEncode_torn ht hh]
    rfl
  · show Host.Outcome.next (bamEncode .rawPort ri ci ⟨r, g, b⟩ s) = _
    rw [bamEncode_torn ht hh]
    rfl
  · rw [hset, if_neg (by decide), bamEncode_torn ht hh]
    rfl
  · have hon : isOnByte x = true := by simpa [isOnByte] using hx
    have hfb : settledFb (s.send (.ctIdx y)) = settledFb s := settledFb_congr rfl rfl
    rw [hset, if_pos hon, bamEncode_torn (s := s.send (.ctIdx y)) ht hh, hfb]
    rfl

/-! ## Colour commands are idempotent -/

/-- A bit that a colour write has given its value keeps it under the same write. -/
theorem encodedBit_idem (row : Fin 6) (col : Fin 10) (v : Rgb) (s : BitVec 2) (c : Fin 10) (ch : Channel) (j : Nat)
    (b : Bool) :
    encodedBit row col v s c ch j (encodedBit row col v s c ch j b) = encodedBit row col v s c ch j b := by
  unfold encodedBit
  split <;> rfl

/-- An atomic colour write on the Frame Buffer it has left changes no byte of it (20_memory.md R68). -/
theorem bamEncode_fb_idem {a : Agent} {r : Fin 6} {c : Fin 10} {v : Rgb} {s t : State} (hw : Memory.wf s.fb = true)
    (hs : s.cfg.tear = false) (ht : t.cfg.tear = false) (hf : t.fb = (bamEncode a r c v s).fb) :
    (bamEncode a r c v t).fb = t.fb := by
  rw [bamEncode_atomic hs] at hf
  have hwt : Memory.wf t.fb = true := hf ▸ applySubSteps_wf hw _
  rw [bamEncode_atomic ht]
  refine fb_ext (applySubSteps_wf hwt _) hwt fun st k ch j => ?_
  have hbit : fbBit t st k ch j = encodedBit r c v st k ch j (fbBit s st k ch j) := by
    rw [← fbBit_bamCells hw, fbBit, fbRead, hf]
    rfl
  rw [fbBit_bamCells hwt, hbit, encodedBit_idem]

/-- SET_RGB on the Frame Buffer it has left changes no byte of it: halted, out of range or in range. -/
theorem setRgb_fb_idem {a : Agent} {row col : Byte} {v : Rgb} {s t : State} (hw : Memory.wf s.fb = true)
    (hs : s.cfg.tear = false) (ht : t.cfg.tear = false) (hh : t.halted = s.halted)
    (hf : t.fb = (setRgb a row col v s).fb) : (setRgb a row col v t).fb = t.fb := by
  unfold setRgb at hf ⊢
  rw [hh]
  split at hf
  · rename_i hb
    rw [if_pos hb]
  · rename_i hb
    rw [if_neg hb]
    split at hf
    · exact bamEncode_fb_idem hw hs ht hf
    · rfl

/-- SET_COLOR on the Frame Buffer it has left changes no byte of it: its SET_RGB is the same both times. -/
theorem setColor_fb_idem {b0 b1 b2 b3 : Byte} {s t : State} (hw : Memory.wf s.fb = true) (hs : s.cfg.tear = false)
    (hc : t.cfg = s.cfg) (hh : t.halted = s.halted) (hf : t.fb = (setColor b0 b1 b2 b3 s).fb) :
    (setColor b0 b1 b2 b3 t).fb = t.fb := by
  have ht : t.cfg.tear = false := hc ▸ hs
  unfold setColor at hf ⊢
  rw [hh, hc]
  split at hf
  · rename_i hb
    rw [if_pos hb]
  · rename_i hb
    rw [if_neg hb]
    split at hf
    · split at hf
      · rename_i hon
        rw [if_pos hon]
        exact setRgb_fb_idem (s := s.send (.ctIdx b3)) (t := t.send (.ctIdx b3)) hw hs ht hh hf
      · rename_i hoff
        rw [if_neg hoff]
        exact setRgb_fb_idem hw hs ht hh hf
    · rfl

/-- Settles O49: the parameters and the halt are as they were, so the second command writes what the first wrote. -/
theorem colorCommandsAreIdempotent : Obligations.ColorCommandsAreIdempotent := by
  intro i s t u hw hs hi ht hu
  obtain ⟨b0, b1, b2, b3, rfl⟩ | ⟨row, col, r, g, b, rfl⟩ := hi
  · cases ht
    cases hu
    obtain ⟨m, w, o, hframe⟩ := setColor_frame b0 b1 b2 b3 s
    exact setColor_fb_idem hw hs (congrArg State.cfg hframe :) (congrArg State.halted hframe :) rfl
  · cases ht
    cases hu
    obtain ⟨m, w, hframe⟩ := setRgb_frame .rawPort row col ⟨r, g, b⟩ s
    have hc : (setRgb .rawPort row col ⟨r, g, b⟩ s).cfg = s.cfg := (congrArg State.cfg hframe :)
    exact setRgb_fb_idem hw hs (hc ▸ hs) (congrArg State.halted hframe :) rfl

/-! ## Accesses outside the memory stop -/

/-- A write cursor outside the slot array names no slot (20_memory.md R62). -/
theorem pushSlot_outside {s : State} (h : s.q.slots.length ≤ s.q.w) (e : ButtonEvent) :
    pushSlot e s = .fault .noSuchSlot :=
  if_neg (Nat.not_lt.mpr h)

/-- A read cursor outside the slot array names no slot (20_memory.md R62). -/
theorem popSlot_outside {s : State} (h : s.q.slots.length ≤ s.q.r) : popSlot s = .fault .noSuchSlot := by
  unfold popSlot
  rw [List.getElem?_eq_none h]

/-- With exact views the full test compares the cursors, wherever they are (42_event_queue.md R170). -/
theorem queueFull_exact_iff {s : State} (h : s.cfg.staleView = false) :
    queueFull s = true ↔ nextIndex s.cfg.capacity s.q.w = s.q.r := by
  simp [queueFull, seenR, h]

/-- With exact views the empty test compares the cursors, wherever they are (42_event_queue.md R172). -/
theorem queueEmpty_exact_iff {s : State} (h : s.cfg.staleView = false) : queueEmpty s = true ↔ s.q.w = s.q.r := by
  simp [queueEmpty, seenW, h]

theorem queueWrite_outside {s : State} (hv : s.cfg.staleView = false) (hw : s.q.slots.length ≤ s.q.w)
    (hf : nextIndex s.cfg.capacity s.q.w ≠ s.q.r) (e : ButtonEvent) : queueWrite e s = .fault .noSuchSlot := by
  unfold queueWrite
  simp only [lookProducer_exact hv, queueFull_exact_iff hv, hf, if_false, pushSlot_outside hw, andThen_fault]

theorem queueWriteDrop_outside {s : State} (hv : s.cfg.staleView = false) (hw : s.q.slots.length ≤ s.q.w)
    (hf : nextIndex s.cfg.capacity s.q.w ≠ s.q.r) (e : ButtonEvent) : queueWriteDrop e s = .fault .noSuchSlot := by
  unfold queueWriteDrop
  rw [if_neg (by simp [hv]), if_neg hf, pushSlot_outside hw]

theorem queueRead_outside {s : State} (hv : s.cfg.staleView = false) (hr : s.q.slots.length ≤ s.q.r)
    (he : s.q.w ≠ s.q.r) : queueRead s = .fault .noSuchSlot := by
  unfold queueRead
  simp only [lookConsumer_exact hv, queueEmpty_exact_iff hv, he, if_false, popSlot_outside hr, andThen_fault]

/-- ADVANCE refuses a column of 10..15 (93_implementation_defined.md I10). -/
theorem execAdvance_illegalColumn {s : State} (h : 10 ≤ s.column.toNat) :
    execAdvance s = .refused .illegalColumn := by
  unfold execAdvance
  rw [cursorColumn_none h]

/-- In the RUN mode TICK refuses a column of 10..15 (93_implementation_defined.md I10). -/
theorem execTick_illegalColumn {s : State} (h : 10 ≤ s.column.toNat) (hh : s.halted = false) (d : Byte) :
    execTick d s = .refused .illegalColumn := by
  unfold execTick
  rw [if_neg (by simp [hh]), cursorColumn_none h]

/-- Settles O38: the cursor as a column is refused, and an access to a slot outside the array faults. -/
theorem statesTheSpecNeverReachesStop : Obligations.StatesTheSpecNeverReachesStop := by
  intro d e s
  refine ⟨fun hc => ⟨execAdvance_illegalColumn hc, fun hh => execTick_illegalColumn hc hh d⟩,
    fun hv hw hf => ⟨?_, queueWriteDrop_outside hv hw hf e⟩, fun hv hr he => ?_⟩
  · show execQueueWrite e s = _
    rw [execQueueWrite, queueWrite_outside hv hw hf, andThen_fault]
  · show execQueueRead s = _
    rw [execQueueRead, queueRead_outside hv hr he, andThen_fault]

end Sys2Proof.Machine
end

section
/-! Words, events and responses (30_encoding.md R81 to R94)

The encoder and the decoder undo each other, on events and on received words, and a response determines its event. -/

namespace Sys2Proof

/-! ## Events and operations -/

/-- The round trip of every constructor (30_encoding.md R81, R92). -/
theorem roundTrip (i : Instr) : Laws.RoundTrip.Statement i := by
  cases i with
  | setColor b0 b1 b2 b3 => exact Laws.RoundTrip.setColor b0 b1 b2 b3
  | rxIgnored bytes => exact Laws.RoundTrip.rxIgnored bytes
  | poll => exact Laws.RoundTrip.poll
  | tick d => exact Laws.RoundTrip.tick d
  | setRgb row col r g b => exact Laws.RoundTrip.setRgb row col r g b
  | reset => exact Laws.RoundTrip.reset
  | advance => exact Laws.RoundTrip.advance
  | emitFrame st c d => exact Laws.RoundTrip.emitFrame st c d
  | debounceStep k d => exact Laws.RoundTrip.debounceStep k d
  | confirm k d => exact Laws.RoundTrip.confirm k d
  | commit k d => exact Laws.RoundTrip.commit k d
  | queueWrite e => exact Laws.RoundTrip.queueWrite e
  | queueRead => exact Laws.RoundTrip.queueRead
  | queueWriteDrop e => exact Laws.RoundTrip.queueWriteDrop e
  | bamEncode row col r g b => exact Laws.RoundTrip.bamEncode row col r g b

/-- The event of a well-formed operation decodes to it. -/
theorem decodeEvent_of_encode {i : Instr} {e : PortEvent} (hw : i.wf = true) (he : encode i = some e) :
    decodeEvent e = i := by
  obtain ⟨hport, hinternal⟩ := roundTrip i
  cases hp : i.fromPort with
  | false => rw [hinternal hp] at he; cases he
  | true =>
    obtain ⟨e', he', hd⟩ := hport hw hp
    rw [he] at he'
    cases he'
    exact hd

/-- A receive transaction of another length than 4 is ignored (30_encoding.md R81). -/
theorem decodeEvent_rx_ignored {bytes : List Byte} (h : bytes.length ≠ 4) :
    decodeEvent (.rx bytes) = .rxIgnored bytes :=
  decodeEvent_of_encode (bne_iff_ne.mpr h) rfl

/-- What an event decodes to is well formed, and the event is its encoding. -/
theorem encode_decodeEvent (e : PortEvent) : (decodeEvent e).wf = true ∧ encode (decodeEvent e) = some e := by
  cases e with
  | tick => exact ⟨rfl, rfl⟩
  | pollReq => exact ⟨rfl, rfl⟩
  | setRgb => exact ⟨rfl, rfl⟩
  | reset => exact ⟨rfl, rfl⟩
  | rx bytes =>
    by_cases h : bytes.length = 4
    · obtain ⟨_, _, _, _, rfl⟩ := List.length_eq_four.mp h
      exact ⟨rfl, rfl⟩
    · rw [decodeEvent_rx_ignored h]
      exact ⟨bne_iff_ne.mpr h, rfl⟩

/-- Settles O8: the round trip of each constructor, and that of each event. -/
theorem eventsAndPortOperationsAgree : Obligations.EventsAndPortOperationsAgree :=
  ⟨fun i => (roundTrip i).1, fun i => (roundTrip i).2, encode_decodeEvent⟩

/-- Settles O9: each form of event encodes an operation; only an ignored transaction has a condition to check. -/
theorem decoderMapsEveryEvent : Obligations.DecoderMapsEveryEvent :=
  ⟨fun _ => rfl, fun _ _ _ _ => rfl, fun _ => decodeEvent_rx_ignored, rfl, fun _ _ _ _ _ => rfl, rfl⟩

/-! ## Received words -/

/-- A word of `n` bytes fits `8 * n` bits (30_encoding.md R92). -/
theorem wordOfBytes_lt (bytes : List Byte) : wordOfBytes bytes < 2 ^ (8 * bytes.length) := by
  induction bytes with
  | nil => exact Nat.one_pos
  | cons b rest ih =>
    have hb : (b.toNat + 1) * 2 ^ (8 * rest.length) ≤ 2 ^ 8 * 2 ^ (8 * rest.length) :=
      Nat.mul_le_mul_right _ b.isLt
    rw [Nat.succ_mul] at hb
    rw [wordOfBytes, Nat.shiftLeft_eq, List.length_cons, Nat.mul_succ, Nat.add_comm (8 * _), Nat.pow_add]
    omega

/-- The `n` bytes of a word depend only on its low `8 * n` bits. -/
theorem bytesOfWord_congr {n v w : Nat} (h : v ≡ w [MOD 2 ^ (8 * n)]) : bytesOfWord n v = bytesOfWord n w := by
  induction n with
  | zero => rfl
  | succ n ih =>
    rw [Nat.mul_succ, Nat.pow_add] at h
    have hhead : BitVec.ofNat 8 (v / 2 ^ (8 * n)) = BitVec.ofNat 8 (w / 2 ^ (8 * n)) := by
      apply BitVec.eq_of_toNat_eq
      rw [BitVec.toNat_ofNat, BitVec.toNat_ofNat, ← Nat.mod_mul_right_div_self, ← Nat.mod_mul_right_div_self, h]
    rw [bytesOfWord, bytesOfWord, ih h.of_mul_right, Nat.shiftRight_eq_div_pow, Nat.shiftRight_eq_div_pow, hhead]

/-- The bytes of the word of a byte string are that byte string (30_encoding.md R92). -/
@[simp] theorem bytesOfWord_wordOfBytes (bytes : List Byte) :
    bytesOfWord bytes.length (wordOfBytes bytes) = bytes := by
  induction bytes with
  | nil => rfl
  | cons b rest ih =>
    have hlow : wordOfBytes (b :: rest) ≡ wordOfBytes rest [MOD 2 ^ (8 * rest.length)] := by
      rw [wordOfBytes, Nat.shiftLeft_eq]
      exact Nat.mul_add_mod_self_right _ _ _
    have hhigh : wordOfBytes (b :: rest) / 2 ^ (8 * rest.length) = b.toNat := by
      rw [wordOfBytes, Nat.shiftLeft_eq, Nat.mul_comm, Nat.mul_add_div (Nat.two_pow_pos _),
        Nat.div_eq_of_lt (wordOfBytes_lt rest), Nat.add_zero]
    rw [List.length_cons, bytesOfWord, bytesOfWord_congr hlow, ih, Nat.shiftRight_eq_div_pow, hhigh,
      BitVec.ofNat_toNat, BitVec.setWidth_eq]

/-- A received word of whole bytes is decoded as the transaction of its bytes (30_encoding.md R92). -/
theorem decodeTableWord_bytes (n w : Nat) :
    decodeTableWord (8 * n) w = some (decodeEvent (.rx (bytesOfWord n w))) := by
  rw [decodeTableWord, if_pos (Nat.mul_mod_right 8 n), Nat.mul_div_cancel_left n (by decide)]

/-- An operation has a word exactly if a receive transaction starts it, the word of the bytes received. -/
theorem encodeWord_eq_some_iff {i : Instr} {nbits w : Nat} :
    encodeWord i = some (nbits, w) ↔
      ∃ bytes, encode i = some (.rx bytes) ∧ 8 * bytes.length = nbits ∧ wordOfBytes bytes = w := by
  unfold encodeWord
  split <;> simp_all

/-- Settles O7: the word's bytes are those of the operation's event, which decodes to the operation. -/
theorem wordDecodesToEncodedOperation : Obligations.WordDecodesToEncodedOperation := by
  intro i nbits w hw h
  obtain ⟨bytes, he, rfl, rfl⟩ := encodeWord_eq_some_iff.mp h
  refine ⟨wordOfBytes_lt bytes, ?_⟩
  rw [decodeTableWord_bytes, bytesOfWord_wordOfBytes, decodeEvent_of_encode hw he]

/-- Settles O10: the four bytes of the word, each the 8 bits at its shift. -/
theorem fourByteWordFields : Obligations.FourByteWordFields := by
  intro w
  rw [decodeTableWord_bytes 4]
  rfl

end Sys2Proof

namespace Sys2Proof.Machine

/-! ## Poll responses -/

@[simp] theorem responseOf_b0_toNat (e : ButtonEvent) : (responseOf e).b0.toNat = e.column.val :=
  Nat.mod_eq_of_lt (by omega)

@[simp] theorem responseOf_b1_toNat (e : ButtonEvent) : (responseOf e).b1.toNat = e.row.val :=
  Nat.mod_eq_of_lt (by omega)

/-- `bool_byte` tells the two truth values apart (30_encoding.md R86). -/
theorem boolByte_injective : Function.Injective boolByte := by decide

/-- The first byte of an event's response is a column, which 0xFF is not (30_encoding.md R87). -/
theorem responseOf_ne_sentinel (e : ButtonEvent) : responseOf e ≠ sentinel := by
  intro h
  have hb : e.column.val = 255 := by rw [← responseOf_b0_toNat, h]; rfl
  omega

/-- Two events with one response are one event: each byte determines one field (44_poll.md R231). -/
theorem responseOf_injective : Function.Injective responseOf := by
  intro e e' h
  have hcol : e.column = e'.column := Fin.ext (by rw [← responseOf_b0_toNat, h, responseOf_b0_toNat])
  have hrow : e.row = e'.row := Fin.ext (by rw [← responseOf_b1_toNat, h, responseOf_b1_toNat])
  have hpressed : e.isPressed = e'.isPressed := boolByte_injective (congrArg Response.b2 h)
  cases e
  cases e'
  simp_all

/-- Settles O55: the bytes of a response are the event's column, row and truth value. -/
theorem sentinelIsNoEvent : Obligations.SentinelIsNoEvent := by
  refine ⟨fun e => ⟨?_, ?_, responseOf_ne_sentinel e⟩, fun _ _ h => responseOf_injective h⟩
  · rw [responseOf_b0_toNat]; omega
  · rw [responseOf_b1_toNat]; omega

end Sys2Proof.Machine
end

section
/-! The sequencer: ADVANCE, EMIT_FRAME and TICK (40_sequencer.md R110 to R121)

Where ADVANCE puts the cursor, which bytes a frame holds, what a tick in the RUN mode does and leaves alone, and the
cursor along a run of ticks. -/

namespace Sys2Proof.Machine

/-! ## The cursor -/

theorem columnReg_toNat (c : Fin 10) : (columnReg c).toNat = c.val :=
  Nat.mod_eq_of_lt (by omega)

/-- The register after column `c`'s last stage: column 9 goes to column 0 (40_sequencer.md R111). -/
theorem columnReg_columnAfter {s : State} {c : Fin 10} (h : s.column.toNat = c.val) :
    columnReg (columnAfter c) = if s.column = 9 then 0 else s.column + 1 := by
  have key : ∀ c : Fin 10, columnReg (columnAfter c) = if columnReg c = 9 then 0 else columnReg c + 1 := by decide
  rw [key, columnReg_eq h]

/-- The stage goes round the four BAM stages (40_sequencer.md R111). -/
theorem newStage_toNat (s : State) : (newStage s).toNat = (s.bamStage.toNat + 1) % 4 := by
  have key : ∀ x : BitVec 2, (if x = 3 then 0 else x + 1).toNat = (x.toNat + 1) % 4 := by decide
  exact key s.bamStage

theorem newColumn_wrap {s : State} (c : Fin 10) (h : s.bamStage = 3) : newColumn c s = columnAfter c := if_pos h

theorem newColumn_within {s : State} (c : Fin 10) (h : s.bamStage ≠ 3) : newColumn c s = c := if_neg h

theorem scanPlace_lt {s : State} (h : s.column.toNat < 10) : scanPlace s < 40 := by
  have := s.bamStage.isLt
  unfold scanPlace
  omega

/-- ADVANCE goes one place on in the scan of 40 (40_sequencer.md R112). -/
theorem scanPlace_advance {s : State} {c : Fin 10} (h : s.column.toNat = c.val) :
    scanPlace (advance c s) = (scanPlace s + 1) % 40 := by
  unfold scanPlace
  by_cases hb : s.bamStage = 3
  · rw [advance_wrap c hb, h, hb]
    show (columnReg (columnAfter c)).toNat * 4 + 0 = (c.val * 4 + 3 + 1) % 40
    rw [columnReg_toNat]
    show (c.val + 1) % 10 * 4 + 0 = _
    omega
  · have hstage : ∀ x : BitVec 2, x ≠ 3 → (x + 1).toNat = x.toNat + 1 ∧ x.toNat < 3 := by decide
    obtain ⟨hnext, hlt⟩ := hstage _ hb
    rw [advance_within c hb, h]
    show (columnReg c).toNat * 4 + (s.bamStage + 1).toNat = _
    rw [columnReg_toNat, hnext]
    omega

theorem execAdvance_legal {s : State} {c : Fin 10} (h : s.column.toNat = c.val) :
    execAdvance s = .next (advance c s) := by
  unfold execAdvance
  rw [cursorColumn_eq h]

/-- ADVANCE within a column, as an update of the record (40_sequencer.md R111). -/
theorem advance_within_eq {s : State} {c : Fin 10} (hc : s.column.toNat = c.val) (hb : s.bamStage ≠ 3) :
    advance c s =
      { s with bamStage := s.bamStage + 1, tickPeriod := (2 * s.tickPeriod) % 2 ^ s.cfg.widthT } := by
  rw [advance_within c hb, columnReg_eq hc, Nat.shiftLeft_eq, Nat.mul_comm]
  rfl

/-- Settles O15: the two branches of ADVANCE, the column read as the register holds it. -/
theorem advanceMovesCursor : Obligations.AdvanceMovesCursor := by
  intro s hs
  have hc : s.column.toNat = (⟨s.column.toNat, hs⟩ : Fin 10).val := rfl
  have hx : exec .advance s = .next (advance ⟨s.column.toNat, hs⟩ s) := execAdvance_legal hc
  refine ⟨fun hb => ?_, fun hb => ?_⟩
  · rw [hx, advance_within_eq hc hb]
  · rw [hx, advance_wrap _ hb, columnReg_columnAfter hc]
    rfl

/-! ## Frames -/

/-- The bytes of a frame in wire order (30_encoding.md R88, 40_sequencer.md R115). -/
theorem frameOf_bytes (s : State) (st : BitVec 2) (c : Fin 10) :
    (frameOf s st c).bytes = [fbRead s st c .red ^^^ 0xFF, fbRead s st c .blue ^^^ 0xFF, fbRead s st c .green ^^^ 0xFF,
      (s.cfg.colsel[c] >>> 8).setWidth 8, s.cfg.colsel[c].setWidth 8] := by
  have hinv : ∀ x : Byte, x ^^^ 0xFF = ~~~x := fun _ => BitVec.xor_allOnes
  simp only [hinv]
  rfl

/-- The last two bytes of a frame are the select word of its column (30_encoding.md R90). -/
theorem frameOf_select (s : State) (st : BitVec 2) (c : Fin 10) : (frameOf s st c).select = colsel s c := by
  simp only [Frame.select, frameOf]
  exact BitVec.extractLsb'_append_extractLsb'

/-- The channel bytes of a frame are inverted (30_encoding.md R89). -/
theorem frameOf_channel (s : State) (st : BitVec 2) (c : Fin 10) (ch : Channel) :
    (frameOf s st c).channel ch = ~~~(fbRead s st c ch) := by
  cases ch <;> rfl

/-- Settles O16, with the frame of the stage and column. -/
theorem emitFrameSendsFrame : Obligations.EmitFrameSendsFrame :=
  fun s st c _ => ⟨frameOf s st c, rfl, frameOf_bytes s st c⟩

/-! ## One tick -/

/-- A tick while halted does nothing (40_sequencer.md R118). -/
theorem execTick_halted {s : State} (d : Byte) (h : s.halted = true) : execTick d s = .next s := if_pos h

/-- Settles O17: a tick tests the halt first. -/
theorem haltedTickDoesNothing : Obligations.HaltedTickDoesNothing := fun d _ => execTick_halted d

/-- The state a tick from column `c` makes before any sample: cursor moved, its frame sent (40_sequencer.md R110). -/
def tickSent (c : Fin 10) (s : State) : State := emitFrame (newStage s) (newColumn c s) (advance c s)

/-- Within a column a tick takes no sample (40_sequencer.md R117). -/
theorem tickFrom_within {s : State} (c : Fin 10) (d : Byte) (h : s.bamStage ≠ 3) :
    tickFrom c d s = .next (tickSent c s) :=
  if_neg (newStage_next h).2

/-- Past stage 3 the byte that came back is a sample of the column left (40_sequencer.md R117). -/
theorem tickFrom_wrap {s : State} (c : Fin 10) (d : Byte) (h : s.bamStage = 3) :
    tickFrom c d s = debounceStep c d (tickSent c s) := by
  have hk : columnBefore (newColumn c s) = c := by rw [newColumn_wrap c h, columnBefore_columnAfter]
  unfold tickFrom
  simp only [if_pos (newStage_wrap h), hk]
  rfl

/-- Settles O18: ADVANCE within the column and the frame of the new stage. -/
theorem tickWithinColumn : Obligations.TickWithinColumn := by
  intro d s c hh hc hb
  refine ⟨frameOf s (s.bamStage + 1) c, ?_, frameOf_bytes s (s.bamStage + 1) c⟩
  show execTick d s = _
  rw [execTick_run hh hc, tickFrom_within c d hb, tickSent, newColumn_within c hb, (newStage_next hb).1,
    advance_within_eq hc hb]
  rfl

/-- Settles O19: ADVANCE to the next column, its stage-0 frame, and the sample of the column left. -/
theorem tickToNextColumn : Obligations.TickToNextColumn := by
  intro d s c k hh hb hc hk hs
  have hk' : s.column.toNat = k.val := by omega
  have hc' : c = columnAfter k := Fin.ext (by rw [hc, hk']; rfl)
  subst hc'
  refine ⟨frameOf s 0 (columnAfter k), ?_, frameOf_bytes s 0 (columnAfter k)⟩
  show execTick d s = _
  rw [execTick_run hh hk', tickFrom_wrap k d hb, tickSent, newColumn_wrap k hb, newStage_wrap hb, advance_wrap k hb]
  rfl

/-- In the RUN mode a tick moves the cursor from its column and sends the frame, and what it does after that is at most
a sample of the column left, past stage 3 (40_sequencer.md R110, R117). -/
theorem execTick_sent {d : Byte} {s t : State} (hh : s.halted = false) (h : execTick d s = .next t) :
    ∃ c : Fin 10, s.column.toNat = c.val ∧ SampleFrame c (tickSent c s) t ∧
      (s.bamStage ≠ 3 → t = tickSent c s) := by
  rcases execTick_cases h with ⟨hh', -⟩ | ⟨-, c, hc, -⟩
  · rw [hh] at hh'
    cases hh'
  · rw [execTick_run hh hc] at h
    refine ⟨c, hc, ?_⟩
    by_cases hb : s.bamStage = 3
    · rw [tickFrom_wrap c d hb] at h
      exact ⟨debounceStep_frame h, fun hne => absurd hb hne⟩
    · rw [tickFrom_within c d hb] at h
      cases h
      exact ⟨.refl c _, fun _ => rfl⟩

/-- Settles O20: the invariant after the tick gives the period, the sent state the stage. -/
theorem tickPeriodIsBaseShiftedByStage : Obligations.TickPeriodIsBaseShiftedByStage := by
  intro d s t hi hh h
  refine ⟨?_, ?_⟩
  · rw [(hi.execTick h).period, exec_cfg h, Nat.shiftLeft_eq]
  · obtain ⟨c, -, hf, -⟩ := execTick_sent hh h
    rw [hf.bamStage]
    exact newStage_toNat s

/-- Settles O22: halted nothing changes; otherwise the sent state and the frame of a sample. -/
theorem tickFrame : Obligations.TickFrame := by
  intro d s t h
  cases hh : s.halted with
  | true =>
    obtain rfl : t = s := Host.Outcome.next.inj (h.symm.trans (execTick_halted d hh))
    simp [hh]
  | false =>
    obtain ⟨c, hc, hf, hw⟩ := execTick_sent hh h
    refine ⟨hf.fb, hf.cfg, hf.wv, hf.wvWatch, hf.update, hf.inputs, hf.ret,
      fun hp => execTick_readIndex hp h, hf.freeSlots, hf.freePolls, hf.freeWv, fun _ => ⟨_, hf.srFrame, hf.out⟩,
      fun h' => by simp at h', fun hb => ?_, fun j hj => ?_⟩
    · rw [hw hb]
      exact ⟨rfl, rfl, hh, rfl, rfl, rfl⟩
    · exact hf.deb j fun hjc => hj (by rw [hjc, hc])

/-! ## What the LEDs show -/

/-- The LEDs under a frame the block made: those of its column whose bit the cell has, where the select words of the
columns differ (40_sequencer.md R121). -/
theorem ledOn_frameOf {s t : State} {st : BitVec 2} {c : Fin 10} (hinj : ∀ i j : Fin 10, colsel s i = colsel s j → i = j)
    (hcfg : t.cfg = s.cfg) (hf : t.srFrame = some (frameOf s st c)) (row : Fin 6) (col : Fin 10) (ch : Channel) :
    ledOn t row col ch = some (decide (c = col) && (fbRead s st col ch).getLsbD row.val) := by
  have hsel : colsel t col = colsel s col := by unfold colsel; rw [hcfg]
  have hcol : (colsel s c == colsel s col) = decide (c = col) := by
    rw [beq_eq_decide]
    exact decide_eq_decide.mpr ⟨hinj c col, congrArg (colsel s)⟩
  have hrow : row.val < 8 := by omega
  unfold ledOn
  rw [hf, Option.map_some, frameOf_select, frameOf_channel, hsel, hcol, BitVec.getLsbD_not]
  by_cases h : c = col <;> simp [h, hrow]

/-- Settles O23: the frame of the new stage and column is the last one sent. -/
theorem ledsShowTheNewColumn : Obligations.LedsShowTheNewColumn := by
  intro d s t row col ch hi hh h
  obtain ⟨c, -, hf, -⟩ := execTick_sent hh h
  obtain ⟨-, -, -, -, -, hinj, -⟩ := hi.cfgWf
  have hcol : t.column.toNat = (newColumn c s).val := by
    rw [hf.column]
    exact columnReg_toNat _
  rw [ledOn_frameOf hinj hf.cfg hf.srFrame, hf.bamStage, hcol]
  simp only [Fin.ext_iff]
  rfl

/-! ## Runs of ticks -/

/-- What every step keeps, every run keeps. -/
theorem run_keeps {P : State → Prop} (hstep : ∀ s t, P s → step s = .next t → P t) {n : Nat} {s t : State} (hs : P s)
    (h : Host.Core.run Sys2Proof.core n s = .next t) : P t := by
  induction n generalizing s with
  | zero =>
    rw [run_zero] at h
    cases h
    exact hs
  | succ n ih =>
    obtain ⟨u, hu, hrun⟩ := run_succ_next h
    exact ih (hstep s u hs hu) hrun

/-- A step that takes a tick leaves the turns after it. If it does not leave the block halted, the block was not halted
before and the cursor goes one place on in the scan (40_sequencer.md R112). -/
theorem step_tick {s t : State} {d : Byte} {rest : List Turn} (hi : s.inputs = .event (.tick d) :: rest)
    (h : step s = .next t) :
    t.inputs = rest ∧ (t.halted = false → s.halted = false ∧ scanPlace t = (scanPlace s + 1) % 40) := by
  obtain ⟨u, hu, hin, hhalt, hplace⟩ : ∃ u, arrive (.tick d) rest s = u ∧ u.inputs = rest ∧ u.halted = s.halted ∧
      scanPlace u = scanPlace s := by
    rcases arrive_cases (.tick d) rest s with ha | ⟨m, ha⟩ <;> exact ⟨_, ha, rfl, rfl, rfl⟩
  rw [step_event hi, hu] at h
  change execTick d u = .next t at h
  refine ⟨(congrArg State.inputs (execTick_frame h)).trans hin, fun ht => ?_⟩
  cases hh : u.halted with
  | true =>
    obtain rfl : t = u := Host.Outcome.next.inj (h.symm.trans (execTick_halted d hh))
    rw [hh] at ht
    cases ht
  | false =>
    obtain ⟨c, hc, hf, -⟩ := execTick_sent hh h
    refine ⟨hhalt ▸ hh, ?_⟩
    rw [← hplace, ← scanPlace_advance hc, scanPlace, hf.column, hf.bamStage]
    rfl

/-- After `n` ticks with no halt the cursor is `n` places on in the scan (40_sequencer.md R112). -/
theorem scanPlace_run_ticks {s t : State} {dins : List Byte} (hb : BlockInv s) (hi : s.inputs = tickTurns dins)
    (h : Host.Core.run Sys2Proof.core dins.length s = .next t) (ht : t.halted = false) :
    s.halted = false ∧ scanPlace t = (scanPlace s + dins.length) % 40 := by
  induction dins generalizing s with
  | nil =>
    rw [List.length_nil, run_zero] at h
    cases h
    exact ⟨ht, (Nat.mod_eq_of_lt (scanPlace_lt hb.column)).symm⟩
  | cons d rest ih =>
    obtain ⟨u, hu, hrun⟩ := run_succ_next h
    obtain ⟨hin, hone⟩ := step_tick hi hu
    obtain ⟨hh, hplace⟩ := ih (hb.step hu) hin hrun
    obtain ⟨hs, hnext⟩ := hone hh
    refine ⟨hs, ?_⟩
    rw [hplace, hnext, List.length_cons]
    omega

/-- The invariant and the parameters are kept along a run, so the period at its end is that of the stage
(40_sequencer.md R113). -/
theorem tickPeriod_run {n : Nat} {s t : State} (hb : BlockInv s) (h : Host.Core.run Sys2Proof.core n s = .next t) :
    t.tickPeriod = s.cfg.base <<< t.bamStage.toNat := by
  have hcfg : t.cfg = s.cfg :=
    run_keeps (P := fun u => u.cfg = s.cfg) (fun _ _ hu hstep => (stepKeepsParameters _ _ hstep).trans hu) rfl h
  rw [(run_keeps (fun _ _ => BlockInv.step) hb h).period, hcfg]

/-! ## The reset state -/

/-- The default parameters are legal, whatever the open ones are (00_scope.md R8). -/
theorem default_wf : Config.default.Wf := by
  have hbase : 1 ≤ Config.openBase := Nat.succ_pos _
  have hlog : 3 ≤ (Config.openBase * 8).log2 := (Nat.le_log2 (by omega)).mpr (by omega)
  have hwidth : Config.openBase * 8 < 2 ^ Config.openWidth :=
    Nat.lt_of_lt_of_le Nat.lt_log2_self (Nat.pow_le_pow_right (by decide) (Nat.le_add_right _ _))
  have hfour : 4 ≤ Config.openWidth := by unfold Config.openWidth; omega
  exact ⟨show 1 ≤ 4 by decide, hbase, hwidth, hfour,
    show ∀ i : Fin 10, OneHot Config.defaultColsel[i] by decide,
    show ∀ i j : Fin 10, Config.defaultColsel[i] = Config.defaultColsel[j] → i = j by decide,
    fun h => by cases h.1⟩

/-- The state after reset meets the invariant: the queue is empty and nothing was sent (10_state.md R20 to R33). -/
theorem reset_inv : BlockInv State.reset where
  cfgWf := default_wf
  column := show (0 : BitVec 4).toNat < 10 by decide
  period := rfl
  fbWf := rfl
  fbRows := fun p hp => by cases hp
  counters := show ∀ k : Fin 10, (Vector.replicate 10 Debounce.reset)[k].cnt.toNat ≤ 2 by decide
  slotCount := by simp [State.reset, Config.freeSlots]
  writeIndex := capacity_pos _
  readIndex := capacity_pos _
  views := fun h => by cases h
  frame := fun f hf => by cases hf
  noUpdate := fun _ => rfl

/-- Settles O21: one place per tick, and at the reset state the scan starts at place 0. -/
theorem cursorAfterTicks : Obligations.CursorAfterTicks := by
  refine ⟨fun s t dins hb hi h ht => ⟨(scanPlace_run_ticks hb hi h ht).2, tickPeriod_run hb h⟩, fun t dins h ht => ?_⟩
  have hb : BlockInv { State.reset with inputs := tickTurns dins } := { reset_inv with }
  have hplace : t.column.toNat * 4 + t.bamStage.toNat = (0 + dins.length) % 40 := (scanPlace_run_ticks hb rfl h ht).2
  have hlt := t.bamStage.isLt
  have hstage : t.bamStage.toNat = dins.length % 4 := by omega
  refine ⟨hstage, by omega, ?_⟩
  rw [tickPeriod_run hb h, hstage]

end Sys2Proof.Machine
end

section
/-! Debounce: DEBOUNCE_STEP, CONFIRM and COMMIT (41_debounce.md R140 to R156)

What one sample does, what CONFIRM does under each commit rule, which events a commit queues, how many samples a change
takes, and that a sample neither writes nor reads another column's registers. -/

namespace Sys2Proof.Machine

/-! ## The registers of one column -/

/-- Column `k`'s counter set, its other registers as they are. -/
def setCounter (k : Fin 10) (c : BitVec 2) (s : State) : State := s.withDeb k { s.deb[k] with cnt := c }

theorem setCounter_getElem (k : Fin 10) (c : BitVec 2) (s : State) :
    (setCounter k c s).deb[k] = { s.deb[k] with cnt := c } :=
  State.withDeb_getElem_self s k _

theorem State.withDeb_withDeb (s : State) (k : Fin 10) (a b : Debounce) :
    (s.withDeb k a).withDeb k b = s.withDeb k b := by
  simp only [State.withDeb, Vector.set_set]

theorem State.withDeb_comm (s : State) {j k : Fin 10} (h : j ≠ k) (a b : Debounce) :
    (s.withDeb j a).withDeb k b = (s.withDeb k b).withDeb j a := by
  simp only [State.withDeb, Vector.set_comm a b (Fin.val_ne_of_ne h)]

theorem State.withDeb_getElem_ne (s : State) {j k : Fin 10} (h : j ≠ k) (x : Debounce) :
    (s.withDeb j x).deb[k] = s.deb[k] := by
  rw [State.withDeb_getElem, if_neg h]

theorem setCounter_cnt (k : Fin 10) (c : BitVec 2) (s : State) : (setCounter k c s).deb[k].cnt = c :=
  congrArg Debounce.cnt (setCounter_getElem k c s)

theorem setCounter_setCounter (k : Fin 10) (b c : BitVec 2) (s : State) :
    setCounter k c (setCounter k b s) = setCounter k c s := by
  rw [setCounter, setCounter_getElem, setCounter, State.withDeb_withDeb, setCounter]

/-! ## One sample -/

/-- A sample `d` of column `k` differs from `last`, and `pend` holds the change already (41_debounce.md R141). -/
def ChangePending (k : Fin 10) (d : Byte) (s : State) : Prop :=
  d ≠ s.deb[k].last ∧ d ^^^ s.deb[k].last = s.deb[k].pend

/-- The counter does not say whether a change is pending. -/
theorem ChangePending.setCounter {k : Fin 10} {d : Byte} {s : State} (h : ChangePending k d s) (c : BitVec 2) :
    ChangePending k d (setCounter k c s) := by
  unfold ChangePending
  rw [setCounter_getElem]
  exact h

/-- The change of a sample recorded in `pend`, the counter cleared (41_debounce.md R140). -/
def recordChange (k : Fin 10) (d : Byte) (s : State) : State :=
  s.withDeb k ⟨s.deb[k].last, d ^^^ s.deb[k].last, 0⟩

theorem recordChange_getElem (k : Fin 10) (d : Byte) (s : State) :
    (recordChange k d s).deb[k] = ⟨s.deb[k].last, d ^^^ s.deb[k].last, 0⟩ :=
  State.withDeb_getElem_self s k _

theorem recordChange_cnt (k : Fin 10) (d : Byte) (s : State) : (recordChange k d s).deb[k].cnt = 0 :=
  congrArg Debounce.cnt (recordChange_getElem k d s)

theorem recordChange_pending {k : Fin 10} {d : Byte} {s : State} (h : d ≠ s.deb[k].last) :
    ChangePending k d (recordChange k d s) := by
  unfold ChangePending
  rw [recordChange_getElem]
  exact ⟨h, rfl⟩

theorem setCounter_recordChange (k : Fin 10) (d : Byte) (c : BitVec 2) (s : State) :
    setCounter k c (recordChange k d s) = s.withDeb k ⟨s.deb[k].last, d ^^^ s.deb[k].last, c⟩ := by
  rw [setCounter, recordChange_getElem, recordChange, State.withDeb_withDeb]

theorem debounceStep_unchanged {k : Fin 10} {d : Byte} {s : State} (h : d = s.deb[k].last) :
    debounceStep k d s = .next (setCounter k 0 s) :=
  if_pos h

theorem debounceStep_fresh {k : Fin 10} {d : Byte} {s : State} (h : d ≠ s.deb[k].last)
    (hp : d ^^^ s.deb[k].last ≠ s.deb[k].pend) :
    debounceStep k d s = .next (recordChange k d s) :=
  (if_neg h).trans (if_pos hp)

theorem debounceStep_pending {k : Fin 10} {d : Byte} {s : State} (h : ChangePending k d s) :
    debounceStep k d s = confirm k d s :=
  (if_neg h.1).trans (if_neg (not_not_intro h.2))

/-- Settles O24: the branches of DEBOUNCE_STEP. -/
theorem sampleHasThreeCases : Obligations.SampleHasThreeCases := by
  intro k d s
  rw [BitVec.xor_comm s.deb[k].last d]
  exact ⟨debounceStep_unchanged, debounceStep_fresh, fun h hp => debounceStep_pending ⟨h, hp⟩⟩

/-! ## CONFIRM -/

theorem bumpCounter_below {k : Fin 10} {s : State} (h : s.deb[k].cnt < threshold) :
    bumpCounter k s = setCounter k (s.deb[k].cnt + 1) s :=
  if_pos h

theorem bumpCounter_atLeast {k : Fin 10} {s : State} (h : ¬ s.deb[k].cnt < threshold) : bumpCounter k s = s :=
  if_neg h

/-- Below THRESHOLD the counter goes one up; reaching THRESHOLD commits at once but under `elseBranch`
(41_debounce.md R142, R143). -/
theorem confirm_below {k : Fin 10} {d : Byte} {s : State} (h : s.deb[k].cnt < threshold) :
    confirm k d s =
      if s.cfg.commitRule ≠ .elseBranch ∧ s.deb[k].cnt + 1 = threshold then
        commit k d (setCounter k (s.deb[k].cnt + 1) s)
      else .next (setCounter k (s.deb[k].cnt + 1) s) := by
  unfold confirm
  cases s.cfg.commitRule <;> simp [h, bumpCounter_below h, setCounter_getElem, -Fin.getElem_fin]

/-- From THRESHOLD on the counter stays, and what commits is the rule's own test (41_debounce.md R143). -/
theorem confirm_atLeast {k : Fin 10} {d : Byte} {s : State} (h : ¬ s.deb[k].cnt < threshold) :
    confirm k d s =
      if s.cfg.commitRule = .elseBranch ∨ s.cfg.commitRule = .checkAfterIncrement ∧ s.deb[k].cnt = threshold then
        commit k d s
      else .next s := by
  unfold confirm
  cases s.cfg.commitRule <;> simp [h, bumpCounter_atLeast h, -Fin.getElem_fin]

section
variable {k : Fin 10} {d : Byte} {s : State}

theorem confirm_zero (h : s.deb[k].cnt = 0) : confirm k d s = .next (setCounter k 1 s) := by
  rw [confirm_below (by rw [h]; decide), h]
  exact if_neg fun hc => absurd hc.2 (by decide)

theorem confirm_one_wait (h : s.deb[k].cnt = 1) (hr : s.cfg.commitRule = .elseBranch) :
    confirm k d s = .next (setCounter k 2 s) := by
  rw [confirm_below (by rw [h]; decide), h]
  exact if_neg fun hc => hc.1 hr

theorem confirm_one_commit (h : s.deb[k].cnt = 1) (hr : s.cfg.commitRule ≠ .elseBranch) :
    confirm k d s = commit k d (setCounter k 2 s) := by
  rw [confirm_below (by rw [h]; decide), h]
  exact if_pos ⟨hr, by decide⟩

theorem confirm_two_commit (h : s.deb[k].cnt = 2) (hr : s.cfg.commitRule ≠ .onIncrementOnly) :
    confirm k d s = commit k d s := by
  rw [confirm_atLeast (by rw [h]; decide), h]
  cases hc : s.cfg.commitRule with
  | checkAfterIncrement => exact if_pos (.inr ⟨rfl, rfl⟩)
  | onIncrementOnly => exact absurd hc hr
  | elseBranch => exact if_pos (.inl rfl)

theorem confirm_two_stuck (h : s.deb[k].cnt = 2) (hr : s.cfg.commitRule = .onIncrementOnly) :
    confirm k d s = .next s := by
  rw [confirm_atLeast (by rw [h]; decide), hr]
  exact if_neg (by simp)

theorem confirm_three_commit (h : s.deb[k].cnt = 3) (hr : s.cfg.commitRule = .elseBranch) :
    confirm k d s = commit k d s := by
  rw [confirm_atLeast (by rw [h]; decide)]
  exact if_pos (.inl hr)

theorem confirm_three_stuck (h : s.deb[k].cnt = 3) (hr : s.cfg.commitRule ≠ .elseBranch) :
    confirm k d s = .next s := by
  rw [confirm_atLeast (by rw [h]; decide), h]
  exact if_neg fun hc => hc.elim hr fun hc => absurd hc.2 (by decide)

end

/-- Settles O25: one lemma per counter and rule. -/
theorem confirmFollowsCommitRule : Obligations.ConfirmFollowsCommitRule := fun _ _ _ =>
  ⟨confirm_zero, confirm_one_wait, confirm_one_commit, confirm_two_commit, confirm_two_stuck, confirm_three_commit,
    confirm_three_stuck⟩

/-! ## Runs of one sample -/

theorem execAll_replicate_succ (n : Nat) (i : Instr) (s : State) :
    execAll (List.replicate (n + 1) i) s = andThen (exec i s) (execAll (List.replicate n i)) := rfl

theorem execAll_singleton (i : Instr) (s : State) : execAll [i] s = exec i s := by
  rw [execAll]
  cases exec i s <;> rfl

/-- An operation that changes nothing changes nothing however often it runs. -/
theorem execAll_replicate_fixed {i : Instr} {s : State} (h : exec i s = .next s) (n : Nat) :
    execAll (List.replicate n i) s = .next s := by
  induction n with
  | zero => rfl
  | succ n ih => rw [execAll_replicate_succ, h, andThen_next, ih]

theorem exec_debounceStep_pending {k : Fin 10} {d : Byte} {s : State} (h : ChangePending k d s) :
    exec (.debounceStep k d) s = confirm k d s :=
  debounceStep_pending h

/-- A pending change with a cleared counter: the first sample counts to 1, the second to 2, and the commit comes with
the second or, under `elseBranch`, with a third (41_debounce.md R156). -/
theorem execAll_samples_pending {k : Fin 10} {d : Byte} {s : State} (h : ChangePending k d s) (hc : s.deb[k].cnt = 0) :
    execAll (List.replicate (if s.cfg.commitRule = .elseBranch then 3 else 2) (.debounceStep k d)) s =
      commit k d (setCounter k 2 s) := by
  have hfirst : ∀ n, execAll (List.replicate (n + 1) (.debounceStep k d)) s =
      execAll (List.replicate n (.debounceStep k d)) (setCounter k 1 s) := fun n => by
    rw [execAll_replicate_succ, exec_debounceStep_pending h, confirm_zero hc, andThen_next]
  by_cases hr : s.cfg.commitRule = .elseBranch
  · rw [if_pos hr, hfirst, execAll_replicate_succ, exec_debounceStep_pending (h.setCounter 1),
      confirm_one_wait (setCounter_cnt k 1 s) hr, andThen_next, setCounter_setCounter]
    refine (execAll_singleton _ _).trans ?_
    rw [exec_debounceStep_pending (h.setCounter 2)]
    exact confirm_two_commit (setCounter_cnt k 2 s) fun ho => by cases hr.symm.trans ho
  · rw [if_neg hr, hfirst]
    refine (execAll_singleton _ _).trans ?_
    rw [exec_debounceStep_pending (h.setCounter 1), confirm_one_commit (setCounter_cnt k 1 s) hr, setCounter_setCounter]

/-- Settles O33: the run of a pending change. -/
theorem pendingChangeSamplesToCommit : Obligations.PendingChangeSamplesToCommit := fun _ _ _ h hp hc =>
  execAll_samples_pending ⟨h, hp.symm⟩ hc

/-- Settles O32: the first sample records the change and clears the counter, then the change is a pending one. -/
theorem freshChangeSamplesToCommit : Obligations.FreshChangeSamplesToCommit := by
  intro k d s h hp
  have hfirst : exec (.debounceStep k d) s = .next (recordChange k d s) := debounceStep_fresh h hp.symm
  have hlen : (if s.cfg.commitRule = .elseBranch then 4 else 3) =
      (if s.cfg.commitRule = .elseBranch then 3 else 2) + 1 := by
    split <;> rfl
  rw [hlen, execAll_replicate_succ, hfirst, andThen_next]
  refine (execAll_samples_pending (recordChange_pending h) (recordChange_cnt k d s)).trans ?_
  rw [setCounter_recordChange]
  rfl

/-- Settles O34: after a commit from `old` to `d` the change back is pending with the counter at THRESHOLD. -/
theorem quickReversalAfterCommit : Obligations.QuickReversalAfterCommit := by
  intro k old d s hne hregs
  have hpending : ChangePending k old s := by
    unfold ChangePending
    rw [hregs]
    exact ⟨hne.symm, BitVec.xor_comm old d⟩
  have hcnt : s.deb[k].cnt = 2 := congrArg Debounce.cnt hregs
  have hx := exec_debounceStep_pending hpending
  exact ⟨fun hr => hx.trans (confirm_two_commit hcnt hr),
    fun hr => execAll_replicate_fixed (hx.trans (confirm_two_stuck hcnt hr))⟩

/-! ## COMMIT -/

/-- An event's column is the column committed, and its direction is that of the change (41_debounce.md R146). -/
theorem commitEvents_fields {s : State} {k : Fin 10} {e : ButtonEvent} (h : e ∈ commitEvents s k) :
    e.column = k ∧ e.isPressed = !(s.deb[k].last.getLsbD e.row.val) := by
  obtain ⟨r, -, rfl⟩ := List.mem_map.mp h
  exact ⟨rfl, rfl⟩

/-- The events of a commit go by ascending row (41_debounce.md R148). -/
theorem commitEvents_ascending (s : State) (k : Fin 10) :
    (commitEvents s k).Pairwise fun e e' => e.row < e'.row := by
  have hrows : allRows.Pairwise fun r r' => r < r' := by decide
  exact List.pairwise_map.mpr (hrows.filter _)

theorem unread_pushAll_queue {s : State} (h : QueueOk s) {es : List ButtonEvent} (hl : es.length ≤ room s) :
    unread { s with q := (pushAll es s).q } = unread s ++ es := by
  rw [← pushAll_eq, unread_pushAll h hl]

/-- With room for every event all of them go in, then `last` is written (41_debounce.md R144). -/
theorem commit_room {k : Fin 10} (d : Byte) {s : State} (h : QueueOk s) (hp : s.cfg.overflowPolicy = .halt)
    (hv : s.cfg.staleView = false) (hl : (commitEvents s k).length ≤ room s) :
    commit k d s = .next { s with
      q := (pushAll (commitEvents s k) s).q, deb := s.deb.set k { s.deb[k] with last := d } } := by
  rw [← rowEvents_allRows] at hl
  rw [commit, commitRows_room h hp hv hl, andThen_next, rowEvents_allRows, pushAll_eq]
  rfl

/-- Without room the events that fit go in and the block halts (41_debounce.md R149). -/
theorem commit_overflow {k : Fin 10} (d : Byte) {s : State} (h : QueueOk s) (hp : s.cfg.overflowPolicy = .halt)
    (hv : s.cfg.staleView = false) (hl : room s < (commitEvents s k).length) :
    commit k d s = .next { s with
      q := (pushAll ((commitEvents s k).take (room s)) s).q, halted := true } := by
  rw [← rowEvents_allRows] at hl
  rw [commit, commitRows_overflow h hp hv hl, andThen_next, rowEvents_allRows, pushAll_eq]
  rfl

/-- Settles O26: the events as one list pushed on the queue. -/
theorem commitQueuesEveryChangedRow : Obligations.CommitQueuesEveryChangedRow := by
  intro k d s hi hp hv hl
  have hle : (commitEvents s k).length ≤ s.cfg.capacity := by
    unfold room at hl
    omega
  exact ⟨_, commit_room d hi.queueOk hp hv hl, unread_pushAll_queue hi.queueOk hl, pushAll_readIndex _ s,
    fun _ => pushAll_slots hi.queueOk hle, fun _ => commitEvents_fields, commitEvents_ascending s k⟩

/-- Settles O27: the events that fit as one list pushed on the queue. -/
theorem commitWithoutRoomHalts : Obligations.CommitWithoutRoomHalts := fun _ d s hi hp hv hl =>
  ⟨_, commit_overflow d hi.queueOk hp hv hl, unread_pushAll_queue hi.queueOk (List.length_take_le (room s) _),
    pushAll_readIndex _ s⟩

/-! ## Other columns -/

/-- Settles O30: the three operations have one frame, and keep the read cursor under `halt`. -/
theorem sampleTouchesOneColumn : Obligations.SampleTouchesOneColumn := by
  rintro i k d s t (rfl | rfl | rfl) h
  · have hf : SampleFrame k s t := debounceStep_frame h
    exact ⟨hf.deb, hf.eq, fun hp => debounceStep_readIndex hp h⟩
  · have hf : SampleFrame k s t := confirm_frame h
    exact ⟨hf.deb, hf.eq, fun hp => confirm_readIndex hp h⟩
  · have hf : SampleFrame k s t := commit_frame h
    exact ⟨hf.deb, hf.eq, fun hp => commit_readIndex hp h⟩

/-- The outcome with column `j`'s registers changed to `x`. -/
def changeColumn (j : Fin 10) (x : Debounce) (r : Result State) : Result State :=
  andThen r fun t => .next (t.withDeb j x)

/-- An outcome with a value, with column `j`'s registers changed to `x` in its state. -/
def changeColumnWith {α : Type} (j : Fin 10) (x : Debounce) (r : Result (α × State)) : Result (α × State) :=
  andThen r fun p => .next (p.1, p.2.withDeb j x)

section
variable (j : Fin 10) (x : Debounce)

/-! The producer's side of the queue reads no debounce register. -/

theorem pushSlot_withDeb (e : ButtonEvent) (s : State) :
    pushSlot e (s.withDeb j x) = changeColumn j x (pushSlot e s) := by
  unfold pushSlot
  rw [State.withDeb_q]
  split <;> rfl

theorem lookProducer_withDeb (s : State) : lookProducer (s.withDeb j x) = (lookProducer s).withDeb j x := by
  unfold lookProducer
  rw [State.withDeb_cfg]
  split <;> rfl

theorem queueWrite_withDeb (e : ButtonEvent) (s : State) :
    queueWrite e (s.withDeb j x) = changeColumnWith j x (queueWrite e s) := by
  have hfull : queueFull ((lookProducer s).withDeb j x) = queueFull (lookProducer s) := rfl
  simp only [queueWrite, lookProducer_withDeb, hfull, pushSlot_withDeb]
  split
  · rfl
  · cases pushSlot e (lookProducer s) <;> rfl

theorem queueWriteDrop_withDeb (e : ButtonEvent) (s : State) :
    queueWriteDrop e (s.withDeb j x) = changeColumn j x (queueWriteDrop e s) := by
  unfold queueWriteDrop
  rw [State.withDeb_cfg, State.withDeb_q]
  split
  · rfl
  · rw [← pushSlot_withDeb]
    split <;> rfl

/-! A sample of column `k` reads the registers of column `k` only. -/

variable {j} {k : Fin 10} (h : j ≠ k)
include h

theorem eventFor_withDeb (r : Fin 6) (s : State) : eventFor (s.withDeb j x) k r = eventFor s k r := by
  unfold eventFor
  rw [State.withDeb_getElem_ne s h]

theorem commitRow_withDeb (r : Fin 6) (s : State) :
    commitRow k r (s.withDeb j x) = changeColumnWith j x (commitRow k r s) := by
  unfold commitRow
  rw [State.withDeb_getElem_ne s h, eventFor_withDeb x h, State.withDeb_cfg, queueWrite_withDeb, queueWriteDrop_withDeb]
  split
  · cases s.cfg.overflowPolicy with
    | halt =>
      rcases queueWrite (eventFor s k r) s with ⟨_ | _, t⟩ | _ | _ <;> rfl
    | dropOldest => cases queueWriteDrop (eventFor s k r) s <;> rfl
  · rfl

theorem commitRows_withDeb (rs : List (Fin 6)) (s : State) :
    commitRows k rs (s.withDeb j x) = changeColumnWith j x (commitRows k rs s) := by
  induction rs generalizing s with
  | nil => rfl
  | cons r rest ih =>
    rw [commitRows, commitRows, commitRow_withDeb x h]
    match commitRow k r s with
    | .next (true, t) => exact ih t
    | .next (false, _) => rfl
    | .fault _ => rfl
    | .refused _ => rfl

theorem commit_withDeb (d : Byte) (s : State) :
    commit k d (s.withDeb j x) = changeColumn j x (commit k d s) := by
  rw [commit, commit, commitRows_withDeb x h]
  match commitRows k allRows s with
  | .next (true, t) =>
    show Host.Outcome.next ((t.withDeb j x).withDeb k { (t.withDeb j x).deb[k] with last := d }) = _
    rw [State.withDeb_getElem_ne t h, State.withDeb_comm t h]
    rfl
  | .next (false, _) => rfl
  | .fault _ => rfl
  | .refused _ => rfl

theorem setCounter_withDeb (c : BitVec 2) (s : State) :
    setCounter k c (s.withDeb j x) = (setCounter k c s).withDeb j x := by
  rw [setCounter, State.withDeb_getElem_ne s h, State.withDeb_comm s h, setCounter]

theorem confirm_withDeb (d : Byte) (s : State) :
    confirm k d (s.withDeb j x) = changeColumn j x (confirm k d s) := by
  have hregs := State.withDeb_getElem_ne s h x
  by_cases hc : s.deb[k].cnt < threshold
  · rw [confirm_below hc, confirm_below (by rwa [hregs]), hregs, State.withDeb_cfg, setCounter_withDeb x h]
    split
    · exact commit_withDeb x h d _
    · rfl
  · rw [confirm_atLeast hc, confirm_atLeast (by rwa [hregs]), hregs, State.withDeb_cfg]
    split
    · exact commit_withDeb x h d s
    · rfl

theorem debounceStep_withDeb (d : Byte) (s : State) :
    debounceStep k d (s.withDeb j x) = changeColumn j x (debounceStep k d s) := by
  unfold debounceStep
  simp only [State.withDeb_getElem_ne s h, State.withDeb_comm s h]
  split
  · rfl
  · split
    · rfl
    · exact confirm_withDeb x h d s

end

/-- Settles O31: the change of another column's registers goes through the sample. -/
theorem sampleReadsOneColumn : Obligations.SampleReadsOneColumn := by
  intro k j d x s t h ht
  have hs : debounceStep k d s = .next t := ht
  exact (debounceStep_withDeb x h d s).trans (congrArg (changeColumn j x) hs)

end Sys2Proof.Machine
end

section
/-! The event queue (42_event_queue.md R170 to R179)

What a queue operation run as an instruction answers, with exact views and with any, the order of the unread events, the
capacity law, how long a stale view can hold a test back, and the Gray code of a cursor. -/

namespace Sys2Proof.Machine

/-! ## A look at the other side's cursor -/

@[simp] theorem lookProducer_q (s : State) : (lookProducer s).q = s.q := by
  unfold lookProducer
  split <;> rfl

@[simp] theorem lookConsumer_q (s : State) : (lookConsumer s).q = s.q := by
  unfold lookConsumer
  split <;> rfl

@[simp] theorem lookProducer_cfg (s : State) : (lookProducer s).cfg = s.cfg := (ProducerFrame.look s).cfg

@[simp] theorem lookConsumer_cfg (s : State) : (lookConsumer s).cfg = s.cfg := by
  unfold lookConsumer
  split <;> rfl

@[simp] theorem occupancy_lookProducer (s : State) : occupancy (lookProducer s) = occupancy s := by simp [occupancy]

@[simp] theorem occupancy_lookConsumer (s : State) : occupancy (lookConsumer s) = occupancy s := by simp [occupancy]

theorem queueFull_stale {s : State} (hs : s.cfg.staleView = true) :
    queueFull s = true ↔ nextIndex s.cfg.capacity s.q.w = s.rv := by
  simp [queueFull, seenR, hs]

theorem queueEmpty_stale {s : State} (hs : s.cfg.staleView = true) : queueEmpty s = true ↔ s.wv = s.q.r := by
  simp [queueEmpty, seenW, hs]

/-! ## The operations as instructions -/

theorem QueueOk.withRet {s : State} (h : QueueOk s) (r : MicroResult) : QueueOk (s.withRet r) :=
  ⟨h.slotCount, h.writeIndex, h.readIndex⟩

theorem QueueOk.writeSlot {s : State} (h : QueueOk s) : s.q.w < s.q.slots.length := by
  rw [h.slotCount]
  exact h.writeIndex

theorem pushSlot_inside {s : State} (h : s.q.w < s.q.slots.length) (e : ButtonEvent) :
    pushSlot e s = .next (pushed e s) :=
  if_pos h

theorem popSlot_inside {s : State} {e : ButtonEvent} (h : s.q.slots[s.q.r]? = some e) :
    popSlot s = .next (e, popped s) := by
  unfold popSlot
  rw [h]
  rfl

/-- QUEUE_WRITE with the write cursor inside the array (42_event_queue.md R171). -/
theorem exec_queueWrite {s : State} (h : s.q.w < s.q.slots.length) (e : ButtonEvent) :
    exec (.queueWrite e) s = .next (if queueFull (lookProducer s) then (lookProducer s).withRet (.wrote false)
      else (pushed e (lookProducer s)).withRet (.wrote true)) := by
  have hpush : pushSlot e (lookProducer s) = .next (pushed e (lookProducer s)) := pushSlot_inside (by simpa using h) e
  show execQueueWrite e s = _
  unfold execQueueWrite queueWrite
  simp only [hpush, andThen_next]
  split <;> rfl

/-- QUEUE_READ with the read cursor inside the array (42_event_queue.md R173). -/
theorem exec_queueRead {s : State} {e : ButtonEvent} (h : s.q.slots[s.q.r]? = some e) :
    exec .queueRead s = .next (if queueEmpty (lookConsumer s) then (lookConsumer s).withRet (.read none)
      else (popped (lookConsumer s)).withRet (.read (some e))) := by
  have hpop : popSlot (lookConsumer s) = .next (e, popped (lookConsumer s)) := popSlot_inside (by simpa using h)
  show execQueueRead s = _
  unfold execQueueRead queueRead
  simp only [hpop, andThen_next]
  split <;> rfl

/-- With exact views QUEUE_WRITE compares the cursors themselves (42_event_queue.md R170). -/
theorem exec_queueWrite_exact {s : State} (hv : s.cfg.staleView = false) (h : s.q.w < s.q.slots.length)
    (e : ButtonEvent) :
    exec (.queueWrite e) s = .next (if nextIndex s.cfg.capacity s.q.w = s.q.r then s.withRet (.wrote false)
      else (pushed e s).withRet (.wrote true)) := by
  rw [exec_queueWrite h, lookProducer_exact hv]
  simp only [queueFull_exact_iff hv]

/-- With exact views QUEUE_READ compares the cursors themselves (42_event_queue.md R172). -/
theorem exec_queueRead_exact {s : State} {e : ButtonEvent} (hv : s.cfg.staleView = false)
    (h : s.q.slots[s.q.r]? = some e) :
    exec .queueRead s = .next (if s.q.w = s.q.r then s.withRet (.read none)
      else (popped s).withRet (.read (some e))) := by
  rw [exec_queueRead h, lookConsumer_exact hv]
  simp only [queueEmpty_exact_iff hv]

/-- With exact views QUEUE_WRITE_DROP writes always; a full queue loses its oldest event first (42_event_queue.md R175). -/
theorem exec_queueWriteDrop_exact {s : State} (hv : s.cfg.staleView = false) (h : s.q.w < s.q.slots.length)
    (e : ButtonEvent) : exec (.queueWriteDrop e) s = .next (dropPushed e s) := by
  show queueWriteDrop e s = _
  unfold queueWriteDrop dropPushed
  rw [if_neg (by simp [hv])]
  split
  · exact pushSlot_inside (s := popped s) h e
  · exact pushSlot_inside h e

/-- Settles O35: the test of the cursors decides. -/
theorem queueWriteStoresOrRefuses : Obligations.QueueWriteStoresOrRefuses := by
  intro e s hv hw
  rw [exec_queueWrite_exact hv hw]
  exact ⟨fun hfull => congrArg Host.Outcome.next (if_pos hfull), fun hroom => congrArg Host.Outcome.next (if_neg hroom)⟩

/-- Settles O36: the test of the cursors decides. -/
theorem queueReadTakesOrRefuses : Obligations.QueueReadTakesOrRefuses := by
  intro e s hv hs
  rw [exec_queueRead_exact hv hs]
  exact ⟨fun hempty => congrArg Host.Outcome.next (if_pos hempty), fun hne => congrArg Host.Outcome.next (if_neg hne)⟩

/-- Settles O37: stale views are tested first; then the test of the cursors decides whether the oldest event is lost. -/
theorem queueWriteDropMakesRoom : Obligations.QueueWriteDropMakesRoom := by
  intro e s
  refine ⟨fun hs => if_pos hs, fun hv hw hroom => ?_, fun hv hw hfull => ?_⟩
  · rw [exec_queueWriteDrop_exact hv hw]
    exact congrArg Host.Outcome.next (if_neg hroom)
  · rw [exec_queueWriteDrop_exact hv hw]
    exact congrArg Host.Outcome.next (if_pos hfull)

/-! ## First in, first out -/

/-- QUEUE_WRITE whatever the view: seen full, the test alone is done; otherwise the event is the newest unread one. -/
theorem exec_queueWrite_cases {s : State} (h : BlockInv s) (e : ButtonEvent) :
    (queueFull (lookProducer s) = true ∧
      exec (.queueWrite e) s = .next ((lookProducer s).withRet (.wrote false))) ∨
    (exec (.queueWrite e) s = .next ((pushed e (lookProducer s)).withRet (.wrote true)) ∧
      unread (pushed e (lookProducer s)) = unread s ++ [e]) := by
  rw [exec_queueWrite h.queueOk.writeSlot]
  cases hf : queueFull (lookProducer s) with
  | true => exact .inl ⟨rfl, rfl⟩
  | false =>
    have hocc := h.lookProducer.occupancy_of_notFull hf
    exact .inr ⟨rfl, by rw [unread_pushed h.lookProducer.queueOk e hocc, unread_lookProducer]⟩

/-- QUEUE_READ whatever the view: seen empty, the test alone is done; otherwise the oldest unread event is taken. -/
theorem exec_queueRead_cases {s : State} (h : BlockInv s) :
    (queueEmpty (lookConsumer s) = true ∧
      exec .queueRead s = .next ((lookConsumer s).withRet (.read none))) ∨
    (∃ e, exec .queueRead s = .next ((popped (lookConsumer s)).withRet (.read (some e))) ∧
      unread s = e :: unread (popped (lookConsumer s))) := by
  obtain ⟨e, hslot, -⟩ := popSlot_ok h.queueOk
  rw [exec_queueRead hslot]
  cases he : queueEmpty (lookConsumer s) with
  | true => exact .inl ⟨rfl, rfl⟩
  | false =>
    have hocc := h.lookConsumer.occupancy_of_notEmpty he
    exact .inr ⟨e, rfl, by
      rw [← unread_lookConsumer, unread_popped h.lookConsumer.queueOk hocc (e := e) (by simpa using hslot)]⟩

/-- Settles O39: a test leaves the unread events, a push adds the newest, a pop takes the oldest. -/
theorem queueIsFirstInFirstOut : Obligations.QueueIsFirstInFirstOut := by
  intro s h
  refine ⟨fun e => ?_, ?_⟩
  · rcases exec_queueWrite_cases h e with ⟨-, hx⟩ | ⟨hx, hu⟩
    · exact ⟨_, hx, .inr ⟨rfl, unread_lookProducer s⟩⟩
    · exact ⟨_, hx, .inl ⟨rfl, hu⟩⟩
  · rcases exec_queueRead_cases h with ⟨-, hx⟩ | ⟨e, hx, hu⟩
    · exact ⟨_, hx, .inr ⟨rfl, unread_lookConsumer s⟩⟩
    · exact ⟨_, hx, .inl ⟨e, rfl, hu⟩⟩

/-! ## A commit that drops the oldest events -/

/-- Under `dropOldest` every event goes in, then `last` is written (42_event_queue.md R175). -/
theorem commit_drop {k : Fin 10} (d : Byte) {s : State} (h : QueueOk s) (hp : s.cfg.overflowPolicy = .dropOldest)
    (hv : s.cfg.staleView = false) :
    commit k d s = .next { s with
      q := (dropAll (commitEvents s k) s).q, deb := s.deb.set k { s.deb[k] with last := d } } := by
  rw [commit, commitRows_drop h hp hv, andThen_next, rowEvents_allRows, dropAll_eq]
  rfl

theorem Config.two_le_capacity {c : Config} (h : 1 ≤ c.capLog) : 2 ≤ c.capacity :=
  Nat.pow_le_pow_right (n := 2) (by decide) h

/-- Settles O28: the events as one list pushed on the queue, the oldest making room. -/
theorem commitDropsOldestEvents : Obligations.CommitDropsOldestEvents := by
  intro k d s hi hp
  obtain ⟨hcap, -, -, -, -, -, hlegal⟩ := hi.cfgWf
  have hv : s.cfg.staleView = false := Bool.eq_false_iff.mpr fun hs => hlegal ⟨hp, hs⟩
  refine ⟨_, commit_drop d hi.queueOk hp hv, ?_⟩
  rw [← dropAll_eq, unread_dropAll hi.queueOk (Config.two_le_capacity hcap)]

/-! ## Runs of one operation -/

theorem execResults_cons {i : Instr} {rest : List Instr} {rs : List MicroResult} {s t u : State}
    (h : exec i s = .next t) (hr : execResults rest t = .next (rs, u)) :
    execResults (i :: rest) s = .next (t.ret :: rs, u) := by
  rw [execResults, h, andThen_next, hr, andThen_next]

/-- With exact views and room for them all, a list of events is written one by one. -/
theorem execResults_queueWrites {es : List ButtonEvent} {s : State} (h : QueueOk s) (hv : s.cfg.staleView = false)
    (hl : es.length ≤ room s) :
    ∃ t, execResults (es.map .queueWrite) s = .next (es.map fun _ => .wrote true, t) ∧
      QueueOk t ∧ t.cfg = s.cfg ∧ unread t = unread s ++ es := by
  induction es generalizing s with
  | nil => exact ⟨s, rfl, h, rfl, (List.append_nil _).symm⟩
  | cons e es ih =>
    simp only [List.length_cons, room] at hl
    have hne : occupancy s ≠ s.cfg.capacity - 1 := by omega
    have hx : exec (.queueWrite e) s = .next ((pushed e s).withRet (.wrote true)) := by
      rw [exec_queueWrite_exact hv h.writeSlot, if_neg ((full_iff h).not.mpr hne)]
    have hroom : es.length ≤ room ((pushed e s).withRet (.wrote true)) := by
      have hocc := occupancy_pushed h e hne
      show es.length ≤ s.cfg.capacity - 1 - occupancy (pushed e s)
      omega
    obtain ⟨t, hr, ht, hcfg, hu⟩ := ih ((pushed_queueOk h e).withRet _) hv hroom
    refine ⟨t, execResults_cons hx hr, ht, hcfg, hu.trans ?_⟩
    show unread (pushed e s) ++ es = _
    rw [unread_pushed h e hne, List.append_assoc]
    rfl

/-- With exact views the unread events are read one by one, until the queue is empty. -/
theorem execResults_queueReads {es : List ButtonEvent} {s : State} (h : QueueOk s) (hv : s.cfg.staleView = false)
    (hu : unread s = es) :
    ∃ t, execResults (es.map fun _ => .queueRead) s = .next (es.map fun e => .read (some e), t) ∧ t.q.w = t.q.r := by
  induction es generalizing s with
  | nil => exact ⟨s, rfl, (empty_iff h).mpr (by rw [← length_unread h, hu, List.length_nil])⟩
  | cons e es ih =>
    have hne : occupancy s ≠ 0 := by simp [← length_unread h, hu]
    obtain ⟨x, hslot, -⟩ := popSlot_ok h
    have hcons := unread_popped h hne hslot
    rw [hu] at hcons
    obtain ⟨rfl, rfl⟩ := List.cons.inj hcons
    have hx : exec .queueRead s = .next ((popped s).withRet (.read (some e))) := by
      rw [exec_queueRead_exact hv hslot, if_neg ((empty_iff h).not.mpr hne)]
    obtain ⟨t, hr, ht⟩ := ih (s := (popped s).withRet (.read (some e))) ((popped_queueOk h).withRet _) hv rfl
    exact ⟨t, execResults_cons hx hr, ht⟩

/-- Settles O40: the writes fill the queue with the events, and the reads empty it. -/
theorem queueCapacityLaw : Obligations.QueueCapacityLaw := by
  intro s es hi hv hempty hlen
  have hocc := (empty_iff hi.queueOk).mp hempty
  have hnil : unread s = [] := List.eq_nil_of_length_eq_zero ((length_unread hi.queueOk).trans hocc)
  obtain ⟨t, hwrites, ht, hcfg, hu⟩ := execResults_queueWrites hi.queueOk hv (es := es) (by unfold room; omega)
  rw [hnil, List.nil_append] at hu
  have hvt : t.cfg.staleView = false := by rw [hcfg, hv]
  have hfull : occupancy t = t.cfg.capacity - 1 := by rw [← length_unread ht, hu, hlen, hcfg]
  obtain ⟨v, hreads, hv⟩ := execResults_queueReads ht hvt hu
  refine ⟨t, v, hwrites, fun e => ?_, hreads, hv⟩
  rw [exec_queueWrite_exact hvt ht.writeSlot, if_pos ((full_iff ht).mpr hfull)]
  rfl

/-! ## Stale views -/

/-- The producer's view moves toward the read cursor, at most to it (42_event_queue.md R179). -/
theorem lookProducer_moves {s : State} (hs : s.cfg.staleView = true) (hv : s.rv < s.cfg.capacity)
    (hr : s.q.r < s.cfg.capacity) :
    ∃ j, j ≤ gapTo s.cfg.capacity s.rv s.q.r ∧ (lookProducer s).rv = (s.rv + j) % s.cfg.capacity ∧
      gapTo s.cfg.capacity (lookProducer s).rv s.q.r = gapTo s.cfg.capacity s.rv s.q.r - j := by
  unfold lookProducer
  rw [if_pos hs]
  exact ⟨_, Nat.min_le_right _ _, rfl, (moveView_spec hv hr).2⟩

/-- The consumer's view moves toward the write cursor, at most to it (42_event_queue.md R179). -/
theorem lookConsumer_moves {s : State} (hs : s.cfg.staleView = true) (hv : s.wv < s.cfg.capacity)
    (hw : s.q.w < s.cfg.capacity) :
    ∃ j, j ≤ gapTo s.cfg.capacity s.wv s.q.w ∧ (lookConsumer s).wv = (s.wv + j) % s.cfg.capacity ∧
      gapTo s.cfg.capacity (lookConsumer s).wv s.q.w = gapTo s.cfg.capacity s.wv s.q.w - j := by
  unfold lookConsumer
  rw [if_pos hs]
  exact ⟨_, Nat.min_le_right _ _, rfl, (moveView_spec hv hw).2⟩

/-- QUEUE_WRITE leaves the view and the watch of its look, and what it returns is the test made with them. -/
theorem exec_queueWrite_look {e : ButtonEvent} {s t : State} (h : exec (.queueWrite e) s = .next t) :
    t.rv = (lookProducer s).rv ∧ t.rvWatch = (lookProducer s).rvWatch ∧
      (t.ret = .wrote false ↔ queueFull (lookProducer s) = true) := by
  obtain ⟨ok, u, hw, rfl⟩ := execQueueWrite_next h
  rcases queueWrite_cases hw with ⟨rfl, hf, rfl⟩ | ⟨rfl, hf, rfl⟩ <;> exact ⟨rfl, rfl, by simp [hf]⟩

/-- QUEUE_READ leaves the view and the watch of its look, and what it returns is the test made with them. -/
theorem exec_queueRead_look {s t : State} (h : exec .queueRead s = .next t) :
    t.wv = (lookConsumer s).wv ∧ t.wvWatch = (lookConsumer s).wvWatch ∧
      (t.ret = .read none ↔ queueEmpty (lookConsumer s) = true) := by
  obtain ⟨r, u, hr, rfl⟩ := execQueueRead_next h
  rcases queueRead_cases hr with ⟨rfl, he, rfl⟩ | ⟨e, rfl, he, rfl, -⟩ <;> exact ⟨rfl, rfl, by simp [he]⟩

/-! ## A stale view holds a test back only finitely often -/

/-- An operation that is refused only while a measure falls is refused finitely often in a row, and then done. -/
theorem execResults_retry {i : Instr} {refused : MicroResult} {Waiting Done : State → Prop} (left : State → Nat)
    (hstep : ∀ s, Waiting s → ∃ t, exec i s = .next t ∧
      (Done t ∨ (t.ret = refused ∧ Waiting t ∧ left t < left s)))
    {s : State} (h : Waiting s) :
    ∃ n t, execResults (List.replicate (n + 1) i) s = .next (List.replicate n refused ++ [t.ret], t) ∧ Done t := by
  induction hm : left s using Nat.strong_induction_on generalizing s with
  | _ m ih =>
    obtain ⟨t, hx, hdone | ⟨hret, hwait, hlt⟩⟩ := hstep s h
    · exact ⟨0, t, execResults_cons hx rfl, hdone⟩
    · obtain ⟨n, u, hr, hdone⟩ := ih (left t) (hm ▸ hlt) hwait rfl
      refine ⟨n + 1, u, ?_, hdone⟩
      rw [List.replicate_succ, execResults_cons hx hr, hret]
      rfl

/-- A producer with a stale view and room in the queue. -/
structure StaleWithRoom (s : State) : Prop where
  inv   : BlockInv s
  stale : s.cfg.staleView = true
  room  : occupancy s ≠ s.cfg.capacity - 1

/-- A consumer with a stale view, `e` the oldest unread event and `rest` the others. -/
structure StaleWithEvent (e : ButtonEvent) (rest : List ButtonEvent) (s : State) : Prop where
  inv    : BlockInv s
  stale  : s.cfg.staleView = true
  events : unread s = e :: rest

theorem lookProducer_rvWatch {s : State} (hs : s.cfg.staleView = true) :
    (lookProducer s).rvWatch = watchAfter (Config.rvPatience s.free.rv) s.q.r s.rvWatch := by
  unfold lookProducer
  rw [if_pos hs]
  rfl

theorem lookConsumer_wvWatch {s : State} (hs : s.cfg.staleView = true) :
    (lookConsumer s).wvWatch = watchAfter (Config.wvPatience s.free.wv) s.q.w s.wvWatch := by
  unfold lookConsumer
  rw [if_pos hs]
  rfl

/-- Between two looks in a row the read cursor rests, so the second leaves one test fewer. -/
theorem lookProducer_again_left {s : State} (hs : s.cfg.staleView = true) (r : MicroResult) :
    (lookProducer ((lookProducer s).withRet r)).rvWatch.left = (lookProducer s).rvWatch.left - 1 := by
  have hrests : (lookProducer s).rvWatch.cursor = s.q.r := by rw [lookProducer_rvWatch hs, watchAfter_cursor]
  rw [lookProducer_rvWatch (by simpa using hs), watchAfter_left (by simpa using hrests), State.withRet_rvWatch]

/-- Between two looks in a row the write cursor rests, so the second leaves one test fewer. -/
theorem lookConsumer_again_left {s : State} (hs : s.cfg.staleView = true) (r : MicroResult) :
    (lookConsumer ((lookConsumer s).withRet r)).wvWatch.left = (lookConsumer s).wvWatch.left - 1 := by
  have hrests : (lookConsumer s).wvWatch.cursor = s.q.w := by rw [lookConsumer_wvWatch hs, watchAfter_cursor]
  rw [lookConsumer_wvWatch (by simpa using hs), watchAfter_left (by simpa using hrests), State.withRet_wvWatch]

/-- While there is room, a look that shows full leaves tests to come: at their end the view is exact. -/
theorem StaleWithRoom.left_lt {s : State} (h : StaleWithRoom s) (hf : queueFull (lookProducer s) = true)
    (r : MicroResult) :
    (lookProducer ((lookProducer s).withRet r)).rvWatch.left < (lookProducer s).rvWatch.left := by
  rw [lookProducer_again_left h.stale]
  refine Nat.sub_one_lt fun h0 => h.room ((full_iff h.inv.queueOk).mp ?_)
  obtain ⟨hrv, -⟩ := h.inv.views h.stale
  obtain ⟨-, -, hexact⟩ := lookProducer_fair h.stale hrv h.inv.readIndex
  rw [← hexact h0]
  simpa using (queueFull_stale (by simpa using h.stale)).mp hf

/-- While there is an unread event, a look that shows empty leaves tests to come: at their end the view is exact. -/
theorem StaleWithEvent.left_lt {e : ButtonEvent} {rest : List ButtonEvent} {s : State} (h : StaleWithEvent e rest s)
    (he : queueEmpty (lookConsumer s) = true) (r : MicroResult) :
    (lookConsumer ((lookConsumer s).withRet r)).wvWatch.left < (lookConsumer s).wvWatch.left := by
  have hocc : occupancy s ≠ 0 := by simp [← length_unread h.inv.queueOk, h.events]
  rw [lookConsumer_again_left h.stale]
  refine Nat.sub_one_lt fun h0 => hocc ((empty_iff h.inv.queueOk).mp ?_)
  obtain ⟨-, hwv, -⟩ := h.inv.views h.stale
  obtain ⟨-, -, hexact⟩ := lookConsumer_fair h.stale hwv h.inv.writeIndex
  rw [← hexact h0]
  simpa using (queueEmpty_stale (by simpa using h.stale)).mp he

/-- With room a write is done, or refused with fewer tests left. -/
theorem StaleWithRoom.exec_queueWrite {s : State} (h : StaleWithRoom s) (e : ButtonEvent) :
    ∃ t, exec (.queueWrite e) s = .next t ∧ (t.ret = .wrote true ∨
      (t.ret = .wrote false ∧ StaleWithRoom t ∧ (lookProducer t).rvWatch.left < (lookProducer s).rvWatch.left)) := by
  rcases exec_queueWrite_cases h.inv e with ⟨hf, hx⟩ | ⟨hx, -⟩
  · have hroom : occupancy (lookProducer s) ≠ (lookProducer s).cfg.capacity - 1 := by simpa using h.room
    exact ⟨_, hx, .inr ⟨rfl, ⟨h.inv.lookProducer.withRet _, by simpa using h.stale, hroom⟩, h.left_lt hf _⟩⟩
  · exact ⟨_, hx, .inl rfl⟩

/-- With an unread event a read takes the oldest, or is refused with fewer tests left. -/
theorem StaleWithEvent.exec_queueRead {e : ButtonEvent} {rest : List ButtonEvent} {s : State}
    (h : StaleWithEvent e rest s) :
    ∃ t, exec .queueRead s = .next t ∧ ((t.ret = .read (some e) ∧ unread t = rest) ∨
      (t.ret = .read none ∧ StaleWithEvent e rest t ∧
        (lookConsumer t).wvWatch.left < (lookConsumer s).wvWatch.left)) := by
  rcases exec_queueRead_cases h.inv with ⟨he, hx⟩ | ⟨e', hx, hu⟩
  · have hevents : unread (lookConsumer s) = e :: rest := by rw [unread_lookConsumer, h.events]
    exact ⟨_, hx, .inr ⟨rfl, ⟨h.inv.lookConsumer.withRet _, by simpa using h.stale, hevents⟩, h.left_lt he _⟩⟩
  · rw [h.events] at hu
    obtain ⟨rfl, rfl⟩ := List.cons.inj hu
    exact ⟨_, hx, .inl ⟨rfl, rfl⟩⟩

/-- Settles O41: each test is a look, and the tests left bound the refusals in a row. -/
theorem staleTestUsesMovedView : Obligations.StaleTestUsesMovedView := by
  intro s hi hs
  obtain ⟨hrv, hwv, -⟩ := hi.views hs
  refine ⟨fun e t hx => ?_, fun t hx => ?_, fun e hroom => ?_, fun e rest hu => ?_⟩
  · obtain ⟨hview, hwatch, hret⟩ := exec_queueWrite_look hx
    rw [hview, hwatch, hret, queueFull_stale (by simpa using hs), lookProducer_q, lookProducer_cfg]
    exact ⟨lookProducer_moves hs hrv hi.readIndex, Iff.rfl, lookProducer_fair hs hrv hi.readIndex⟩
  · obtain ⟨hview, hwatch, hret⟩ := exec_queueRead_look hx
    rw [hview, hwatch, hret, queueEmpty_stale (by simpa using hs), lookConsumer_q]
    exact ⟨lookConsumer_moves hs hwv hi.writeIndex, Iff.rfl, lookConsumer_fair hs hwv hi.writeIndex⟩
  · obtain ⟨n, t, hr, hret⟩ := execResults_retry (fun s => (lookProducer s).rvWatch.left)
      (fun _ h => StaleWithRoom.exec_queueWrite h e) ⟨hi, hs, hroom⟩
    rw [hret] at hr
    exact ⟨n, t, hr⟩
  · obtain ⟨n, t, hr, hret, hrest⟩ := execResults_retry (fun s => (lookConsumer s).wvWatch.left)
      (fun _ h => StaleWithEvent.exec_queueRead h) ⟨hi, hs, hu⟩
    rw [hret] at hr
    exact ⟨n, t, hr, hrest⟩

/-! ## The Gray code of a cursor -/

theorem gray_xor (a b : Nat) : gray (a ^^^ b) = gray a ^^^ gray b := by
  unfold gray
  rw [Nat.shiftRight_xor_distrib, Nat.xor_assoc, Nat.xor_assoc, Nat.xor_left_comm b]

/-- The code of `i + 1` ones is the topmost of them. -/
theorem gray_ones (i : Nat) : gray (2 ^ (i + 1) - 1) = 2 ^ i := by
  refine Nat.eq_of_testBit_eq fun j => ?_
  rw [gray, Nat.testBit_xor, Nat.testBit_shiftRight, Nat.testBit_two_pow_sub_one, Nat.testBit_two_pow_sub_one,
    Nat.testBit_two_pow]
  rcases Nat.lt_trichotomy j i with h | rfl | h
  · simp [show j < i + 1 by omega, show 1 + j < i + 1 by omega, show i ≠ j by omega]
  · simp
  · simp [show ¬ j < i + 1 by omega, show ¬ 1 + j < i + 1 by omega, show i ≠ j by omega]

/-- An odd and an even number differ in bit 0 and where their halves differ. -/
theorem xor_odd_even (a b : Nat) : (2 * a + 1) ^^^ (2 * b) = 2 * (a ^^^ b) + 1 := by
  simpa [Nat.bit_val] using Nat.xor_bit true a false b

/-- An index and the next one, the wrap included, differ in a run of ones from bit 0 up: the carry's path. -/
theorem xor_next_index {k b : Nat} (h : b < 2 ^ (k + 1)) :
    ∃ i, i < k + 1 ∧ b ^^^ ((b + 1) % 2 ^ (k + 1)) = 2 ^ (i + 1) - 1 := by
  induction k generalizing b with
  | zero => exact ⟨0, Nat.one_pos, by interval_cases b <;> rfl⟩
  | succ k ih =>
    rw [Nat.pow_succ'] at h ⊢
    obtain ⟨c, rfl | rfl⟩ := b.even_or_odd'
    · refine ⟨0, Nat.succ_pos _, ?_⟩
      rw [Nat.mod_eq_of_lt (by omega), Nat.xor_comm, xor_odd_even, Nat.xor_self]
      rfl
    · obtain ⟨i, hi, hx⟩ := ih (b := c) (by omega)
      refine ⟨i + 1, Nat.succ_lt_succ hi, ?_⟩
      have hnext : (2 * c + 1 + 1) % (2 * 2 ^ (k + 1)) = 2 * ((c + 1) % 2 ^ (k + 1)) := Nat.mul_mod_mul_left 2 (c + 1) _
      have hpos := Nat.two_pow_pos (i + 1)
      rw [hnext, xor_odd_even, hx, Nat.pow_succ' (n := i + 1)]
      omega

/-- Settles O42: the code is linear, so the codes differ as the code of the carry's path. -/
theorem grayCodeOfCursors : Obligations.GrayCodeOfCursors := by
  intro k b hk hb
  refine ⟨gray_lt hb, ungray_gray hb, ?_⟩
  obtain ⟨k, rfl⟩ := Nat.exists_eq_add_of_le' hk
  obtain ⟨i, hi, hx⟩ := xor_next_index hb
  exact ⟨i, hi, by rw [← gray_xor, hx, gray_ones]⟩

end Sys2Proof.Machine
end

section
/-! Colour commands (43_color.md R200 to R211)

A colour command in range writes its LED and nothing else, one out of range changes nothing, and a torn update ends in
the Frame Buffer of the atomic one. -/

namespace Sys2Proof.Machine

/-! ## Commands that change nothing -/

/-- Operands that name a row and a column are in range (43_color.md R207). -/
theorem inRange_of_some {row col : Byte} {r : Fin 6} {c : Fin 10} (hr : rowOfByte row = some r)
    (hc : columnOfByte col = some c) : ¬ (6 ≤ row.toNat ∨ 10 ≤ col.toNat) := by
  rintro (h | h)
  · rw [rowOfByte, dif_neg (by omega)] at hr
    cases hr
  · rw [columnOfByte, dif_neg (by omega)] at hc
    cases hc

/-- Out of range SET_RGB changes nothing, halted or not (43_color.md R207). -/
theorem setRgb_outOfRange {row col : Byte} (h : 6 ≤ row.toNat ∨ 10 ≤ col.toNat) (a : Agent) (v : Rgb) (s : State) :
    setRgb a row col v s = s := by
  unfold setRgb
  split
  · rfl
  · split
    · rename_i hr hc
      exact absurd h (inRange_of_some hr hc)
    · rfl

/-- Out of range SET_COLOR changes nothing and looks nothing up, halted or not (43_color.md R207). -/
theorem setColor_outOfRange {b0 b1 : Byte} (h : 6 ≤ b0.toNat ∨ 10 ≤ b1.toNat) (b2 b3 : Byte) (s : State) :
    setColor b0 b1 b2 b3 s = s := by
  unfold setColor
  split
  · rfl
  · split
    · rename_i hr hc
      exact absurd h (inRange_of_some hr hc)
    · rfl

/-- Settles O47: out of range neither command gets as far as BAM_ENCODE. -/
theorem outOfRangeColorDoesNothing : Obligations.OutOfRangeColorDoesNothing := fun _ _ x y r g b s h =>
  ⟨congrArg Host.Outcome.next (setColor_outOfRange h x y s),
    congrArg Host.Outcome.next (setRgb_outOfRange h .rawPort ⟨r, g, b⟩ s)⟩

/-- Settles O48: RX_IGNORED answers the state it is given. -/
theorem rxIgnoredDoesNothing : Obligations.RxIgnoredDoesNothing := fun _ _ => rfl

/-! ## Words of the spec's examples -/

/-- Settles O11: a word of four bytes is a SET_COLOR of its fields, a word of another length is ignored. -/
theorem specWordsDecode : Obligations.SpecWordsDecode :=
  ⟨fourByteWordFields 0x01020103, fourByteWordFields 0x00000107, decodeTableWord_bytes 3 _, decodeTableWord_bytes 5 _,
    decodeTableWord_bytes 0 _⟩

/-! ## Atomic colour writes -/

/-- With `TEAR = false` BAM_ENCODE writes one LED and nothing else (43_color.md R200). -/
theorem bamEncode_ledWritten {r : Fin 6} {c : Fin 10} {s : State} (hw : Memory.wf s.fb = true)
    (ht : s.cfg.tear = false) (a : Agent) (v : Rgb) : LedWritten s (bamEncode a r c v s) r c v := by
  rw [bamEncode_atomic ht]
  exact ledWritten_of_bits (fbBit_bamCells hw r c v)

/-- Settles O44: the instruction is the BAM_ENCODE of the raw-colour port. -/
theorem bamEncodeWritesOneLed : Obligations.BamEncodeWritesOneLed := fun _ _ r g b _ hw ht =>
  ⟨_, rfl, bamEncode_ledWritten hw ht .rawPort ⟨r, g, b⟩⟩

/-- Settles O43: in range SET_RGB is a BAM_ENCODE of its operands. -/
theorem setRgbWritesOneLed : Obligations.SetRgbWritesOneLed := by
  intro row col r g b s ri ci hw ht hh hrow hcol
  refine ⟨_, rfl, ?_⟩
  rw [setRgb_inRange hh hrow hcol]
  exact bamEncode_ledWritten hw ht .rawPort ⟨r, g, b⟩

/-- `isOn` is any byte but 0 (30_encoding.md R84). -/
theorem isOnByte_iff {b : Byte} : isOnByte b = true ↔ b ≠ 0 := bne_iff_ne

/-- Settles O45: in range and on, SET_COLOR is a BAM_ENCODE of the table's colour once the index is sent. -/
theorem setColorOnWritesTableColor : Obligations.SetColorOnWritesTableColor := by
  intro b0 b1 b2 b3 s ri ci hw ht hh hrow hcol hon
  refine ⟨_, rfl, ?_⟩
  rw [setColor_inRange hh hrow hcol, if_pos (isOnByte_iff.mpr hon)]
  exact bamEncode_ledWritten (s := s.send (.ctIdx b3)) hw ht .hostBus (s.cfg.lookup b3)

/-- Settles O46: in range and off, SET_COLOR is a BAM_ENCODE of no colour, with nothing sent. -/
theorem setColorOffClearsLed : Obligations.SetColorOffClearsLed := by
  intro b0 b1 b3 s ri ci hw ht hh hrow hcol
  refine ⟨_, rfl, ?_⟩
  rw [setColor_inRange hh hrow hcol, if_neg (by decide)]
  exact bamEncode_ledWritten hw ht .hostBus Rgb.off

/-! ## A torn update, all its sub-steps taken -/

/-- The sub-steps of a torn colour write and the cells of the atomic one make the same Frame Buffer (43_color.md R211):
both give every bit its encoded value. -/
theorem tornSteps_fb {s : State} (hw : Memory.wf s.fb = true) (r : Fin 6) (c : Fin 10) (v : Rgb) :
    (applySubSteps s (tornSteps r c v)).fb = (applySubSteps s (bamCells r c v)).fb :=
  fb_ext (applySubSteps_wf hw _) (applySubSteps_wf hw _) fun st k ch j => by
    rw [fbBit_tornSteps hw, fbBit_bamCells hw]

/-- A torn colour write has sub-steps to do: the clears of stage 0 at least (20_memory.md R70). -/
theorem tornSteps_ne_nil (r : Fin 6) (c : Fin 10) (v : Rgb) : tornSteps r c v ≠ [] := List.cons_ne_nil _ _

/-- The state in which the sub-steps `ps` of an update of `a` are still to do and as many sub-step turns come. -/
def withSubSteps (a : Agent) (ps : List SubStep) (s : State) : State :=
  { s with
    update := if ps = [] then none else some ⟨a, ps⟩
    inputs := List.replicate ps.length .colorSubStep }

theorem withSubSteps_of_ne_nil (a : Agent) {ps : List SubStep} (h : ps ≠ []) (s : State) :
    withSubSteps a ps s =
      { s with update := some ⟨a, ps⟩, inputs := List.replicate ps.length .colorSubStep } := by
  rw [withSubSteps, if_neg h]

/-- A step does the first of the sub-steps and takes one turn (20_memory.md R70). -/
theorem step_withSubSteps (a : Agent) (p : SubStep) (ps : List SubStep) {s : State} (hh : s.halted = false) :
    step (withSubSteps a (p :: ps) s) = .next (withSubSteps a ps (applySubStep s p)) := by
  rw [withSubSteps_of_ne_nil a (List.cons_ne_nil p ps), step_subStep rfl]
  exact congrArg Host.Outcome.next (colorSubStep_cons hh rfl)

/-- In the RUN mode the turns that come do all the sub-steps and end the update (20_memory.md R70). -/
theorem run_withSubSteps (a : Agent) (ps : List SubStep) {s : State} (hh : s.halted = false) :
    Host.Core.run Sys2Proof.core ps.length (withSubSteps a ps s) =
      .next { s with fb := (applySubSteps s ps).fb, update := none, inputs := [] } := by
  induction ps generalizing s with
  | nil => rfl
  | cons p ps ih => exact (run_succ _ (step_withSubSteps a p ps hh)).trans (ih (s := applySubStep s p) hh)

/-- A torn colour write that nothing interrupts ends in the Frame Buffer of the atomic one (43_color.md R211). -/
theorem run_tornSteps {s : State} (hw : Memory.wf s.fb = true) (hh : s.halted = false) (hu : s.update = none)
    (a : Agent) (r : Fin 6) (c : Fin 10) (v : Rgb) :
    Host.Core.run Sys2Proof.core (tornSteps r c v).length
        { s with
          update := some ⟨a, tornSteps r c v⟩
          inputs := List.replicate (tornSteps r c v).length .colorSubStep } =
      .next { s with fb := (applySubSteps s (bamCells r c v)).fb, inputs := [] } := by
  rw [← withSubSteps_of_ne_nil a (tornSteps_ne_nil r c v), run_withSubSteps a _ hh, tornSteps_fb hw, hu]

/-- Settles O51: the command starts its sub-steps, at most 24, and a run of as many turns takes them all. -/
theorem tornUpdateEndsLikeAtomicOne : Obligations.TornUpdateEndsLikeAtomicOne := by
  intro row col r g b s t u hw ht hh hu hrow hcol htorn hatomic
  obtain ⟨ri, hri⟩ : ∃ ri : Fin 6, row.toNat = ri.val := ⟨⟨_, hrow⟩, rfl⟩
  obtain ⟨ci, hci⟩ : ∃ ci : Fin 10, col.toNat = ci.val := ⟨⟨_, hcol⟩, rfl⟩
  obtain ⟨hstart, -⟩ := tornColorStartsSubSteps row col 0 0 r g b s ri ci ht hh hri hci
  rw [hstart, settledFb_none hu] at htorn
  cases htorn
  have hfb : u.fb = (applySubSteps s (bamCells ri ci ⟨r, g, b⟩)).fb := by
    cases hatomic
    rw [setRgb_inRange (s := { s with cfg := { s.cfg with tear := false } }) hh hri hci, bamEncode_atomic rfl]
    exact applySubSteps_congr _ rfl
  rw [hfb]
  exact ⟨_, length_tornSteps ri ci ⟨r, g, b⟩, run_tornSteps hw hh hu .rawPort ri ci ⟨r, g, b⟩⟩

end Sys2Proof.Machine
end

section
/-! Poll (44_poll.md R230 to R235)

A poll in the RUN mode answers with what one QUEUE_READ gives. With exact views that is the oldest unread event or the
sentinel of an empty queue; with any views no event is lost, and the watch bounds how many polls in a row hide one. -/

namespace Sys2Proof.Machine

/-! ## A look and what was sent; the empty test -/

@[simp] theorem lookConsumer_out (s : State) : (lookConsumer s).out = s.out := by
  unfold lookConsumer
  split <;> rfl

@[simp] theorem lookConsumer_halted (s : State) : (lookConsumer s).halted = s.halted := by
  unfold lookConsumer
  split <;> rfl

/-- A queue seen empty gives no event, wherever its cursors are (42_event_queue.md R173). -/
theorem queueRead_empty {s : State} (he : queueEmpty (lookConsumer s) = true) :
    queueRead s = .next (none, lookConsumer s) :=
  if_pos he

/-- With equal cursors the consumer sees the queue empty, whatever its view. -/
theorem queueEmpty_of_eq {s : State} (h : BlockInv s) (hq : s.q.w = s.q.r) :
    queueEmpty (lookConsumer s) = true := by
  refine Bool.of_not_eq_false fun hf => h.lookConsumer.occupancy_of_notEmpty hf ?_
  rw [occupancy_lookConsumer]
  exact (empty_iff h.queueOk).mp hq

/-! ## One poll -/

/-- In the RUN mode a poll is one read and the response to what it gave (44_poll.md R230, R234). -/
theorem exec_poll_read {s u : State} {r : Option ButtonEvent} (hh : s.halted = false)
    (hr : queueRead s = .next (r, u)) :
    exec .poll s = .next (u.send (.pollResp (r.elim sentinel responseOf))) := by
  show execPoll s = _
  rw [execPoll, if_neg (by simp [hh]), hr, andThen_next]
  cases r <;> rfl

/-- A poll of a queue seen empty sends the sentinel after the look alone (44_poll.md R232). -/
theorem exec_poll_empty {s : State} (hh : s.halted = false) (he : queueEmpty (lookConsumer s) = true) :
    exec .poll s = .next ((lookConsumer s).send (.pollResp sentinel)) :=
  exec_poll_read hh (queueRead_empty he)

/-- A poll whatever the view: seen empty, the sentinel is sent; otherwise the oldest unread event is taken and sent. -/
theorem exec_poll_cases {s : State} (h : BlockInv s) (hh : s.halted = false) :
    (queueEmpty (lookConsumer s) = true ∧ exec .poll s = .next ((lookConsumer s).send (.pollResp sentinel))) ∨
    (∃ e, exec .poll s = .next ((popped (lookConsumer s)).send (.pollResp (responseOf e))) ∧
      unread s = e :: unread (popped (lookConsumer s))) := by
  cases he : queueEmpty (lookConsumer s) with
  | true => exact .inl ⟨rfl, exec_poll_empty hh he⟩
  | false =>
    obtain ⟨e, hslot, hread⟩ := queueRead_ok h.queueOk
    rw [he, if_neg Bool.false_ne_true] at hread
    refine .inr ⟨e, exec_poll_read hh hread, ?_⟩
    rw [← unread_lookConsumer]
    exact unread_popped h.lookConsumer.queueOk (h.lookConsumer.occupancy_of_notEmpty he) hslot

/-- In the RUN mode a poll writes the queue, the consumer's view with draw and watch, and the output, nothing else. -/
theorem exec_poll_frame {s t : State} (hh : s.halted = false) (h : exec .poll s = .next t) :
    t = { s with
      q := t.q, wv := t.wv, wvWatch := t.wvWatch, out := t.out, free := { s.free with wv := t.free.wv } } := by
  rcases execPoll_cases h with ⟨hhalted, -⟩ | ⟨-, e, u, hread, rfl⟩
  · rw [hh] at hhalted
    cases hhalted
  · obtain ⟨i, v, w, n, rfl⟩ := queueRead_frame hread
    rfl

/-! ## Hidden events -/

/-- Only a stale view can show a queue with an unread event empty (44_poll.md R235). -/
theorem StaleWithEvent.of_hidden {e : ButtonEvent} {rest : List ButtonEvent} {s : State} (h : BlockInv s)
    (hu : unread s = e :: rest) (he : queueEmpty (lookConsumer s) = true) : StaleWithEvent e rest s := by
  refine ⟨h, Bool.of_not_eq_false fun hv => ?_, hu⟩
  rw [lookConsumer_exact hv, queueEmpty_exact hv h.queueOk, ← length_unread h.queueOk, hu] at he
  cases he

/-- Sending a response between two looks in a row makes no difference: the second leaves fewer tests. -/
theorem StaleWithEvent.left_lt_send {e : ButtonEvent} {rest : List ButtonEvent} {s : State}
    (h : StaleWithEvent e rest s) (he : queueEmpty (lookConsumer s) = true) (o : PortOut) :
    (lookConsumer ((lookConsumer s).send o)).wvWatch.left < (lookConsumer s).wvWatch.left := by
  have hsame : (lookConsumer ((lookConsumer s).send o)).wvWatch =
      (lookConsumer ((lookConsumer s).withRet .none)).wvWatch := by
    rw [lookConsumer_wvWatch (by simpa using h.stale), lookConsumer_wvWatch (by simpa using h.stale)]
    rfl
  rw [hsame]
  exact h.left_lt he .none

/-- A look that hides an event leaves the watch at the write cursor, with a test fewer if it was there before. -/
theorem StaleWithEvent.watch {e : ButtonEvent} {rest : List ButtonEvent} {s : State} (h : StaleWithEvent e rest s)
    (he : queueEmpty (lookConsumer s) = true) :
    (lookConsumer s).wvWatch.cursor = s.q.w ∧
      (s.wvWatch.cursor = s.q.w → (lookConsumer s).wvWatch.left < s.wvWatch.left) := by
  obtain ⟨-, hwv, -⟩ := h.inv.views h.stale
  obtain ⟨hcursor, hleft, -⟩ := lookConsumer_fair h.stale hwv h.inv.writeIndex
  refine ⟨hcursor, fun hrests => ?_⟩
  have hcount := hleft hrests
  have htests := h.left_lt he .none
  omega

/-! ## Polls in a row -/

/-- A block in the RUN mode with `e` the oldest unread event and `rest` the others. -/
structure RunningWithEvent (e : ButtonEvent) (rest : List ButtonEvent) (s : State) : Prop where
  inv     : BlockInv s
  running : s.halted = false
  events  : unread s = e :: rest

/-- With an unread event a poll sends the oldest, or the sentinel with fewer tests left (44_poll.md R235). -/
theorem RunningWithEvent.exec_poll {e : ButtonEvent} {rest : List ButtonEvent} {s : State}
    (h : RunningWithEvent e rest s) :
    ∃ t, exec .poll s = .next t ∧ ((t.out = .pollResp (responseOf e) :: s.out ∧ unread t = rest) ∨
      (t.out = .pollResp sentinel :: s.out ∧ RunningWithEvent e rest t ∧
        (lookConsumer t).wvWatch.left < (lookConsumer s).wvWatch.left)) := by
  obtain ⟨hi, hh, hu⟩ := h
  rcases exec_poll_cases hi hh with ⟨he, hx⟩ | ⟨e', hx, hu'⟩
  · have hevents : unread (lookConsumer s) = e :: rest := by rw [unread_lookConsumer, hu]
    have hleft := (StaleWithEvent.of_hidden hi hu he).left_lt_send he (.pollResp sentinel)
    exact ⟨_, hx, .inr ⟨by simp, ⟨hi.lookConsumer.send _, by simpa using hh, hevents⟩, hleft⟩⟩
  · rw [hu] at hu'
    obtain ⟨rfl, rfl⟩ := List.cons.inj hu'
    exact ⟨_, hx, .inl ⟨by simp [popped], rfl⟩⟩

/-- After finitely many sentinels in a row the oldest unread event comes, by induction on the tests left. -/
theorem RunningWithEvent.execAll_polls {e : ButtonEvent} {rest : List ButtonEvent} {s : State}
    (h : RunningWithEvent e rest s) :
    ∃ n t, execAll (List.replicate (n + 1) .poll) s = .next t ∧
      t.out = .pollResp (responseOf e) :: (List.replicate n (.pollResp sentinel) ++ s.out) ∧ unread t = rest := by
  induction hm : (lookConsumer s).wvWatch.left using Nat.strong_induction_on generalizing s with
  | _ m ih =>
    obtain ⟨t, hx, ⟨hout, hrest⟩ | ⟨hout, hwait, hlt⟩⟩ := h.exec_poll
    · exact ⟨0, t, (execAll_singleton _ _).trans hx, hout, hrest⟩
    · obtain ⟨n, u, hrun, houts, hrest⟩ := ih _ (hm ▸ hlt) hwait rfl
      refine ⟨n + 1, u, ?_, ?_, hrest⟩
      · rw [execAll_replicate_succ, hx, andThen_next, hrun]
      · rw [houts, hout, List.replicate_succ', List.append_assoc, List.singleton_append]

/-! ## The statements -/

/-- Settles O53: the queue is seen empty, with exact views by a look that moves nothing. -/
theorem emptyPollReturnsSentinel : Obligations.EmptyPollReturnsSentinel := by
  intro s hh hq
  refine ⟨fun hv => ?_, fun hi => ⟨_, exec_poll_empty hh (queueEmpty_of_eq hi hq), by simp [sentinel], by simp⟩⟩
  have hlook := lookConsumer_exact hv
  rw [exec_poll_empty hh (by rw [hlook]; exact (queueEmpty_exact_iff hv).mpr hq), hlook]
  rfl

/-- Settles O52: an exact view hides no event, so the poll takes the oldest. -/
theorem pollReturnsOldestEvent : Obligations.PollReturnsOldestEvent := by
  intro s e rest hi hv hh hu
  rcases exec_poll_cases hi hh with ⟨he, -⟩ | ⟨e', hx, hu'⟩
  · have hstale := (StaleWithEvent.of_hidden hi hu he).stale
    rw [hv] at hstale
    cases hstale
  · rw [lookConsumer_exact hv] at hx hu'
    rw [hu] at hu'
    obtain ⟨rfl, rfl⟩ := List.cons.inj hu'
    exact ⟨_, hx, rfl, rfl⟩

/-- Settles O54: a poll takes the oldest event or leaves them all, and the tests left bound the sentinels in a row. -/
theorem stalePollNeverLosesEvents : Obligations.StalePollNeverLosesEvents := by
  intro s hi hh
  refine ⟨?_, fun e rest hu => RunningWithEvent.execAll_polls ⟨hi, hh, hu⟩⟩
  rcases exec_poll_cases hi hh with ⟨he, hx⟩ | ⟨e, hx, hu⟩
  · refine ⟨_, hx, .inr ⟨unread_lookConsumer s, lookConsumer_q s, by simp [sentinel], fun hne => ?_⟩,
      exec_poll_frame hh hx⟩
    obtain ⟨e, rest, hu⟩ := List.exists_cons_of_ne_nil hne
    exact (StaleWithEvent.of_hidden hi hu he).watch he
  · exact ⟨_, hx, .inl ⟨e, hu, by simp [popped]⟩, exec_poll_frame hh hx⟩

end Sys2Proof.Machine
end

section
/-! The halt and completion (60_exceptions.md R250 to R262)

From the invariant no operation and no step stops; only a full queue at a commit halts the block, and the halt lasts
until a reset event. -/

namespace Sys2Proof.Machine

/-! ## Every operation answers -/

/-- `dropOldest` with stale views is no legal configuration (42_event_queue.md R175). -/
theorem BlockInv.noStaleDrop {s : State} (h : BlockInv s) :
    ¬ (s.cfg.overflowPolicy = .dropOldest ∧ s.cfg.staleView = true) := by
  obtain ⟨-, -, -, -, -, -, hdrop⟩ := h.cfgWf
  exact hdrop

/-- The invariant rules out an illegal column, so its cursor register names one (10_state.md R21). -/
theorem BlockInv.cursorNamesColumn {s : State} (h : BlockInv s) : ∃ c : Fin 10, s.column.toNat = c.val :=
  ⟨⟨_, h.column⟩, rfl⟩

theorem BlockInv.execPoll_ok {s : State} (h : BlockInv s) : ∃ t, Machine.execPoll s = .next t := by
  cases hh : s.halted with
  | true => exact ⟨_, if_pos hh⟩
  | false =>
    obtain ⟨-, hx⟩ | ⟨e, hx, -⟩ := exec_poll_cases h hh
    · exact ⟨_, hx⟩
    · exact ⟨_, hx⟩

theorem BlockInv.execTick_ok (d : Byte) {s : State} (h : BlockInv s) : ∃ t, Machine.execTick d s = .next t := by
  cases hh : s.halted with
  | true => exact ⟨s, execTick_halted d hh⟩
  | false =>
    obtain ⟨c, hc⟩ := h.cursorNamesColumn
    rw [execTick_run hh hc]
    by_cases hb : s.bamStage = 3
    · have hsent : BlockInv (tickSent c s) := h.advance.emitFrame
      rw [tickFrom_wrap c d hb]
      exact debounceStep_ok c d hsent.queueOk hsent.noStaleDrop
    · exact ⟨_, tickFrom_within c d hb⟩

/-- Settles O4, constructor by constructor. -/
theorem everyOperationCompletes : Obligations.EveryOperationCompletes := by
  intro i s h hexact
  cases i with
  | setColor | rxIgnored | setRgb | reset | emitFrame | bamEncode => exact ⟨_, rfl⟩
  | poll => exact h.execPoll_ok
  | tick d => exact h.execTick_ok d
  | advance =>
    obtain ⟨c, hc⟩ := h.cursorNamesColumn
    exact ⟨_, execAdvance_legal hc⟩
  | debounceStep k d => exact debounceStep_ok k d h.queueOk h.noStaleDrop
  | confirm k d => exact confirm_ok k d h.queueOk h.noStaleDrop
  | commit k d => exact commit_ok k d h.queueOk h.noStaleDrop
  | queueWrite e => exact ⟨_, exec_queueWrite h.queueOk.writeSlot e⟩
  | queueRead =>
    obtain ⟨e, hslot, -⟩ := popSlot_ok h.queueOk
    exact ⟨_, exec_queueRead hslot⟩
  | queueWriteDrop e => exact ⟨_, exec_queueWriteDrop_exact (hexact e rfl) h.queueOk.writeSlot e⟩

/-! ## No turn stops the block -/

/-- An event never starts QUEUE_WRITE_DROP, the one operation that can be refused (00_scope.md R2). -/
theorem decodeEvent_ne_queueWriteDrop (e : PortEvent) (x : ButtonEvent) : decodeEvent e ≠ .queueWriteDrop x := by
  intro hd
  have hport := decodeEvent_fromPort e
  rw [hd] at hport
  cases hport

/-- Whatever the next turn is, a step from the invariant answers a next state (60_exceptions.md R255, R256). -/
theorem BlockInv.step_ok {s : State} (h : BlockInv s) : ∃ t, Machine.step s = .next t := by
  match hi : s.inputs with
  | [] => exact ⟨_, step_idle hi⟩
  | .colorSubStep :: rest => exact ⟨_, step_subStep hi⟩
  | .event e :: rest =>
    rw [step_event hi]
    exact everyOperationCompletes _ _ h.arrive fun x hx => absurd hx (decodeEvent_ne_queueWriteDrop e x)

/-- Settles O5, by induction on the number of steps: each answers and keeps the invariant. -/
theorem noTurnStopsTheBlock : Obligations.NoTurnStopsTheBlock := by
  intro s h n
  induction n generalizing s with
  | zero => exact ⟨s, run_zero s, h⟩
  | succ n ih =>
    obtain ⟨u, hu⟩ := h.step_ok
    obtain ⟨t, hrun, ht⟩ := ih u (h.step hu)
    exact ⟨t, (run_succ n hu).trans hrun, ht⟩

/-- Settles O13: with no update in progress there is no sub-step to do. -/
theorem idleStepKeepsState : Obligations.IdleStepKeepsState := by
  intro s hi hu
  rw [step_idle hi, colorSubStep, hu]
  exact congrArg Host.Outcome.next (ite_self s)

/-! ## While halted -/

theorem setRgb_halted {s : State} (h : s.halted = true) (a : Agent) (row col : Byte) (v : Rgb) :
    setRgb a row col v s = s :=
  if_pos h

theorem setColor_halted {s : State} (h : s.halted = true) (b0 b1 b2 b3 : Byte) : setColor b0 b1 b2 b3 s = s :=
  if_pos h

/-- Settles O57: every port operation but RESET and RX_IGNORED tests the halt first. -/
theorem haltedPortOperationsChangeNothing : Obligations.HaltedPortOperationsChangeNothing := by
  intro i s hh hport hreset
  refine ⟨fun hpoll => ?_, ?_⟩
  · cases i with
    | setColor b0 b1 b2 b3 => exact congrArg Host.Outcome.next (setColor_halted hh b0 b1 b2 b3)
    | rxIgnored bytes => rfl
    | poll => exact absurd rfl hpoll
    | tick d => exact execTick_halted d hh
    | setRgb row col red green blue => exact congrArg Host.Outcome.next (setRgb_halted hh _ row col _)
    | reset => exact absurd rfl hreset
    | _ => cases hport
  · rintro rfl
    exact if_pos hh

/-- Only the poll request decodes to POLL. -/
theorem decodeEvent_poll {e : PortEvent} (h : decodeEvent e = .poll) : e = .pollReq := by
  have hencode := (encode_decodeEvent e).2
  rw [h] at hencode
  exact (Option.some.inj hencode).symm

/-- Settles O58: while halted no sub-step is done and no update finished, and an event's operation does nothing but
answer a poll. -/
theorem haltLastsUntilReset : Obligations.HaltLastsUntilReset := by
  intro s t hh hs hreset
  rcases step_cases hs with ⟨hi, rfl⟩ | ⟨rest, hi, rfl⟩ | ⟨e, rest, hi, hx⟩
  · rw [colorSubStep_halted hh, hi]
    exact ⟨by rw [List.tail_nil, ← hi], .inl rfl⟩
  · rw [colorSubStep_halted (s := s.withInputs rest) hh, hi]
    exact ⟨rfl, .inl rfl⟩
  · have hne : decodeEvent e ≠ .reset := fun hd => hreset rest (by rw [hi, decodeEvent_reset hd])
    obtain ⟨hother, hpoll⟩ :=
      haltedPortOperationsChangeNothing (decodeEvent e) (s.withInputs rest) hh (decodeEvent_fromPort e) hne
    rw [arrive_halted e rest hh] at hx
    by_cases hp : decodeEvent e = .poll
    · obtain rfl := Host.Outcome.next.inj ((hpoll hp).symm.trans hx)
      rw [hi, decodeEvent_poll hp]
      exact ⟨rfl, .inr ⟨rest, _, rfl, rfl⟩⟩
    · obtain rfl := Host.Outcome.next.inj ((hother hp).symm.trans hx)
      rw [hi]
      exact ⟨rfl, .inl rfl⟩

/-! ## The way into the halt -/

/-- If the block is halted, the policy is `halt` and, with exact views, the queue is full (60_exceptions.md R250). -/
def HaltedByOverflow (s : State) : Prop :=
  s.halted = true → s.cfg.overflowPolicy = .halt ∧ (s.cfg.staleView = false → occupancy s = s.cfg.capacity - 1)

theorem HaltedByOverflow.of_running {s : State} (h : s.halted = false) : HaltedByOverflow s := fun hh => by
  cases h.symm.trans hh

/-- A row of a commit halts the block only when it finds the queue full; a queue that was full stays full. -/
theorem HaltedByOverflow.commitRow {k : Fin 10} {r : Fin 6} {s t : State} {go : Bool} (h : HaltedByOverflow s)
    (hq : QueueOk s) (hr : commitRow k r s = .next (go, t)) : HaltedByOverflow t := by
  have hfull : s.cfg.staleView = false → (queueFull (lookProducer s) = true ↔ occupancy s = s.cfg.capacity - 1) := by
    intro hv
    rw [lookProducer_exact hv]
    exact queueFull_exact hv hq
  have hcfg := (commitRow_frame hr).cfg
  rcases commitRow_cases hr with ⟨-, -, rfl⟩ | ⟨-, hp, -, hw⟩ | ⟨-, hp, -, u, hw, rfl⟩ | ⟨-, hp, -, hw⟩
  · exact h
  · intro ht
    rw [queueWrite_halted hw] at ht
    obtain ⟨-, hocc⟩ := h ht
    rw [hcfg]
    refine ⟨hp, fun hv => ?_⟩
    obtain ⟨hok, -⟩ | ⟨-, hroom, -⟩ := queueWrite_cases hw
    · cases hok
    · cases hroom.symm.trans ((hfull hv).2 (hocc hv))
  · intro _
    rw [hcfg]
    refine ⟨hp, fun hv => ?_⟩
    obtain ⟨-, hno, rfl⟩ | ⟨hok, -⟩ := queueWrite_cases hw
    · exact (occupancy_lookProducer s).trans ((hfull hv).1 hno)
    · cases hok
  · intro ht
    rw [queueWriteDrop_halted hw] at ht
    obtain ⟨hhalt, -⟩ := h ht
    cases hp.symm.trans hhalt

theorem HaltedByOverflow.commit {k : Fin 10} {d : Byte} {s t : State} (h : HaltedByOverflow s) (hi : BlockInv s)
    (hc : commit k d s = .next t) : HaltedByOverflow t := by
  have hrows : ∀ {go u}, commitRows k allRows s = .next (go, u) → HaltedByOverflow u := fun hu =>
    (commitRows_induct (P := fun v => BlockInv v ∧ HaltedByOverflow v)
      (fun _ _ _ _ ⟨hinv, hover⟩ hr => ⟨hinv.commitRow hr, hover.commitRow hinv.queueOk hr⟩) ⟨hi, h⟩ hu).2
  obtain ⟨u, ⟨hu, rfl⟩ | ⟨hu, rfl⟩⟩ := commit_cases hc
  · exact (hrows hu :)
  · exact hrows hu

theorem bumpCounter_halted (k : Fin 10) (s : State) : (bumpCounter k s).halted = s.halted := by
  unfold bumpCounter
  split <;> rfl

/-- A sample from the RUN mode halts the block only by an overflow of its commit (60_exceptions.md R250). -/
theorem debounceStep_haltedByOverflow {k : Fin 10} {d : Byte} {s t : State} (hi : BlockInv s) (hh : s.halted = false)
    (hd : debounceStep k d s = .next t) : HaltedByOverflow t := by
  rcases debounceStep_cases hd with ⟨-, rfl⟩ | ⟨-, -, rfl⟩ | ⟨-, -, hc⟩
  · exact .of_running hh
  · exact .of_running hh
  · obtain ⟨u, hu, ht⟩ := confirm_cases hc
    obtain ⟨hinv, hover⟩ : BlockInv u ∧ HaltedByOverflow u := by
      rcases hu with rfl | rfl
      · exact ⟨hi, .of_running hh⟩
      · exact ⟨hi.bumpCounter, .of_running ((bumpCounter_halted k s).trans hh)⟩
    rcases ht with rfl | ht
    · exact hover
    · exact hover.commit hinv ht

/-- Settles O59: of the port operations only TICK and RESET write `halted`; RESET clears it, and a tick sets it only in
the sample it takes past stage 3. -/
theorem onlyTickOverflowHalts : Obligations.OnlyTickOverflowHalts := by
  intro i s t hi hport hh hx ht
  obtain ⟨-, -, -, -, -, hwriter⟩ := oneWriterPerField i s t hport hx
  rcases hwriter (by rw [ht, hh]; decide) with rfl | ⟨d, rfl⟩
  · cases hx
    cases ht
  · rcases execTick_cases hx with ⟨hhalted, -⟩ | ⟨-, c, -, ⟨-, rfl⟩ | ⟨hb, hd⟩⟩
    · cases hh.symm.trans hhalted
    · cases hh.symm.trans ht
    · have hover := debounceStep_haltedByOverflow hi.advance.emitFrame hh hd ht
      rw [exec_cfg hx] at hover
      exact ⟨⟨d, rfl⟩, hb, hover⟩

end Sys2Proof.Machine
end

section
/-! Reset and hazards (70_reset_and_hazards.md R280, R291)

The reset state, the reset operation, and what a commit can do under `halt` when the producer's view of the read cursor
may be stale: each event goes in or ends the commit, whatever the view shows. -/

namespace Sys2Proof.Machine

/-! ## Reset -/

/-- Settles O1. -/
theorem resetSatisfiesInvariant : Obligations.ResetSatisfiesInvariant := reset_inv

/-- Settles O56: RESET is `resetBlock` in every mode. The dropped update, the cleared watches and the free values of the
slots are the model's choices (log entries 9, 8 and 6). -/
theorem resetFromAnyState : Obligations.ResetFromAnyState := fun _ => rfl

/-! ## One write under any view -/

/-- A write that reports success appends its event, since a view that shows room is never ahead of the read cursor
(42_event_queue.md R179). -/
theorem unread_queueWrite_true {s t : State} {e : ButtonEvent} (h : BlockInv s)
    (hw : queueWrite e s = .next (true, t)) : unread t = unread s ++ [e] := by
  obtain ⟨hok, -⟩ | ⟨-, hroom, rfl⟩ := queueWrite_cases hw
  · cases hok
  · have hl := h.lookProducer
    rw [unread_pushed hl.queueOk e (hl.occupancy_of_notFull hroom), unread_lookProducer]

theorem unread_queueWrite_false {s t : State} {e : ButtonEvent} (hw : queueWrite e s = .next (false, t)) :
    unread t = unread s := by
  obtain ⟨-, -, rfl⟩ | ⟨hok, -⟩ := queueWrite_cases hw
  · exact unread_lookProducer s
  · cases hok

/-! ## The commit loop under any view -/

section
variable {k : Fin 10} {r : Fin 6} {rs : List (Fin 6)} {s t : State}

theorem rowEvents_append (s : State) (k : Fin 10) (rs rs' : List (Fin 6)) :
    rowEvents s k (rs ++ rs') = rowEvents s k rs ++ rowEvents s k rs' := by
  simp only [rowEvents, List.filter_append, List.map_append]

/-- A row after which the commit goes on has queued its event, if it has one. -/
theorem commitRow_goesOn (h : BlockInv s) (hp : s.cfg.overflowPolicy = .halt) (hr : commitRow k r s = .next (true, t)) :
    t.halted = s.halted ∧ unread t = unread s ++ rowEvents s k [r] := by
  rw [rowEvents_cons]
  rcases commitRow_cases hr with ⟨hbit, -, rfl⟩ | ⟨hbit, -, -, hw⟩ | ⟨-, -, hgo, -⟩ | ⟨-, hdrop, -⟩
  · rw [if_neg (Bool.eq_false_iff.mp hbit)]
    exact ⟨rfl, (List.append_nil _).symm⟩
  · rw [if_pos hbit]
    exact ⟨queueWrite_halted hw, unread_queueWrite_true h hw⟩
  · cases hgo
  · cases hp.symm.trans hdrop

/-- A row that ends the commit has an event and queues nothing (41_debounce.md R149). -/
theorem commitRow_ends (hr : commitRow k r s = .next (false, t)) :
    t.halted = true ∧ unread t = unread s ∧ rowEvents s k [r] = [eventFor s k r] := by
  rcases commitRow_cases hr with ⟨-, hgo, -⟩ | ⟨-, -, hgo, -⟩ | ⟨hbit, -, -, u, hw, rfl⟩ | ⟨-, -, hgo, -⟩
  · cases hgo
  · cases hgo
  · rw [rowEvents_cons, if_pos hbit]
    exact ⟨rfl, (unread_queueWrite_false hw :), rfl⟩
  · cases hgo

/-- The loop's first row goes on to the rest, or ends the commit. -/
theorem commitRows_cons_cases {go : Bool} (h : commitRows k (r :: rs) s = .next (go, t)) :
    (∃ u, commitRow k r s = .next (true, u) ∧ commitRows k rs u = .next (go, t)) ∨
    (go = false ∧ commitRow k r s = .next (false, t)) := by
  obtain ⟨⟨g, u⟩, hu, hn⟩ := andThen_eq_next h
  cases g
  · cases hn
    exact .inr ⟨rfl, hu⟩
  · exact .inl ⟨u, hu, hn⟩

/-- A row keeps the invariant, the policy and the events of the rows that follow. -/
theorem commitRow_keeps (h : BlockInv s) (hp : s.cfg.overflowPolicy = .halt) {go : Bool}
    (hr : commitRow k r s = .next (go, t)) :
    BlockInv t ∧ t.cfg.overflowPolicy = .halt ∧ rowEvents t k rs = rowEvents s k rs := by
  have hf := commitRow_frame hr
  exact ⟨h.commitRow hr, by rw [hf.cfg, hp], rowEvents_congr hf.deb k rs⟩

/-- A commit loop that reaches its end has queued the event of every row. -/
theorem commitRows_done (h : BlockInv s) (hp : s.cfg.overflowPolicy = .halt)
    (hc : commitRows k rs s = .next (true, t)) :
    t.halted = s.halted ∧ unread t = unread s ++ rowEvents s k rs := by
  induction rs generalizing s with
  | nil =>
    cases hc
    exact ⟨rfl, (List.append_nil _).symm⟩
  | cons r rest ih =>
    obtain ⟨u, hr, hrest⟩ | ⟨hgo, -⟩ := commitRows_cons_cases hc
    · obtain ⟨hhalt, hunread⟩ := commitRow_goesOn h hp hr
      obtain ⟨hu, hpu, hev⟩ := commitRow_keeps (rs := rest) h hp hr
      obtain ⟨hhalt', hunread'⟩ := ih hu hpu hrest
      refine ⟨hhalt'.trans hhalt, ?_⟩
      rw [hunread', hunread, hev, List.append_assoc, ← rowEvents_append, List.singleton_append]
    · cases hgo

/-- A commit loop that ends early halts the block; the events before the one that found no room are queued
(41_debounce.md R149). -/
theorem commitRows_stopped (h : BlockInv s) (hp : s.cfg.overflowPolicy = .halt)
    (hc : commitRows k rs s = .next (false, t)) :
    t.halted = true ∧ ∃ sent e left, rowEvents s k rs = sent ++ e :: left ∧ unread t = unread s ++ sent := by
  induction rs generalizing s with
  | nil => cases hc
  | cons r rest ih =>
    rw [← List.singleton_append, rowEvents_append]
    obtain ⟨u, hr, hrest⟩ | ⟨-, hr⟩ := commitRows_cons_cases hc
    · obtain ⟨-, hunread⟩ := commitRow_goesOn h hp hr
      obtain ⟨hu, hpu, hev⟩ := commitRow_keeps (rs := rest) h hp hr
      obtain ⟨hhalt, sent, e, left, hsplit, hunread'⟩ := ih hu hpu hrest
      refine ⟨hhalt, rowEvents s k [r] ++ sent, e, left, ?_, ?_⟩
      · rw [← hev, hsplit, List.append_assoc]
      · rw [hunread', hunread, List.append_assoc]
    · obtain ⟨hhalt, hunread, hev⟩ := commitRow_ends hr
      refine ⟨hhalt, [], eventFor s k r, rowEvents s k rest, by rw [hev]; rfl, ?_⟩
      rw [hunread, List.append_nil]

end

/-- Settles O29: the loop over all rows either reaches its end, and `last` is written, or stops at the first event its
view has no room for. -/
theorem commitUnderAnyViewQueuesFirstPart : Obligations.CommitUnderAnyViewQueuesFirstPart := by
  intro k d s hi hp
  obtain ⟨t, ht⟩ := commit_ok k d hi.queueOk hi.noStaleDrop
  obtain ⟨u, ⟨hu, rfl⟩ | ⟨hu, rfl⟩⟩ := commit_cases ht
  · obtain ⟨hhalt, hunread⟩ := commitRows_done hi hp hu
    have hdeb := (commitRows_frame hu).deb
    refine ⟨_, (commitEvents s k).length, ht, le_rfl, ?_, .inl ⟨rfl, hhalt, ?_⟩⟩
    · rw [List.take_length]
      exact hunread
    · show u.deb.set k _ = _
      rw [hdeb]
  · obtain ⟨hhalt, sent, e, left, hsplit, hunread⟩ := commitRows_stopped hi hp hu
    rw [rowEvents_allRows] at hsplit
    have hlt : sent.length < (commitEvents s k).length := by
      rw [hsplit, List.length_append, List.length_cons]
      omega
    refine ⟨_, sent.length, ht, hlt.le, ?_, .inr ⟨hlt, hhalt, (commitRows_frame hu).deb⟩⟩
    rw [hsplit, List.take_left]
    exact hunread

end Sys2Proof.Machine
end
